-- ==== Sys2Proof/Word.lean ====
section
/-! DEFINITION. The word types of FIBCORE: a 32-bit register (10_state.md section 2), a stream byte (20_memory.md R66)
and a bit string in transmission order (00_scope.md R12). -/

namespace Sys2Proof

/-- A host register: REG_W = 32 bits (00_scope.md R8, 92_eei_decisions.md D2; log entry 3, DEDUCED, safe). -/
abbrev Word := BitVec 32

/-- One byte of IN or OUT. -/
abbrev Byte := BitVec 8

/-- A bit string in transmission order: the head is the first bit written or read (00_scope.md R12). -/
abbrev BitString := List Bool

/-- The value written `-1` in a register: "no value" (00_scope.md R10). -/
def noValue : Word := 0xFFFFFFFF#32

end Sys2Proof
end

