-- ==== Sys2Proof/Config.lean ====
section
/-! DEFINITION. The configuration FIBCORE is built with (00_scope.md R8), the shape of its read-only tables
(10_state.md R43), the reference configuration REFCFG, and the one value the spec leaves free (20_memory.md R74). -/

namespace Sys2Proof

/-- A codeword (00_scope.md R12): `length` bits of `pattern`, the most significant first. -/
structure Codeword where
  pattern : Nat
  length : Nat
deriving DecidableEq, Repr

/-- The parameters of 00_scope.md R8 and the platform parameter REG_BASE (20_memory.md R71). REG_W is fixed at 32
(log entry 3), BACK_LEN is derived (42_codetable.md R184) and IN_LEN is the length of the input of a launch. -/
structure Config where
  regBase : Nat
  fibLen : Nat
  windowBits : Nat
  minValidBits : Nat
  maxLeadZeros : Nat
  maxZeroRun : Nat
  maxOneRun : Nat
  searchLimit : Nat
  priority : List Byte
  frameHead : Nat
  frameFoot : Nat
  runoutReset : BitVec 16
  leadinReset : BitVec 16
deriving DecidableEq, Repr

/-- The read-only memories (10_state.md R43): the Fibonacci ROM, the two parallel forward arrays, the backward map
(`none` is INVALID) and the two sentinel codewords. -/
structure Rom where
  fib : List Nat
  fwdPat : List (BitVec 32)
  fwdLen : List (BitVec 6)
  back : List (Option Byte)
  head : Codeword
  foot : Codeword
deriving DecidableEq, Repr

/-- PRIORITY at REFCFG (42_codetable.md R186): ranks 0 to 143 as listed, then 0x8F to 0xFE ascending. -/
def refPriority : List Byte :=
  [0x00, 0xFF, 0x20, 0x65, 0x74, 0x61, 0x6F, 0x69, 0x6E, 0x73, 0x68, 0x72, 0x64, 0x6C, 0x63, 0x75] ++
  [0x6D, 0x77, 0x66, 0x67, 0x79, 0x70, 0x62, 0x76, 0x6B, 0x6A, 0x78, 0x71, 0x7A, 0x45, 0x54, 0x41] ++
  [0x4F, 0x49, 0x4E, 0x53, 0x48, 0x52, 0x44, 0x4C, 0x43, 0x55, 0x4D, 0x57, 0x46, 0x47, 0x59, 0x50] ++
  [0x42, 0x56, 0x4B, 0x4A, 0x58, 0x51, 0x5A, 0x30, 0x31, 0x32, 0x33, 0x34, 0x35, 0x36, 0x37, 0x38] ++
  [0x39, 0x2E, 0x2C, 0x27, 0x22, 0x2D, 0x3F, 0x21, 0x3A, 0x3B, 0x28, 0x29, 0x23, 0x24, 0x25, 0x26] ++
  [0x2A, 0x2B, 0x2F, 0x3C, 0x3D, 0x3E, 0x40, 0x5B, 0x5C, 0x5D, 0x5E, 0x5F, 0x60, 0x7B, 0x7C, 0x7D] ++
  [0x7E, 0x01, 0x02, 0x03, 0x04, 0x05, 0x06, 0x07, 0x08, 0x09, 0x0A, 0x0B, 0x0C, 0x0D, 0x0E, 0x0F] ++
  [0x10, 0x11, 0x12, 0x13, 0x14, 0x15, 0x16, 0x17, 0x18, 0x19, 0x1A, 0x1B, 0x1C, 0x1D, 0x1E, 0x1F] ++
  [0x7F, 0x80, 0x81, 0x82, 0x83, 0x84, 0x85, 0x86, 0x87, 0x88, 0x89, 0x8A, 0x8B, 0x8C, 0x8D, 0x8E] ++
  (List.range 112).map (fun i => BitVec.ofNat 8 (0x8F + i))

/-- REFCFG (00_scope.md R8). `regBase` is a platform parameter that REFCFG does not give: 0 here
(log entry 2, DESIGN CHOICE, unsafe for a claim that used it; none does). -/
def refCfg : Config where
  regBase := 0
  fibLen := 32
  windowBits := 17
  minValidBits := 32
  maxLeadZeros := 3
  maxZeroRun := 4
  maxOneRun := 2
  searchLimit := 1024
  priority := refPriority
  frameHead := 682
  frameFoot := 684
  runoutReset := 0
  leadinReset := 0

/-- The value that the n-th host load of a register other than STATUS during BUSY returns: any value of 32 bits
(20_memory.md R74; 93_implementation_defined.md I2). A free value: it has no body, so nothing can be proved of it
(log entry 7, DESIGN CHOICE of the form, safe). -/
opaque Config.busyRead : Nat → BitVec 32

end Sys2Proof
end

