-- ==== Sys2Proof/Machine/Bits.lean ====
section
/-! DEFINITION. Bit strings and numbers (00_scope.md R11, R12): the string of a codeword, the value of a string, the
bits of a stream byte (20_memory.md R66). -/

namespace Sys2Proof.Machine

/-- `bits(p, l)` of 00_scope.md R12: `p[l-1], ..., p[0]`. -/
def bits (p : Nat) : Nat → BitString
  | 0 => []
  | l + 1 => p.testBit l :: bits p l

/-- A bit string read as a binary number, its first bit the most significant. -/
def stringValue (s : BitString) : Nat :=
  s.foldl (fun v b => 2 * v + b.toNat) 0

/-- The codeword whose `bits` are the string (41_fibonacci.md R152: length, and the pattern with the terminator at bit 0). -/
def codewordOf (s : BitString) : Codeword :=
  ⟨stringValue s, s.length⟩

/-- The bit string of a codeword. -/
def codewordBits (w : Codeword) : BitString :=
  bits w.pattern w.length

/-- The bits of a stream byte in transmission order: bit 7 first (20_memory.md R66). -/
def byteBits (b : Byte) : BitString :=
  bits b.toNat 8

/-- A bit as a register value: `zext_32(b)`. -/
def bitWord (b : Bool) : Word :=
  BitVec.ofNat 32 b.toNat

/-- A value that may be missing as a register value: `-1` where there is none (00_scope.md R10). -/
def valueWord : Option Nat → Word
  | none => noValue
  | some v => BitVec.ofNat 32 v

end Sys2Proof.Machine
end

