-- ==== Sys2Proof/Machine/Tables.lean ====
section
/-! DEFINITION. The contents of the table ROMs as a function of the configuration: the Fibonacci ROM and `FibCode`
(41_fibonacci.md R150 to R153) and the constrained construction of the code table (42_codetable.md R181 to R184, R192). -/

namespace Sys2Proof.Machine

/-- `n` terms of the Fibonacci recurrence from `a`, `b` on. -/
def fibFrom : Nat → Nat → Nat → List Nat
  | 0, _, _ => []
  | n + 1, a, b => a :: fibFrom n b (a + b)

/-- The Fibonacci ROM of 41_fibonacci.md R150: `Fib[0..n-1]`. -/
def fibRom (n : Nat) : List Nat :=
  fibFrom n 0 1

/-- The greedy walk of 41_fibonacci.md R152 from the highest term down: the residue left and the digits, lowest term first. -/
def greedyDigits (terms : List Nat) (n : Nat) : Nat × BitString :=
  terms.foldr (fun f r => if f ≤ r.1 then (r.1 - f, true :: r.2) else (r.1, false :: r.2)) (n, [])

/-- `FibCode(v)` (41_fibonacci.md R152): the digits of `v + 1` over the terms `Fib[2..j-1]` that do not exceed it, lowest
first, then the terminator; `none` outside the encodable domain of R153. -/
def fibCode (fib : List Nat) (v : Nat) : Option BitString :=
  if v + 1 < fib.getD (fib.length - 1) 0 then
    some ((greedyDigits ((fib.drop 2).takeWhile (· ≤ v + 1)) (v + 1)).2 ++ [true])
  else none

/-- The longest run of the bit `b` in a string, where `cur` bits `b` stand just before it. -/
def longestRun (b : Bool) : Nat → BitString → Nat
  | cur, [] => cur
  | cur, x :: xs => if x = b then longestRun b (cur + 1) xs else max cur (longestRun b 0 xs)

/-- The run-length test `RL(s)` of 42_codetable.md R182. -/
def runLengthOk (c : Config) (s : BitString) : Bool :=
  decide ((s.takeWhile (! ·)).length ≤ c.maxLeadZeros) &&
  decide (longestRun false 0 s ≤ c.maxZeroRun) &&
  decide (longestRun true 0 s ≤ c.maxOneRun)

/-- What the construction has assigned from some candidate on: the entries of BACK, and each byte value's codeword. -/
structure Assigned where
  back : List (Option Byte)
  words : List (Byte × Codeword)
deriving DecidableEq, Repr

/-- The candidate loop of `buildTable` (42_codetable.md R184): at most `n` candidates from `c` on, and the priority ranks
still to assign. It stops once every byte value has its codeword, and answers nothing where the candidates end first
(00_scope.md R9 W2) or a candidate has no code (W8). -/
def assignFrom (cfg : Config) (fib : List Nat) : Nat → Nat → List Byte → Option Assigned
  | _, _, [] => some ⟨[], []⟩
  | 0, _, _ :: _ => none
  | n + 1, c, b :: rest =>
    match fibCode fib c with
    | none => none
    | some s =>
      if runLengthOk cfg s then
        (assignFrom cfg fib n (c + 1) rest).map fun a => ⟨some b :: a.back, (b, codewordOf s) :: a.words⟩
      else
        (assignFrom cfg fib n (c + 1) (b :: rest)).map fun a => ⟨none :: a.back, a.words⟩

/-- `buildTable(SEARCH_LIMIT, PRIORITY)` (42_codetable.md R184). -/
def buildTable (cfg : Config) : Option Assigned :=
  assignFrom cfg (fibRom cfg.fibLen) cfg.searchLimit 0 cfg.priority

/-- The codeword the construction gave a byte value. -/
def assignedWord (a : Assigned) (b : Byte) : Codeword :=
  ((a.words.find? (fun p => p.1 == b)).map (·.2)).getD ⟨0, 0⟩

/-- All 256 byte values, ascending: the index of the forward arrays. -/
def allBytes : List Byte :=
  (List.range 256).map (BitVec.ofNat 8)

/-- The ROM contents of a configuration (10_state.md R43): R150, R184 and R192. -/
def romOf (cfg : Config) : Option Rom :=
  match buildTable cfg, fibCode (fibRom cfg.fibLen) cfg.frameHead, fibCode (fibRom cfg.fibLen) cfg.frameFoot with
  | some a, some h, some f =>
    some {
      fib := fibRom cfg.fibLen
      fwdPat := allBytes.map fun b => BitVec.ofNat 32 (assignedWord a b).pattern
      fwdLen := allBytes.map fun b => BitVec.ofNat 6 (assignedWord a b).length
      back := a.back
      head := codewordOf h
      foot := codewordOf f }
  | _, _, _ => none

/-- One codeword of the forward arrays: `FWD_PAT[b]` and `FWD_LEN[b]` (42_codetable.md R180). -/
def forwardWord (r : Rom) (b : Byte) : Codeword :=
  ⟨(r.fwdPat.getD b.toNat 0).toNat, (r.fwdLen.getD b.toNat 0).toNat⟩

/-- `BACK[c]`, with INVALID and `c >= BACK_LEN` both `none` (42_codetable.md R191). -/
def backwardByte (r : Rom) (c : Nat) : Option Byte :=
  r.back.getD c none

end Sys2Proof.Machine
end

