-- ==== Sys2Proof/Syntax.lean ====
section
/-! DEFINITION. The fourteen commands of FIBCORE, one constructor per row of the opcode table (30_encoding.md R92). -/

namespace Sys2Proof

/-- A command. No command word carries an operand: operands are read from ARG0 and ARG1 (30_encoding.md R91, R93). -/
inductive Instr where
  /-- NOP, 40_bitchannel.md R126. -/
  | nop
  /-- WRITE_BIT, 40_bitchannel.md R127. -/
  | writeBit
  /-- WRITE_PATTERN, 40_bitchannel.md R128. -/
  | writePattern
  /-- FLUSH, 40_bitchannel.md R129. -/
  | flush
  /-- READ_BIT, 40_bitchannel.md R130. -/
  | readBit
  /-- TRY_READ_BIT, 40_bitchannel.md R131. -/
  | tryReadBit
  /-- REWIND, 40_bitchannel.md R132. -/
  | rewind
  /-- FIB_ENCODE, 41_fibonacci.md R160. -/
  | fibEncode
  /-- FIB_DECODE, 41_fibonacci.md R161. -/
  | fibDecode
  /-- FIB_TRY_DECODE, 41_fibonacci.md R162. -/
  | fibTryDecode
  /-- TBL_FORWARD, 42_codetable.md R190. -/
  | tblForward
  /-- TBL_BACKWARD, 42_codetable.md R191. -/
  | tblBackward
  /-- FRM_ENCODE, 43_framing.md R212. -/
  | frmEncode
  /-- FRM_DECODE, 43_framing.md R220. -/
  | frmDecode
deriving DecidableEq, Repr

end Sys2Proof
end

