-- ==== Sys2Proof/WellFormed.lean ====
section
/-! DEFINITION. The checks of well-formedness: W1 to W8 of 00_scope.md R9 for a configuration, the length of IN (R8),
and the check of a command, which has no operand that could be ill-formed (30_encoding.md R91). -/

namespace Sys2Proof

open Machine in
/-- The codewords that may stand before the header in clean frame content: every assigned byte value's, and the footer's. -/
def Config.contentWords (c : Config) : List BitString :=
  match buildTable c, fibCode (fibRom c.fibLen) c.frameFoot with
  | some a, some f => f :: a.words.map (fun p => codewordBits p.2)
  | _, _ => []

/-- W1: `4 <= FIB_LEN <= 47`; that `Fib` is the table of R150 holds by construction. -/
def Config.w1 (c : Config) : Bool :=
  decide (4 ≤ c.fibLen) && decide (c.fibLen ≤ 47)

/-- W2: the construction assigns every byte value below SEARCH_LIMIT. -/
def Config.w2 (c : Config) : Bool :=
  (Machine.buildTable c).isSome

/-- W3: PRIORITY is a permutation of 0..255. -/
def Config.w3 (c : Config) : Bool :=
  c.priority.length == 256 && Machine.allBytes.all (fun b => c.priority.contains b)

/-- W4: the sentinels differ, neither is an assigned codepoint, and both have a Fibonacci code. -/
def Config.w4 (c : Config) : Bool :=
  c.frameHead != c.frameFoot &&
  (Machine.fibCode (Machine.fibRom c.fibLen) c.frameHead).isSome &&
  (Machine.fibCode (Machine.fibRom c.fibLen) c.frameFoot).isSome &&
  (match Machine.buildTable c with
    | some a => (a.back.getD c.frameHead none).isNone && (a.back.getD c.frameFoot none).isNone
    | none => false)

/-- W5: both sentinel codewords meet the run-length test. -/
def Config.w5 (c : Config) : Bool :=
  match Machine.fibCode (Machine.fibRom c.fibLen) c.frameHead, Machine.fibCode (Machine.fibRom c.fibLen) c.frameFoot with
  | some h, some f => Machine.runLengthOk c h && Machine.runLengthOk c f
  | _, _ => false

/-- W6: `len(code(FRAME_HEAD)) + 1 <= WINDOW_BITS`. -/
def Config.w6 (c : Config) : Bool :=
  match Machine.fibCode (Machine.fibRom c.fibLen) c.frameHead with
  | some h => decide (h.length + 1 ≤ c.windowBits)
  | none => false

/-- W7: the header codeword followed by a zero is no suffix of `1 1 0 w 0` for a codeword `w` that a frame may hold. -/
def Config.w7 (c : Config) : Bool :=
  match Machine.fibCode (Machine.fibRom c.fibLen) c.frameHead with
  | some h => c.contentWords.all (fun w => ! (h ++ [false]).isSuffixOf ([true, true, false] ++ w ++ [false]))
  | none => false

/-- W8: `SEARCH_LIMIT <= Fib[FIB_LEN-1] - 1`. -/
def Config.w8 (c : Config) : Bool :=
  decide (c.searchLimit + 1 ≤ (Machine.fibRom c.fibLen).getD (c.fibLen - 1) 0)

/-- A well-formed configuration (00_scope.md R9). -/
def Config.wellFormed (c : Config) : Bool :=
  c.w1 && c.w2 && c.w3 && c.w4 && c.w5 && c.w6 && c.w7 && c.w8

/-- The input of a launch: `0 <= IN_LEN <= 2^32 - 1` (00_scope.md R8). -/
def inputFits (inp : List Byte) : Bool :=
  decide (inp.length < 2 ^ 32)

/-- Every term of `Instr` is well-formed: a command word has no register field and no immediate field (30_encoding.md R91). -/
def Instr.wellFormed : Instr → Bool
  | .nop | .writeBit | .writePattern | .flush | .readBit | .tryReadBit | .rewind => true
  | .fibEncode | .fibDecode | .fibTryDecode => true
  | .tblForward | .tblBackward => true
  | .frmEncode | .frmDecode => true

end Sys2Proof
end

