-- ==== Sys2Proof/Decode.lean ====
section
/-! DEFINITION. The command word (30_encoding.md R90 to R97): a decoder total on every 32-bit word, which rejects by
name, and the encoder of the same opcode map. -/

namespace Sys2Proof

/-- Why a command word is illegal (30_encoding.md R95). Both complete the command with ILLEGAL; neither is a refusal. -/
inductive Reject where
  /-- `CMD[31:5] != 0`. -/
  | reservedBits
  /-- `OP` in 0x0E..0x1F. -/
  | reservedOpcode
deriving DecidableEq, Repr

/-- The opcode map of 30_encoding.md R92, read from the OP field. -/
def decodeOpcode : Nat → Except Reject Instr
  | 0x00 => .ok .nop
  | 0x01 => .ok .writeBit
  | 0x02 => .ok .writePattern
  | 0x03 => .ok .flush
  | 0x04 => .ok .readBit
  | 0x05 => .ok .tryReadBit
  | 0x06 => .ok .rewind
  | 0x07 => .ok .fibEncode
  | 0x08 => .ok .fibDecode
  | 0x09 => .ok .fibTryDecode
  | 0x0A => .ok .tblForward
  | 0x0B => .ok .tblBackward
  | 0x0C => .ok .frmEncode
  | 0x0D => .ok .frmDecode
  | _ => .error .reservedOpcode

/-- Decoding a CMD word: reserved bits `[31:5]`, then `OP = CMD[4:0]` (30_encoding.md R91, R95). -/
def decode (w : Word) : Except Reject Instr :=
  if w.extractLsb' 5 27 = 0 then decodeOpcode (w.extractLsb' 0 5).toNat else .error .reservedBits

/-- The OP value of a command (30_encoding.md R92). -/
def opcode : Instr → BitVec 5
  | .nop => 0x00
  | .writeBit => 0x01
  | .writePattern => 0x02
  | .flush => 0x03
  | .readBit => 0x04
  | .tryReadBit => 0x05
  | .rewind => 0x06
  | .fibEncode => 0x07
  | .fibDecode => 0x08
  | .fibTryDecode => 0x09
  | .tblForward => 0x0A
  | .tblBackward => 0x0B
  | .frmEncode => 0x0C
  | .frmDecode => 0x0D

/-- "The full command word of each command is `zext_32(OP)`" (30_encoding.md R92). -/
def encode (i : Instr) : Word :=
  (opcode i).zeroExtend 32

/-- The command the decoder reads from a table word of `nbits` bits, every bit above them 0. -/
def decodeTableWord (nbits w : Nat) : Option Instr :=
  if nbits ≤ 32 then (decode (BitVec.ofNat 32 (w % 2 ^ nbits))).toOption else none

end Sys2Proof
end

