-- ==== Sys2Proof/Machine/RefRom.lean ====
section
/-! DEFINITION. The ROM contents at REFCFG, written out from the spec's own tables: the Fibonacci terms of
41_fibonacci.md R150, the forward table of 42_codetable.md R189, its inverse with the INVALID entries of R188, and the
sentinels of R192. That `romOf refCfg` is this value is a theorem of Laws/Tables.lean. -/

namespace Sys2Proof.Machine

/-- 41_fibonacci.md R150 at `FIB_LEN = 32`. -/
def refFib : List Nat :=
  [0, 1, 1, 2, 3, 5, 8, 13, 21, 34, 55, 89, 144, 233, 377, 610] ++
  [987, 1597, 2584, 4181, 6765, 10946, 17711, 28657, 46368, 75025, 121393, 196418, 317811, 514229, 832040, 1346269]

/-- `FWD_PAT[b]` for b = 0x00 to 0xFF (42_codetable.md R189, column pattern), sixteen entries a line. -/
def refFwdPat : List (BitVec 32) :=
  [0x3, 0x54B, 0x42B, 0x22B, 0x12B, 0x52B, 0xAB, 0x4AB, 0x2AB, 0x843, 0x443, 0x243, 0xA43, 0x143, 0x943, 0x543] ++
  [0x423, 0x223, 0xA23, 0x123, 0x923, 0x523, 0x8A3, 0x4A3, 0x2A3, 0xAA3, 0x213, 0xA13, 0x113, 0x913, 0x513, 0x893] ++
  [0x3, 0x543, 0x443, 0xA3, 0x4A3, 0x2A3, 0x213, 0x2AB, 0x123, 0x523, 0x113, 0x513, 0xAB, 0x243, 0x12B, 0x93] ++
  [0x53, 0x253, 0x153, 0x10B, 0x8B, 0x28B, 0x4B, 0x24B, 0x14B, 0x22B, 0x423, 0x223, 0x493, 0x293, 0x453, 0x143] ++
  [0x253, 0x123, 0x123, 0x14B, 0x8B, 0x143, 0x43, 0x243, 0x153, 0x113, 0x213, 0x2A3, 0x4B, 0x12B, 0x93, 0xA3] ++
  [0x223, 0x93, 0x10B, 0x53, 0x23, 0x2B, 0xA3, 0xAB, 0x113, 0x143, 0x293, 0x153, 0x553, 0x10B, 0x50B, 0x8B] ++
  [0x48B, 0x13, 0x93, 0x53, 0x23, 0xB, 0x43, 0x23, 0x2B, 0x23, 0x4B, 0x8B, 0x13, 0x4B, 0x13, 0xB] ++
  [0x13, 0xAB, 0x43, 0xB, 0x3, 0xB, 0x53, 0x2B, 0x2B, 0xA3, 0x43, 0x28B, 0x44B, 0x24B, 0x14B, 0x493] ++
  [0x293, 0xA93, 0x853, 0x453, 0x253, 0xA53, 0x153, 0x953, 0x553, 0x10B, 0x90B, 0x50B, 0x88B, 0x48B, 0x28B, 0xA8B] ++
  [0x84B, 0x44B, 0x24B, 0xA4B, 0x14B, 0x94B, 0x54B, 0x42B, 0x22B, 0xA2B, 0x12B, 0x92B, 0x52B, 0x8AB, 0x4AB, 0x2AB] ++
  [0xAAB, 0x843, 0x443, 0x1443, 0x243, 0x1243, 0xA43, 0x1143, 0x943, 0x543, 0x1543, 0x423, 0x1423, 0x223, 0x1223, 0xA23] ++
  [0x1123, 0x923, 0x523, 0x1523, 0x10A3, 0x8A3, 0x4A3, 0x14A3, 0x2A3, 0x12A3, 0xAA3, 0x213, 0x1213, 0xA13, 0x1113, 0x913] ++
  [0x513, 0x1513, 0x1093, 0x893, 0x493, 0x1493, 0x293, 0x1293, 0xA93, 0x853, 0x453, 0x1453, 0x253, 0x1253, 0xA53, 0x1153] ++
  [0x953, 0x553, 0x1553, 0x110B, 0x90B, 0x50B, 0x150B, 0x108B, 0x88B, 0x48B, 0x148B, 0x28B, 0x128B, 0xA8B, 0x84B, 0x44B] ++
  [0x144B, 0x24B, 0x124B, 0xA4B, 0x114B, 0x94B, 0x54B, 0x154B, 0x42B, 0x142B, 0x22B, 0x122B, 0xA2B, 0x112B, 0x92B, 0x52B] ++
  [0x152B, 0x10AB, 0x8AB, 0x4AB, 0x14AB, 0x2AB, 0x12AB, 0xAAB, 0x843, 0x2843, 0x443, 0x2443, 0x1443, 0x2243, 0x1243, 0x3]

/-- `FWD_LEN[b]` for b = 0x00 to 0xFF (42_codetable.md R189, column length), sixteen entries a line. -/
def refFwdLen : List (BitVec 6) :=
  [2, 11, 11, 11, 11, 11, 11, 11, 11, 12, 12, 12, 12, 12, 12, 12] ++
  [12, 12, 12, 12, 12, 12, 12, 12, 12, 12, 12, 12, 12, 12, 12, 12] ++
  [4, 11, 11, 11, 11, 11, 11, 10, 11, 11, 11, 11, 10, 11, 10, 11] ++
  [10, 10, 10, 10, 10, 10, 10, 10, 10, 10, 11, 11, 11, 11, 11, 11] ++
  [11, 9, 10, 9, 9, 9, 10, 10, 9, 9, 10, 10, 9, 9, 9, 9] ++
  [10, 10, 9, 9, 9, 9, 10, 9, 10, 10, 10, 11, 11, 11, 11, 11] ++
  [11, 5, 8, 7, 7, 4, 8, 8, 6, 6, 8, 8, 7, 7, 6, 5] ++
  [8, 8, 7, 6, 5, 7, 8, 7, 8, 8, 9, 11, 11, 11, 11, 12] ++
  [12, 12, 12, 12, 12, 12, 12, 12, 12, 12, 12, 12, 12, 12, 12, 12] ++
  [12, 12, 12, 12, 12, 12, 12, 12, 12, 12, 12, 12, 12, 12, 12, 12] ++
  [12, 13, 13, 13, 13, 13, 13, 13, 13, 13, 13, 13, 13, 13, 13, 13] ++
  [13, 13, 13, 13, 13, 13, 13, 13, 13, 13, 13, 13, 13, 13, 13, 13] ++
  [13, 13, 13, 13, 13, 13, 13, 13, 13, 13, 13, 13, 13, 13, 13, 13] ++
  [13, 13, 13, 13, 13, 13, 13, 13, 13, 13, 13, 13, 13, 13, 13, 13] ++
  [13, 13, 13, 13, 13, 13, 13, 13, 13, 13, 13, 13, 13, 13, 13, 13] ++
  [13, 13, 13, 13, 13, 13, 13, 13, 14, 14, 14, 14, 14, 14, 14, 3]

/-- `BACK[c]` for c = 0 to 420 (42_codetable.md R188 and R189, column codepoint); `none` is INVALID. -/
def refBack : List (Option Byte) :=
  [some 0x00, some 0xFF, some 0x20, some 0x65, some 0x74, some 0x61, some 0x6F, none, some 0x69, some 0x6E, some 0x73, some 0x68, none, some 0x72, some 0x64, some 0x6C] ++
  [some 0x63, some 0x75, some 0x6D, some 0x77, none, none, some 0x66, some 0x67, some 0x79, some 0x70, some 0x62, some 0x76, none, some 0x6B, some 0x6A, some 0x78] ++
  [some 0x71, none, none, none, some 0x7A, some 0x45, some 0x54, some 0x41, some 0x4F, none, some 0x49, some 0x4E, some 0x53, some 0x48, none, some 0x52] ++
  [some 0x44, some 0x4C, some 0x43, some 0x55, some 0x4D, some 0x57, none, none, none, none, none, some 0x46, some 0x47, some 0x59, none, some 0x50] ++
  [some 0x42, some 0x56, some 0x4B, none, some 0x4A, some 0x58, some 0x51, some 0x5A, some 0x30, some 0x31, some 0x32, none, none, some 0x33, some 0x34, some 0x35] ++
  [some 0x36, some 0x37, some 0x38, none, some 0x39, some 0x2E, some 0x2C, some 0x27, none, none, none, none, none, none, none, none] ++
  [none, some 0x22, some 0x2D, some 0x3F, some 0x21, none, some 0x3A, some 0x3B, some 0x28, some 0x29, some 0x23, some 0x24, some 0x25, none, none, some 0x26] ++
  [some 0x2A, some 0x2B, some 0x2F, some 0x3C, some 0x3D, none, some 0x3E, some 0x40, some 0x5B, some 0x5C, none, none, none, some 0x5D, some 0x5E, some 0x5F] ++
  [some 0x60, some 0x7B, none, some 0x7C, some 0x7D, some 0x7E, some 0x01, none, some 0x02, some 0x03, some 0x04, some 0x05, some 0x06, some 0x07, some 0x08, none] ++
  [none, none, none, none, none, none, none, none, none, none, none, none, none, some 0x09, some 0x0A, some 0x0B] ++
  [some 0x0C, some 0x0D, some 0x0E, some 0x0F, none, none, some 0x10, some 0x11, some 0x12, some 0x13, some 0x14, some 0x15, none, some 0x16, some 0x17, some 0x18] ++
  [some 0x19, none, none, none, some 0x1A, some 0x1B, some 0x1C, some 0x1D, some 0x1E, none, some 0x1F, some 0x7F, some 0x80, some 0x81, none, some 0x82] ++
  [some 0x83, some 0x84, some 0x85, some 0x86, some 0x87, some 0x88, none, none, none, none, none, some 0x89, some 0x8A, some 0x8B, none, some 0x8C] ++
  [some 0x8D, some 0x8E, some 0x8F, none, some 0x90, some 0x91, some 0x92, some 0x93, some 0x94, some 0x95, some 0x96, none, none, some 0x97, some 0x98, some 0x99] ++
  [some 0x9A, some 0x9B, some 0x9C, none, some 0x9D, some 0x9E, some 0x9F, some 0xA0, none, none, none, none, none, none, none, none] ++
  [none, none, none, none, none, none, none, none, none, none, none, none, none, none, none, some 0xA1] ++
  [some 0xA2, some 0xA3, some 0xA4, some 0xA5, some 0xA6, none, some 0xA7, some 0xA8, some 0xA9, some 0xAA, none, none, none, some 0xAB, some 0xAC, some 0xAD] ++
  [some 0xAE, some 0xAF, none, some 0xB0, some 0xB1, some 0xB2, some 0xB3, none, some 0xB4, some 0xB5, some 0xB6, some 0xB7, some 0xB8, some 0xB9, some 0xBA, none] ++
  [none, none, none, none, some 0xBB, some 0xBC, some 0xBD, none, some 0xBE, some 0xBF, some 0xC0, some 0xC1, none, some 0xC2, some 0xC3, some 0xC4] ++
  [some 0xC5, some 0xC6, some 0xC7, some 0xC8, none, none, some 0xC9, some 0xCA, some 0xCB, some 0xCC, some 0xCD, some 0xCE, none, some 0xCF, some 0xD0, some 0xD1] ++
  [some 0xD2, none, none, none, none, none, none, none, none, none, some 0xD3, some 0xD4, some 0xD5, some 0xD6, none, some 0xD7] ++
  [some 0xD8, some 0xD9, some 0xDA, some 0xDB, some 0xDC, some 0xDD, none, none, some 0xDE, some 0xDF, some 0xE0, some 0xE1, some 0xE2, some 0xE3, none, some 0xE4] ++
  [some 0xE5, some 0xE6, some 0xE7, none, none, none, some 0xE8, some 0xE9, some 0xEA, some 0xEB, some 0xEC, none, some 0xED, some 0xEE, some 0xEF, some 0xF0] ++
  [none, some 0xF1, some 0xF2, some 0xF3, some 0xF4, some 0xF5, some 0xF6, some 0xF7, none, none, none, none, none, none, none, none] ++
  [none, none, none, none, none, none, none, none, none, none, none, none, none, none, none, none] ++
  [none, none, none, none, none, none, none, none, none, none, none, none, none, some 0xF8, some 0xF9, some 0xFA] ++
  [some 0xFB, some 0xFC, none, some 0xFD, some 0xFE]

/-- The ROMs at REFCFG. -/
def refRom : Rom where
  fib := refFib
  fwdPat := refFwdPat
  fwdLen := refFwdLen
  back := refBack
  head := ⟨0xA43, 15⟩
  foot := ⟨0x2A43, 15⟩

end Sys2Proof.Machine
end

