-- ==== Sys2Proof/Machine/State.lean ====
section
/-! DEFINITION. The state of one FIBCORE instance (10_state.md R20 to R47), the reasons a step can stop, and the state
after reset (70_reset_and_hazards.md R290). -/

namespace Sys2Proof.Machine

/-- The completion codes of STATUS.CODE (60_exceptions.md R260); the codes 7 to 15 are never written. -/
inductive Code where
  | ok
  | illegal
  | exhausted
  | overrun
  | range
  | align
  | invalid
deriving DecidableEq, Repr

/-- The END_REASON of a MessageResult (43_framing.md R233); `unset` is the spec's NONE: no FRM_DECODE has completed. -/
inductive EndReason where
  | unset
  | footer
  | runon
  | pad
  | exhausted
  | overrun
  | noheader
  | deadline
deriving DecidableEq, Repr

/-- The states of the frame decoder (43_framing.md R227). -/
inductive FState where
  | leadIn
  | inMessage
  | footer
  | error
  | done
deriving DecidableEq, Repr

/-- The frame decoder's internal registers (10_state.md R42): FSTATE, WIN (a number below `2^WINDOW_BITS`), LEADN and
EMITTED (32 bits each); and the locals of FRM_DECODE that its phases share (43_framing.md R220). -/
structure FrameRegs where
  fstate : FState
  win : Nat
  leadn : Word
  emitted : Word
  sawHeader : Bool
  sawFooter : Bool
  runOn : Bool
  clean : Bool
  reason : EndReason
  startBits : Word
deriving DecidableEq, Repr

/-- The fields of MSG_RESULT (10_state.md R38); its reserved bits read 0 and are not held. -/
structure MsgResult where
  sawHeader : Bool
  sawFooter : Bool
  cleanData : Bool
  runOn : Bool
  isValid : Bool
  reason : EndReason
deriving DecidableEq, Repr

/-- The width of a host access. Only `word` is supported (20_memory.md R64). -/
inductive Width where
  | byte
  | half
  | word
deriving DecidableEq, Repr

/-- A load or a store that the host makes while a command runs (70_reset_and_hazards.md R300). -/
inductive Access where
  | load (w : Width) (addr : Nat)
  | store (w : Width) (addr : Nat) (value : Word)
deriving DecidableEq, Repr

/-- One action of the host on the block (20_memory.md R60, 30_encoding.md R98, 70_reset_and_hazards.md R310): a load, a
store, the reset input, or a store during whose command the host goes on: it makes the accesses `during` while BUSY = 1
(R300), and with `abandoned = some n` the reset input then ends the command, which has appended at most `n` bytes by then
(R291; log entry 15). Addresses are platform addresses; the window starts at REG_BASE. -/
inductive HostAction where
  | load (w : Width) (addr : Nat)
  | store (w : Width) (addr : Nat) (value : Word)
  | reset
  | overlapped (w : Width) (addr : Nat) (value : Word) (during : List Access) (abandoned : Option Nat)
deriving DecidableEq, Repr

/-- The state of one instance. -/
structure State where
  /-- 10_state.md R25. -/
  arg0 : Word
  /-- 10_state.md R26. -/
  arg1 : Word
  /-- 10_state.md R27. -/
  res0 : Word
  /-- 10_state.md R28. -/
  res1 : Word
  /-- STATUS.BUSY, 10_state.md R29. -/
  busy : Bool
  /-- STATUS.CODE, 10_state.md R29. -/
  code : Code
  /-- RUNOUT_CFG.RUNOUT, 10_state.md R30. -/
  runoutCfg : BitVec 16
  /-- RUNOUT_LEFT.LEFT, 10_state.md R31. -/
  runoutLeft : BitVec 16
  /-- LEADIN_LIMIT.LIMIT, 10_state.md R32. -/
  leadinLimit : BitVec 16
  /-- 10_state.md R33. -/
  bitsRead : Word
  /-- 10_state.md R34. -/
  inPos : Word
  /-- RD_STATE.RD_BYTE, 10_state.md R35. -/
  rdByte : Byte
  /-- RD_STATE.RD_MASK, 10_state.md R35. -/
  rdMask : Byte
  /-- WR_STATE.WR_BYTE, 10_state.md R36. -/
  wrByte : Byte
  /-- WR_STATE.WR_CNT, 10_state.md R36. -/
  wrCnt : BitVec 3
  /-- 10_state.md R37. -/
  outCount : Word
  /-- MSG_RESULT, 10_state.md R38. -/
  msg : MsgResult
  /-- 10_state.md R39. -/
  msgBits : Word
  /-- The internal registers of 10_state.md R42; `none`: they hold no value (no FRM_DECODE is running). -/
  frame : Option FrameRegs
  /-- The configuration of the launch (00_scope.md R8): a parameter that nothing writes (log entry 1). -/
  cfg : Config
  /-- The read-only memories, 10_state.md R43. -/
  rom : Rom
  /-- IN, 10_state.md R44; IN_LEN is its length. -/
  inp : List Byte
  /-- OUT: the bytes appended since the last reset, in append order, 10_state.md R44. -/
  out : List Byte
  /-- The bytes appended to OUT before the last reset, which stay with the host (70_reset_and_hazards.md R291; log entry 12). -/
  outPrior : List Byte
  /-- The host's actions not yet performed, oldest first (log entry 4). -/
  host : List HostAction
  /-- The values the host's loads returned, oldest first (log entry 8). -/
  hostReads : List Word
  /-- How many free values have been drawn (log entry 7). -/
  freeIx : Nat
deriving DecidableEq, Repr

/-- Why a step can stop with a fault. The spec's block has no trap (60_exceptions.md R266). -/
inductive Fault where
  /-- Raised by a host access at a platform address outside the 256-byte register window (20_memory.md R60): no rule
  gives FIBCORE such an access. Safe: the run stops (log entry 11). -/
  | outsideWindow
  /-- Raised by FRM_DECODE where the bound of 70_reset_and_hazards.md R307 on its loops ran out. No state of a launch
  reaches it, since IN_LEN is below 2^32. Safe: the run stops (log entry 13). -/
  | loopBound
deriving DecidableEq, Repr

/-- Why the model refuses. -/
inductive Refusal where
  /-- An instruction with no meaning yet, by its mnemonic. Raised by `exec`'s refused arms only; none is left. Safe. -/
  | notModelled (mnemonic : String)
  /-- A sub-word or misaligned host access, which a model refuses (20_memory.md R64, I1). Raised by a host action. Safe. -/
  | unsupportedAccess
  /-- A configuration that fails one of W1 to W8, which a model refuses (00_scope.md R9). Raised by `launch`. Safe. -/
  | illFormedConfiguration
  /-- An input longer than 2^32 - 1 bytes (00_scope.md R8). Raised by `launch`. Safe. -/
  | inputTooLong
deriving DecidableEq, Repr

/-- MSG_RESULT after reset: all false, END_REASON NONE (10_state.md R38). -/
def MsgResult.reset : MsgResult where
  sawHeader := false
  sawFooter := false
  cleanData := false
  runOn := false
  isValid := false
  reason := .unset

/-- The machine right after reset (10_state.md R47, 70_reset_and_hazards.md R290) at REFCFG, with an empty IN and no
host action queued: the program and the input come from outside (log entry 4). -/
def State.reset : State where
  arg0 := 0
  arg1 := 0
  res0 := 0
  res1 := 0
  busy := false
  code := .ok
  runoutCfg := refCfg.runoutReset
  runoutLeft := refCfg.runoutReset
  leadinLimit := refCfg.leadinReset
  bitsRead := 0
  inPos := 0
  rdByte := 0
  rdMask := 0
  wrByte := 0
  wrCnt := 0
  outCount := 0
  msg := MsgResult.reset
  msgBits := 0
  frame := none
  cfg := refCfg
  rom := refRom
  inp := []
  out := []
  outPrior := []
  host := []
  hostReads := []
  freeIx := 0

end Sys2Proof.Machine
end

