-- ==== Sys2Proof/Machine/Flags.lean ====
section
/-! DEFINITION. The flag-like state of FIBCORE (10_state.md R45): the numbers of the completion codes and of the end
reasons, IS_VALID, and the register words STATUS, RD_STATE, WR_STATE and MSG_RESULT composed of their fields. -/

namespace Sys2Proof.Machine

/-- The number of a completion code (60_exceptions.md R260). -/
def codeNumber : Code → Nat
  | .ok => 0
  | .illegal => 1
  | .exhausted => 2
  | .overrun => 3
  | .range => 4
  | .align => 5
  | .invalid => 6

/-- The number of an end reason (43_framing.md R233). -/
def reasonNumber : EndReason → Nat
  | .unset => 0
  | .footer => 1
  | .runon => 2
  | .pad => 3
  | .exhausted => 4
  | .overrun => 5
  | .noheader => 6
  | .deadline => 7

/-- IS_VALID of a message of `n` bits (43_framing.md R232). RUN_ON does not enter it. -/
def isValidMessage (c : Config) (n : Word) (sawHeader sawFooter clean : Bool) : Bool :=
  decide (c.minValidBits ≤ n.toNat) && sawHeader && sawFooter && clean

/-- STATUS: `[0] BUSY`, `[7:4] CODE`, the rest 0 (10_state.md R29). -/
def statusWord (s : State) : Word :=
  BitVec.ofNat 32 (s.busy.toNat + 16 * codeNumber s.code)

/-- RD_STATE: `[7:0] RD_BYTE`, `[15:8] RD_MASK` (10_state.md R35). -/
def readerWord (s : State) : Word :=
  BitVec.ofNat 32 (s.rdByte.toNat + 256 * s.rdMask.toNat)

/-- WR_STATE: `[7:0] WR_BYTE`, `[10:8] WR_CNT` (10_state.md R36). -/
def writerWord (s : State) : Word :=
  BitVec.ofNat 32 (s.wrByte.toNat + 256 * s.wrCnt.toNat)

/-- MSG_RESULT: `[0]` to `[4]` the flags, `[10:8] END_REASON` (10_state.md R38). -/
def messageWord (m : MsgResult) : Word :=
  BitVec.ofNat 32 (m.sawHeader.toNat + 2 * m.sawFooter.toNat + 4 * m.cleanData.toNat + 8 * m.runOn.toNat +
    16 * m.isValid.toNat + 256 * reasonNumber m.reason)

end Sys2Proof.Machine
end

