-- ==== Sys2Proof/Machine/Operands.lean ====
section
/-! DEFINITION. Operand assembly (30_encoding.md R93): each field is taken unsigned from ARG0 or ARG1, whole or by the
named bits; the other bits are ignored. -/

namespace Sys2Proof.Machine

/-- WRITE_BIT: `ARG0[0]`. -/
def bitOperand (s : State) : Bool :=
  s.arg0.getLsbD 0

/-- WRITE_PATTERN: `ARG0[31:0]`. -/
def patternOperand (s : State) : Nat :=
  s.arg0.toNat

/-- WRITE_PATTERN: `ARG1[31:0]`. -/
def lengthOperand (s : State) : Nat :=
  s.arg1.toNat

/-- FIB_ENCODE: `ARG0[31:0]`. -/
def valueOperand (s : State) : Nat :=
  s.arg0.toNat

/-- TBL_FORWARD: `ARG0[7:0]`. -/
def byteOperand (s : State) : Byte :=
  s.arg0.extractLsb' 0 8

/-- TBL_BACKWARD: `ARG0[31:0]`. -/
def codepointOperand (s : State) : Nat :=
  s.arg0.toNat

end Sys2Proof.Machine
end

