-- ==== Sys2Proof/Machine/Ops.lean ====
section
/-! DEFINITION. The operations the commands share: `finish` and the result registers (00_scope.md R13), the bit writer
(40_bitchannel.md R120, R121, R125), the bit reader (R122 to R124), `DecodeSym` (41_fibonacci.md R155), and reset
(70_reset_and_hazards.md R290). FIBCORE takes no exception: `finish` with a completion code stands in its place
(60_exceptions.md R266). -/

namespace Sys2Proof.Machine

/-! ## Completion and results -/

/-- `finish(code)`: `STATUS.CODE <- code`, `STATUS.BUSY <- 0`, and no further change (00_scope.md R13). -/
def finish (c : Code) (s : State) : State :=
  { s with code := c, busy := false }

/-- `RES0 <- v`. -/
def setRes0 (v : Word) (s : State) : State :=
  { s with res0 := v }

/-- `RES0 <- v; RES1 <- w`. -/
def setResults (v w : Word) (s : State) : State :=
  { s with res0 := v, res1 := w }

/-! ## The bit writer -/

/-- `OutAppend(b)` (20_memory.md R63). -/
def outAppend (b : Byte) (s : State) : State :=
  { s with out := s.out ++ [b], outCount := s.outCount + 1 }

/-- `WR_BYTE <- b; WR_CNT <- n`. -/
def setWriter (b : Byte) (n : BitVec 3) (s : State) : State :=
  { s with wrByte := b, wrCnt := n }

/-- The pending byte with the next bit put at bit `7 - WR_CNT`, the first bit of a byte at bit 7 (20_memory.md R66). -/
def pendingWith (b : Bool) (s : State) : Byte :=
  s.wrByte ||| (BitVec.ofNat 8 b.toNat <<< (7 - s.wrCnt.toNat))

/-- `PutBit(b)` (40_bitchannel.md R120). -/
def putBit (b : Bool) (s : State) : State :=
  if s.wrCnt.toNat + 1 = 8 then setWriter 0 0 (outAppend (pendingWith b s) s)
  else setWriter (pendingWith b s) (BitVec.ofNat 3 (s.wrCnt.toNat + 1)) s

/-- `PutBit` of each bit of a string in transmission order. -/
def putString : BitString → State → State
  | [], s => s
  | b :: rest, s => putString rest (putBit b s)

/-- `PutBits(p, l)`: the low `l` bits of `p`, the most significant first (40_bitchannel.md R125). -/
def putBits (p l : Nat) (s : State) : State :=
  putString (bits p l) s

/-- The number of zero bits `FlushOut()` adds (40_bitchannel.md R121). -/
def padBits (s : State) : Nat :=
  if s.wrCnt = 0 then 0 else 8 - s.wrCnt.toNat

/-- `FlushOut()`: a partial pending byte is appended, its low bits already 0; an empty one is not (40_bitchannel.md R121). -/
def flushOut (s : State) : State :=
  if s.wrCnt = 0 then s else setWriter 0 0 (outAppend s.wrByte s)

/-! ## The bit reader -/

/-- `InByte(IN_POS)`; `none` where IN is exhausted (20_memory.md R62). -/
def inByte (s : State) : Option Byte :=
  s.inp[s.inPos.toNat]?

/-- `RD_BYTE <- InByte(IN_POS); IN_POS <- IN_POS + 1; RD_MASK <- 0x80` (40_bitchannel.md R122). -/
def cacheByte (b : Byte) (s : State) : State :=
  { s with rdByte := b, inPos := s.inPos + 1, rdMask := 0x80 }

/-- The bit under RD_MASK. -/
def cachedBit (s : State) : Bool :=
  (s.rdByte &&& s.rdMask) != 0

/-- `RD_MASK <- RD_MASK >> 1`. -/
def shiftMask (s : State) : State :=
  { s with rdMask := s.rdMask >>> 1 }

/-- A byte is fetched where no cached bit remains; `none` where IN is exhausted as well (40_bitchannel.md R122). -/
def fetchByte (s : State) : Option State :=
  if s.rdMask = 0 then (inByte s).map (fun b => cacheByte b s) else some s

/-- `RealBit()` (40_bitchannel.md R122): the next bit of the real input and the state after it; `none` is the spec's NONE,
with no state changed. -/
def realBit (s : State) : Option (Bool × State) :=
  (fetchByte s).map (fun t => (cachedBit t, shiftMask t))

/-- `BITS_READ <- BITS_READ + 1`, modulo 2^32 (10_state.md R33). -/
def countBit (s : State) : State :=
  { s with bitsRead := s.bitsRead + 1 }

/-- `RUNOUT_LEFT <- RUNOUT_LEFT - 1`. -/
def useRunout (s : State) : State :=
  { s with runoutLeft := s.runoutLeft - 1 }

/-- How a symbol's bits are read (41_fibonacci.md R155): with run-out, or strictly. -/
inductive ReadMode where
  | runout
  | strict
deriving DecidableEq, Repr

/-- `GetBitTry()` (40_bitchannel.md R124). -/
def getBitTry (s : State) : Option (Bool × State) :=
  (realBit s).map (fun r => (r.1, countBit r.2))

/-- `GetBitRO()` (40_bitchannel.md R123). -/
def getBitRO (s : State) : Option (Bool × State) :=
  match getBitTry s with
  | some r => some r
  | none => if s.runoutLeft = 0 then none else some (false, countBit (useRunout s))

/-- The bit read of a mode. -/
def getBit : ReadMode → State → Option (Bool × State)
  | .runout, s => getBitRO s
  | .strict, s => getBitTry s

/-- The result `(value, k, code)` of `DecodeSym` and the state it leaves; a missing value is the spec's `-1`. -/
structure Symbol where
  value : Option Nat
  bitsUsed : Nat
  code : Code
  after : State
deriving DecidableEq, Repr

/-- The loop of `DecodeSym` (41_fibonacci.md R155) at position `p`: `terms` is `Fib[p+2..FIB_LEN-1]`, so no term is left
exactly where `p + 2 > FIB_LEN - 1`. -/
def decodeTerms (m : ReadMode) : List Nat → Nat → Bool → Nat → State → Symbol
  | [], acc, prev, k, s =>
    match getBit m s with
    | none => ⟨none, k, .exhausted, s⟩
    | some r => if r.1 && prev then ⟨some (acc - 1), k + 1, .ok, r.2⟩ else ⟨none, k + 1, .overrun, r.2⟩
  | f :: terms, acc, prev, k, s =>
    match getBit m s with
    | none => ⟨none, k, .exhausted, s⟩
    | some r =>
      if r.1 && prev then ⟨some (acc - 1), k + 1, .ok, r.2⟩
      else decodeTerms m terms (acc + r.1.toNat * f) r.1 (k + 1) r.2

/-- `DecodeSym(mode)` (41_fibonacci.md R155). -/
def decodeSym (m : ReadMode) (s : State) : Symbol :=
  decodeTerms m (s.rom.fib.drop 2) 0 false 0 s

/-- The reader's part of REWIND (40_bitchannel.md R132). -/
def rewindReader (s : State) : State :=
  { s with inPos := 0, rdByte := 0, rdMask := 0, bitsRead := 0, runoutLeft := s.runoutCfg }

/-- The bits that `GetBitTry` can still deliver: those of the bytes not fetched and those still cached; the bound `8·(IN_LEN
- IN_POS) + q` of 70_reset_and_hazards.md R307. -/
def bitsLeft (s : State) : Nat :=
  8 * (s.inp.length - s.inPos.toNat) + (if s.rdMask = 0 then 0 else Nat.log2 s.rdMask.toNat + 1)

/-! ## Loops -/

/-- At most `n` runs of a loop body that answers whether it goes on; `none` where the bound ran out first, which is an
error of the model (70_reset_and_hazards.md R307). -/
def loopUntil (body : State → Bool × State) : Nat → State → Option State
  | 0, _ => none
  | n + 1, s =>
    match body s with
    | (true, t) => loopUntil body n t
    | (false, t) => some t

/-! ## Reset -/

/-- Reset (70_reset_and_hazards.md R290, R291): every register takes its reset value, the ROMs and IN stay, and the bytes
already appended to OUT stay with the host (log entry 12). -/
def hostReset (s : State) : State where
  arg0 := 0
  arg1 := 0
  res0 := 0
  res1 := 0
  busy := false
  code := .ok
  runoutCfg := s.cfg.runoutReset
  runoutLeft := s.cfg.runoutReset
  leadinLimit := s.cfg.leadinReset
  bitsRead := 0
  inPos := 0
  rdByte := 0
  rdMask := 0
  wrByte := 0
  wrCnt := 0
  outCount := 0
  msg := MsgResult.reset
  msgBits := 0
  frame := none
  cfg := s.cfg
  rom := s.rom
  inp := s.inp
  out := []
  outPrior := s.outPrior ++ s.out
  host := s.host
  hostReads := s.hostReads
  freeIx := s.freeIx

/-- Reset while a command runs (70_reset_and_hazards.md R291): of a command that would take `s` to `t`, the first `n` bytes it
appends stay in OUT; pending bits are lost, its results are never written, and every register takes its reset value. -/
def abandonCommand (n : Nat) (s t : State) : State :=
  hostReset { s with out := t.out.take (s.out.length + n) }

end Sys2Proof.Machine
end

