-- ==== Sys2Proof/Machine/BitChannel.lean ====
section
/-! DEFINITION. The BitChannel commands (40_bitchannel.md section 2). -/

namespace Sys2Proof.Machine

/-- NOP (40_bitchannel.md R126). -/
def execNop (s : State) : Host.Outcome State Fault Refusal :=
  .next (finish .ok s)

/-- WRITE_BIT (40_bitchannel.md R127). -/
def execWriteBit (s : State) : Host.Outcome State Fault Refusal :=
  .next (finish .ok (putBit (bitOperand s) s))

/-- WRITE_PATTERN (40_bitchannel.md R128): a length above 32 is illegal and nothing is written (30_encoding.md R95). -/
def execWritePattern (s : State) : Host.Outcome State Fault Refusal :=
  if 32 < lengthOperand s then .next (finish .illegal s)
  else .next (finish .ok (putBits (patternOperand s) (lengthOperand s) s))

/-- FLUSH (40_bitchannel.md R129). -/
def execFlush (s : State) : Host.Outcome State Fault Refusal :=
  .next (finish .ok (setRes0 (BitVec.ofNat 32 (padBits s)) (flushOut s)))

/-- What READ_BIT and TRY_READ_BIT make of the bit read: `RES0` and the code, `-1` and EXHAUSTED where there is none. -/
def finishRead (s : State) : Option (Bool × State) → State
  | none => finish .exhausted (setRes0 noValue s)
  | some r => finish .ok (setRes0 (bitWord r.1) r.2)

/-- READ_BIT (40_bitchannel.md R130). -/
def execReadBit (s : State) : Host.Outcome State Fault Refusal :=
  .next (finishRead s (getBitRO s))

/-- TRY_READ_BIT (40_bitchannel.md R131). -/
def execTryReadBit (s : State) : Host.Outcome State Fault Refusal :=
  .next (finishRead s (getBitTry s))

/-- REWIND (40_bitchannel.md R132): the reader only; the writer, OUT and the message registers are kept. -/
def execRewind (s : State) : Host.Outcome State Fault Refusal :=
  .next (finish .ok (rewindReader s))

end Sys2Proof.Machine
end

