-- ==== Sys2Proof/Machine/CodeTable.lean ====
section
/-! DEFINITION. The CodeTable commands (42_codetable.md section 4). -/

namespace Sys2Proof.Machine

/-- TBL_FORWARD (42_codetable.md R190). -/
def execTblForward (s : State) : Host.Outcome State Fault Refusal :=
  .next (finish .ok (setResults (BitVec.ofNat 32 (forwardWord s.rom (byteOperand s)).pattern)
    (BitVec.ofNat 32 (forwardWord s.rom (byteOperand s)).length) s))

/-- TBL_BACKWARD (42_codetable.md R191). -/
def execTblBackward (s : State) : Host.Outcome State Fault Refusal :=
  match backwardByte s.rom (codepointOperand s) with
  | some b => .next (finish .ok (setRes0 (b.zeroExtend 32) s))
  | none => .next (finish .invalid (setRes0 noValue s))

end Sys2Proof.Machine
end

