-- ==== Sys2Proof/Machine/Fibonacci.lean ====
section
/-! DEFINITION. The FibonacciCode commands (41_fibonacci.md section 2). -/

namespace Sys2Proof.Machine

/-- What FIB_ENCODE does with the code of its operand (41_fibonacci.md R160). RES0 takes the low 32 bits of the pattern:
a code is longer than 32 bits only where FIB_LEN is above 34 (log entry 9, DEDUCED, unsafe there). -/
def finishEncode (s : State) : Option BitString → State
  | none => finish .range (setResults noValue 0 s)
  | some str =>
    finish .ok (setResults (BitVec.ofNat 32 (codewordOf str).pattern) (BitVec.ofNat 32 (codewordOf str).length)
      (putBits (codewordOf str).pattern (codewordOf str).length s))

/-- FIB_ENCODE (41_fibonacci.md R160). -/
def execFibEncode (s : State) : Host.Outcome State Fault Refusal :=
  .next (finishEncode s (fibCode s.rom.fib (valueOperand s)))

/-- `RES0 <- val; RES1 <- k; finish(c)` of a symbol read (41_fibonacci.md R161, R162). -/
def finishSymbol (y : Symbol) : State :=
  finish y.code (setResults (valueWord y.value) (BitVec.ofNat 32 y.bitsUsed) y.after)

/-- FIB_DECODE (41_fibonacci.md R161), reading with run-out. -/
def execFibDecode (s : State) : Host.Outcome State Fault Refusal :=
  .next (finishSymbol (decodeSym .runout s))

/-- FIB_TRY_DECODE (41_fibonacci.md R162), reading strictly. -/
def execFibTryDecode (s : State) : Host.Outcome State Fault Refusal :=
  .next (finishSymbol (decodeSym .strict s))

end Sys2Proof.Machine
end

