-- ==== Sys2Proof/Machine/FrameCodec.lean ====
section
/-! DEFINITION. The FrameCodec commands (43_framing.md): the frame encoder (R212) and the frame decoder with its phases
LeadIn (R221 to R223), InMessage (R224 to R226) and Terminal (R231). -/

namespace Sys2Proof.Machine

/-! ## Frame encoder -/

/-- A codeword and its pad bit 0 (43_framing.md R210). -/
def putPadded (w : Codeword) (s : State) : State :=
  putBit false (putBits w.pattern w.length s)

/-- `IN_POS <- IN_POS + 1`: a payload byte taken whole, not through the bit reader (43_framing.md R212). -/
def takeByte (s : State) : State :=
  { s with inPos := s.inPos + 1 }

/-- The payload loop of FRM_ENCODE over the bytes left of IN. -/
def putPayload : List Byte → State → State
  | [], s => s
  | b :: rest, s => putPayload rest (putPadded (forwardWord s.rom b) (takeByte s))

/-- The payload of FRM_ENCODE: `IN[IN_POS .. IN_LEN-1]`. -/
def payload (s : State) : List Byte :=
  s.inp.drop s.inPos.toNat

/-- The frame bits of a payload, exact (43_framing.md R211). -/
def frameBits (r : Rom) (p : List Byte) : Nat :=
  (r.head.length + 1) + (p.map (fun b => (forwardWord r b).length + 1)).sum + (r.foot.length + 1)

/-- The frame written: header, payload and footer, each codeword with its pad bit, then `FlushOut()`. -/
def putFrame (s : State) : State :=
  flushOut (putPadded s.rom.foot (putPayload (payload s) (putPadded s.rom.head s)))

/-- FRM_ENCODE (43_framing.md R212): ALIGN where the reader holds cached bits, with nothing else changed. -/
def execFrmEncode (s : State) : Host.Outcome State Fault Refusal :=
  if s.rdMask ≠ 0 then .next (finish .align s)
  else .next (finish .ok (setResults (BitVec.ofNat 32 (frameBits s.rom (payload s)))
    (BitVec.ofNat 32 (payload s).length) (putFrame s)))

/-! ## Frame decoder: internal registers -/

/-- The internal registers and locals at the start of FRM_DECODE (43_framing.md R220), BITS_READ being `b0`. -/
def startRegs (b0 : Word) : FrameRegs where
  fstate := .leadIn
  win := 0
  leadn := 0
  emitted := 0
  sawHeader := false
  sawFooter := false
  runOn := false
  clean := true
  reason := .unset
  startBits := b0

/-- The internal registers of the running FRM_DECODE. -/
def frameRegs (s : State) : FrameRegs :=
  s.frame.getD (startRegs 0)

/-- A change of the internal registers. -/
def setFrame (f : FrameRegs) (s : State) : State :=
  { s with frame := some f }

/-- `reason := r; FSTATE := Error`. -/
def failFrame (r : EndReason) (s : State) : State :=
  setFrame { frameRegs s with reason := r, fstate := .error } s

/-! ## LeadIn -/

/-- `LEADN := LEADN + 1; WIN := ((WIN << 1) | b) & (2^WINDOW_BITS - 1)` (43_framing.md R221). -/
def shiftWindow (b : Bool) (s : State) : State :=
  setFrame { frameRegs s with
    leadn := (frameRegs s).leadn + 1
    win := (2 * (frameRegs s).win + b.toNat) % 2 ^ s.cfg.windowBits } s

/-- The window's low `HEAD_LEN + 1` bits are the header codeword and its pad 0 (43_framing.md R221). The window starts at 0, so at
the start of a scan a header without its leading zeros matches too (R222 (b); log entry 22), and so does the payload of a frame
that is cut just before the codeword of 0x0C or 0xA6 at REFCFG, which R222 (c) denies (log entry 24, DEDUCED). -/
def windowMatches (s : State) : Bool :=
  (frameRegs s).win % 2 ^ (s.rom.head.length + 1) == 2 * s.rom.head.pattern

/-- The lead-in bit budget is used up (43_framing.md R223); 0 is no budget. -/
def budgetSpent (s : State) : Bool :=
  s.leadinLimit != 0 && decide (s.leadinLimit.toNat ≤ (frameRegs s).leadn.toNat)

/-- One round of the LeadIn loop (43_framing.md R221); the Bool says whether the loop goes on. -/
def leadInRound (s : State) : Bool × State :=
  match getBitTry s with
  | none => (false, failFrame .noheader s)
  | some r =>
    let t := shiftWindow r.1 r.2
    if windowMatches t then (false, setFrame { frameRegs t with sawHeader := true, fstate := .inMessage } t)
    else if budgetSpent t then (false, failFrame .deadline t)
    else (true, t)

/-! ## InMessage -/

/-- `Classify(c)` (43_framing.md R225); the Bool is its result: whether the message stops here. -/
def classify (c : Nat) (s : State) : Bool × State :=
  if c = s.cfg.frameHead then
    if (frameRegs s).emitted ≠ 0 then
      (true, setFrame { frameRegs s with runOn := true, reason := .runon, fstate := .error } s)
    else (false, s)
  else if c = s.cfg.frameFoot then
    (true, setFrame { frameRegs s with sawFooter := true, reason := .footer, fstate := .footer } s)
  else match backwardByte s.rom c with
    | some b => (false, setFrame { frameRegs s with emitted := (frameRegs s).emitted + 1 } (outAppend b s))
    | none => (false, setFrame { frameRegs s with clean := false } s)

/-- The pad bit after a codeword, `none` where IN ends (43_framing.md R224). -/
def readPad (s : State) : Option Bool × State :=
  match getBitTry s with
  | none => (none, s)
  | some r => (some r.1, r.2)

/-- The end reason of a symbol that failed to decode (43_framing.md R224). -/
def symbolReason : Code → EndReason
  | .overrun => .overrun
  | _ => .exhausted

/-- A pad bit that is not 0 (43_framing.md R226): damage, which ends a message that has not ended already. -/
def padDamage (pad : Option Bool) (stopped : Bool) (s : State) : State :=
  let t := setFrame { frameRegs s with clean := false } s
  if stopped then t else failFrame (if pad = some true then .pad else .exhausted) t

/-- The part of an InMessage round after the symbol `c`: its pad bit is read, then it is classified (43_framing.md R224). -/
def paddedSymbol (c : Nat) (s : State) : Bool × State :=
  let p := readPad s
  let k := classify c p.2
  if p.1 = some false then (! k.1, k.2) else (false, padDamage p.1 k.1 k.2)

/-- One round of the InMessage loop (43_framing.md R224); the Bool says whether the loop goes on. -/
def messageRound (s : State) : Bool × State :=
  let y := decodeSym .strict s
  match y.value with
  | none => (false, failFrame (symbolReason y.code) y.after)
  | some c => paddedSymbol c y.after

/-! ## The command -/

/-- The Terminal phase (43_framing.md R231): FSTATE becomes Done, and the MessageResult and the results are written at once. -/
def terminal (s : State) : State :=
  let f := frameRegs s
  let n := s.bitsRead - f.startBits
  { s with
    msgBits := n
    msg := {
      sawHeader := f.sawHeader
      sawFooter := f.sawFooter
      cleanData := f.clean
      runOn := f.runOn
      isValid := isValidMessage s.cfg n f.sawHeader f.sawFooter f.clean
      reason := f.reason }
    res0 := f.emitted
    res1 := n
    frame := some { f with fstate := .done } }

/-- Done lasts until `finish` (43_framing.md R227): after it the internal registers hold no value (10_state.md R42). -/
def releaseFrame (s : State) : State :=
  { s with frame := none }

/-- The LeadIn phase; `none` only where the loop bound ran out. -/
def leadInPhase (s : State) : Option State :=
  loopUntil leadInRound (bitsLeft s + 1) s

/-- The InMessage phase, entered where the lead-in found a header (43_framing.md R220). -/
def messagePhase (s : State) : Option State :=
  if (frameRegs s).fstate = .inMessage then loopUntil messageRound (bitsLeft s + 1) s else some s

/-- The phases of a frame decode before Terminal. -/
def decodePhases (s : State) : Option State :=
  (leadInPhase (setFrame (startRegs s.bitsRead) s)).bind messagePhase

/-- FRM_DECODE (43_framing.md R220): ALIGN where bits are pending in the writer, with nothing else changed; otherwise OK. -/
def execFrmDecode (s : State) : Host.Outcome State Fault Refusal :=
  if s.wrCnt ≠ 0 then .next (finish .align s)
  else match decodePhases s with
    | some t => .next (finish .ok (releaseFrame (terminal t)))
    | none => .fault .loopBound

end Sys2Proof.Machine
end

