-- ==== Sys2Proof/Machine/Dispatch.lean ====
section
/-! DEFINITION. One arm per command: the meaning its rule gives it (30_encoding.md R92). -/

namespace Sys2Proof.Machine

def exec (i : Instr) (s : State) : Host.Outcome State Fault Refusal :=
  match i with
  | .nop => Sys2Proof.Machine.execNop s
  | .writeBit => Sys2Proof.Machine.execWriteBit s
  | .writePattern => Sys2Proof.Machine.execWritePattern s
  | .flush => Sys2Proof.Machine.execFlush s
  | .readBit => Sys2Proof.Machine.execReadBit s
  | .tryReadBit => Sys2Proof.Machine.execTryReadBit s
  | .rewind => Sys2Proof.Machine.execRewind s
  | .fibEncode => Sys2Proof.Machine.execFibEncode s
  | .fibDecode => Sys2Proof.Machine.execFibDecode s
  | .fibTryDecode => Sys2Proof.Machine.execFibTryDecode s
  | .tblForward => Sys2Proof.Machine.execTblForward s
  | .tblBackward => Sys2Proof.Machine.execTblBackward s
  | .frmEncode => Sys2Proof.Machine.execFrmEncode s
  | .frmDecode => Sys2Proof.Machine.execFrmDecode s

end Sys2Proof.Machine
end

