-- ==== Sys2Proof/Machine/Window.lean ====
section
/-! DEFINITION. The host register window (10_state.md section 2; 20_memory.md R60, R64, R71): which register an offset
names, what a load returns and what a store does. -/

namespace Sys2Proof.Machine

/-- The registers of the window, and the reserved offsets. -/
inductive Reg where
  | id
  | cmd
  | arg0
  | arg1
  | res0
  | res1
  | status
  | runoutCfg
  | runoutLeft
  | leadinLimit
  | bitsRead
  | inPos
  | rdState
  | wrState
  | outCount
  | msgResult
  | msgBits
  | reserved
deriving DecidableEq, Repr

/-- The register at an offset (the map of 10_state.md section 2); 0x44 to 0xFC are reserved (R40). -/
def regAt : Nat → Reg
  | 0x00 => .id
  | 0x04 => .cmd
  | 0x08 => .arg0
  | 0x0C => .arg1
  | 0x10 => .res0
  | 0x14 => .res1
  | 0x18 => .status
  | 0x1C => .runoutCfg
  | 0x20 => .runoutLeft
  | 0x24 => .leadinLimit
  | 0x28 => .bitsRead
  | 0x2C => .inPos
  | 0x30 => .rdState
  | 0x34 => .wrState
  | 0x38 => .outCount
  | 0x3C => .msgResult
  | 0x40 => .msgBits
  | _ => .reserved

/-- The constant of the ID register (10_state.md R23). -/
def idWord : Word := 0x46420001#32

/-- The value of a register (10_state.md R23 to R40): CMD and the reserved offsets read 0. -/
def readReg : Reg → State → Word
  | .id, _ => idWord
  | .cmd, _ => 0
  | .arg0, s => s.arg0
  | .arg1, s => s.arg1
  | .res0, s => s.res0
  | .res1, s => s.res1
  | .status, s => statusWord s
  | .runoutCfg, s => s.runoutCfg.zeroExtend 32
  | .runoutLeft, s => s.runoutLeft.zeroExtend 32
  | .leadinLimit, s => s.leadinLimit.zeroExtend 32
  | .bitsRead, s => s.bitsRead
  | .inPos, s => s.inPos
  | .rdState, s => readerWord s
  | .wrState, s => writerWord s
  | .outCount, s => s.outCount
  | .msgResult, s => messageWord s.msg
  | .msgBits, s => s.msgBits
  | .reserved, _ => 0

/-- A host store to a register other than CMD while idle: the four writable registers take their writable bits, a store to
RUNOUT_CFG reloads RUNOUT_LEFT (10_state.md R30), and every other store is ignored (R40, R41). -/
def writeReg : Reg → Word → State → State
  | .arg0, v, s => { s with arg0 := v }
  | .arg1, v, s => { s with arg1 := v }
  | .runoutCfg, v, s => { s with runoutCfg := v.extractLsb' 0 16, runoutLeft := v.extractLsb' 0 16 }
  | .leadinLimit, v, s => { s with leadinLimit := v.extractLsb' 0 16 }
  | .id, _, s | .cmd, _, s | .res0, _, s | .res1, _, s | .status, _, s | .runoutLeft, _, s | .bitsRead, _, s => s
  | .inPos, _, s | .rdState, _, s | .wrState, _, s | .outCount, _, s | .msgResult, _, s | .msgBits, _, s => s
  | .reserved, _, s => s

/-- The offset of a platform address in the 256-byte window at REG_BASE (20_memory.md R60, R71). -/
def windowOffset (s : State) (addr : Nat) : Option Nat :=
  if s.cfg.regBase ≤ addr ∧ addr < s.cfg.regBase + 256 then some (addr - s.cfg.regBase) else none

/-- An access the window supports: 32 bits wide, at an offset that is a multiple of 4 (20_memory.md R64). -/
def supported (w : Width) (off : Nat) : Bool :=
  w == .word && off % 4 == 0

/-- The host takes the value of a load. -/
def recordRead (v : Word) (s : State) : State :=
  { s with hostReads := s.hostReads ++ [v] }

/-- A free value is drawn: the next one will be another. -/
def drawFree (s : State) : State :=
  { s with freeIx := s.freeIx + 1 }

/-- A register whose load returns any value while BUSY (20_memory.md R74): every one but STATUS, ID and CMD among them (log entry 7,
DESIGN CHOICE: R23 and R24 name a value for these two). A reserved offset is no register and reads 0 at all times (10_state.md
R40; 93_implementation_defined.md I4; log entry 23, DEDUCED, against the "all but STATUS" of R310). -/
def freeWhileBusy : Reg → Bool
  | .status | .reserved => false
  | .id | .cmd | .arg0 | .arg1 | .res0 | .res1 | .runoutCfg | .runoutLeft | .leadinLimit => true
  | .bitsRead | .inPos | .rdState | .wrState | .outCount | .msgResult | .msgBits => true

/-- A host load (10_state.md R41: no side effect). While BUSY, a register that `freeWhileBusy` names returns a free value. -/
def hostLoad (r : Reg) (s : State) : State :=
  if s.busy && freeWhileBusy r then drawFree (recordRead (Config.busyRead s.freeIx) s)
  else recordRead (readReg r s) s

end Sys2Proof.Machine
end

