-- ==== Sys2Proof/Machine/Launch.lean ====
section
/-! DEFINITION. How commands come to run: a host store to CMD launches one (30_encoding.md R90), the host's actions are
performed one by one (70_reset_and_hazards.md R310), and a launch binds a configuration, IN and a host program (R311). -/

namespace Sys2Proof.Machine

/-- `STATUS.BUSY <- 1` (30_encoding.md R90). -/
def setBusy (s : State) : State :=
  { s with busy := true }

/-- A store of `w` to CMD while BUSY = 0 (30_encoding.md R90): a command runs to its `finish`, an illegal word completes with
ILLEGAL and changes nothing else (R95). ARG0 and ARG1 are read as they stand (70_reset_and_hazards.md R301). -/
def launchCommand (w : Word) (s : State) : Host.Outcome State Fault Refusal :=
  match decode w with
  | .ok i => exec i (setBusy s)
  | .error _ => .next (finish .illegal (setBusy s))

/-- A host store: ignored while BUSY, CMD included (10_state.md R41). -/
def hostStore (r : Reg) (v : Word) (s : State) : Host.Outcome State Fault Refusal :=
  if s.busy then .next s
  else if r = .cmd then launchCommand v s
  else .next (writeReg r v s)

/-- The access an action makes at a platform address: a fault outside the window (log entry 11), a refusal where the access
is sub-word or misaligned (20_memory.md R64), else what the register at the offset does. -/
def accessWindow (w : Width) (addr : Nat) (s : State) (act : Reg → Host.Outcome State Fault Refusal) :
    Host.Outcome State Fault Refusal :=
  match windowOffset s addr with
  | none => .fault .outsideWindow
  | some off => if supported w off then act (regAt off) else .refused .unsupportedAccess

/-- One access of the host. -/
def performAccess : Access → State → Host.Outcome State Fault Refusal
  | .load w addr, s => accessWindow w addr s (fun r => .next (hostLoad r s))
  | .store w addr v, s => accessWindow w addr s (fun r => hostStore r v s)

/-- The host's accesses, one after another, up to the first that stops. -/
def performAccesses : List Access → State → Host.Outcome State Fault Refusal
  | [], s => .next s
  | a :: rest, s =>
    match performAccess a s with
    | .next t => performAccesses rest t
    | o => o

/-- The reset input asserted, if it is, before the effect of a store on `s` is complete (70_reset_and_hazards.md R291). -/
def abandonStore : Option Nat → State → Host.Outcome State Fault Refusal → Host.Outcome State Fault Refusal
  | some n, s, .next t => .next (abandonCommand n s t)
  | _, _, o => o

/-- A store and the accesses the host makes while its command runs: after a store to CMD while idle they find BUSY = 1
(70_reset_and_hazards.md R300), after any other store they find what it left. -/
def overlappedStore (r : Reg) (v : Word) (during : List Access) (abandoned : Option Nat) (s : State) :
    Host.Outcome State Fault Refusal :=
  if r = .cmd ∧ s.busy = false then
    match performAccesses during (setBusy s) with
    | .next t => abandonStore abandoned t (launchCommand v t)
    | o => o
  else
    match hostStore r v s with
    | .next t =>
      match performAccesses during t with
      | .next u => abandonStore abandoned u (.next u)
      | o => o
    | o => o

/-- One action of the host (70_reset_and_hazards.md R310). -/
def perform : HostAction → State → Host.Outcome State Fault Refusal
  | .load w addr, s => performAccess (.load w addr) s
  | .store w addr v, s => performAccess (.store w addr v) s
  | .reset, s => .next (hostReset s)
  | .overlapped w addr v during abandoned, s => accessWindow w addr s (fun r => overlappedStore r v during abandoned s)

/-- The next action of the host is performed; with none queued the block is idle and every register keeps its value
(60_exceptions.md R277; log entry 6). -/
def hostStep (s : State) : Host.Outcome State Fault Refusal :=
  match s.host with
  | [] => .next s
  | a :: rest => perform a { s with host := rest }

/-- The state of 70_reset_and_hazards.md R290 for a configuration and its ROMs, an input and a host program. -/
def launchState (cfg : Config) (rom : Rom) (inp : List Byte) (program : List HostAction) : State :=
  { hostReset { State.reset with cfg := cfg, rom := rom, inp := inp } with host := program }

/-- A launch (70_reset_and_hazards.md R311): an ill-formed configuration is refused (00_scope.md R9), and so is an input
longer than `2^32 - 1` bytes (R8). -/
def launch (cfg : Config) (inp : List Byte) (program : List HostAction) : Host.Outcome State Fault Refusal :=
  if inputFits inp then
    match cfg.wellFormed, romOf cfg with
    | true, some rom => .next (launchState cfg rom inp program)
    | _, _ => .refused .illFormedConfiguration
  else .refused .inputTooLong

/-- The host's store of a word to CMD. -/
def commandStore (s : State) (w : Word) : HostAction :=
  .store .word (s.cfg.regBase + 0x04) w

/-- The word a table row's bits stand for, every bit above `nbits` 0. -/
def tableWord (nbits w : Nat) : Word :=
  BitVec.ofNat 32 (w % 2 ^ nbits)

/-- A command word put where the next step takes it: the host's next action is the store of it to CMD, and BUSY is 0. -/
def queueCommand (s : State) (w : Word) : State :=
  { s with busy := false, host := commandStore s w :: s.host }

end Sys2Proof.Machine
end

