-- ==== Sys2Proof/Machine/Program.lean ====
section
/-! DEFINITION. The host program statements of 30_encoding.md R98 and the pseudo-commands of R99 as host actions. They
have no semantics of their own. -/

namespace Sys2Proof.Machine

/-- `st REG, v` at a register offset. -/
def storeReg (cfg : Config) (off : Nat) (v : Word) : HostAction :=
  .store .word (cfg.regBase + off) v

/-- `ld REG` at a register offset. -/
def loadReg (cfg : Config) (off : Nat) : HostAction :=
  .load .word (cfg.regBase + off)

/-- `st CMD, OP; wait`: in a model whose command is one step, one load of STATUS sees BUSY = 0 (70_reset_and_hazards.md R306;
DEDUCED, log entry 5). -/
def command (cfg : Config) (i : Instr) : List HostAction :=
  [storeReg cfg 0x04 (encode i), loadReg cfg 0x18]

/-- `MNEMONIC a0`. -/
def command1 (cfg : Config) (i : Instr) (a0 : Word) : List HostAction :=
  storeReg cfg 0x08 a0 :: command cfg i

/-- `MNEMONIC a0, a1`. -/
def command2 (cfg : Config) (i : Instr) (a0 a1 : Word) : List HostAction :=
  storeReg cfg 0x08 a0 :: storeReg cfg 0x0C a1 :: command cfg i

/-- The host's loads of the two results, `ld RES0` and `ld RES1`. -/
def loadResults (cfg : Config) : List HostAction :=
  [loadReg cfg 0x10, loadReg cfg 0x14]

/-- `RAW_CODEWORD b`: TBL_FORWARD b; the bits are `bits(RES0, RES1)`. R99 does not show how the host obtains the bits: that
the expansion ends with loads of RES0 and RES1 is the model's (DESIGN CHOICE, log entry 25). -/
def rawCodeword (cfg : Config) (b : Byte) : List HostAction :=
  command1 cfg .tblForward (b.zeroExtend 32) ++ loadResults cfg

/-- `WRITE_PAD`: WRITE_BIT 0. -/
def writePad (cfg : Config) : List HostAction :=
  command1 cfg .writeBit 0

/-- `WRITE_CODEWORD b`: TBL_FORWARD b; `ld RES0`; `ld RES1`; WRITE_PATTERN RES0, RES1, as R99 shows it; the host's stores
carry the values that its loads return. -/
def writeCodeword (cfg : Config) (r : Rom) (b : Byte) : List HostAction :=
  command1 cfg .tblForward (b.zeroExtend 32) ++ loadResults cfg ++
  command2 cfg .writePattern (BitVec.ofNat 32 (forwardWord r b).pattern) (BitVec.ofNat 32 (forwardWord r b).length)

/-- `SET_RUNOUT n`. -/
def setRunout (cfg : Config) (n : Word) : List HostAction :=
  [storeReg cfg 0x1C n]

/-- `SET_LEADIN n`. -/
def setLeadin (cfg : Config) (n : Word) : List HostAction :=
  [storeReg cfg 0x24 n]

end Sys2Proof.Machine
end

