-- ==== Sys2Proof/Machine/Step.lean ====
section
/-! DEFINITION. One step of the machine, and where a command word stands for it. -/

namespace Sys2Proof.Machine

/-- One step: the host's next action, a command being one atomic action (70_reset_and_hazards.md R306). -/
def step (s : State) : Host.Outcome State Fault Refusal :=
  hostStep s

/-- The command of a table row put where `step` takes its next action (log entry 4). -/
def State.withFetchWord (s : State) (nbits w : Nat) : State :=
  queueCommand s (tableWord nbits w)

end Sys2Proof.Machine
end

