-- ==== Sys2Proof/Safety.lean ====
section
/-! DEFINITION. What a sound state of the machine is, and the terms the claims use: the bits still to be read of IN, the bits
written to OUT, and what a command of one family may change. -/

namespace Sys2Proof.Machine

/-! ## The two bit streams -/

/-- The bits of the cached byte that are still to be read: from RD_MASK's bit down to bit 0 (10_state.md R35). -/
def cachedBits (s : State) : BitString :=
  if s.rdMask = 0 then [] else bits s.rdByte.toNat (Nat.log2 s.rdMask.toNat + 1)

/-- The bit string that strict reads still deliver, in order (40_bitchannel.md R133). -/
def unread (s : State) : BitString :=
  cachedBits s ++ (s.inp.drop s.inPos.toNat).flatMap byteBits

/-- The pending bits of the writer, in the order written (10_state.md R36). -/
def pending (s : State) : BitString :=
  (byteBits s.wrByte).take s.wrCnt.toNat

/-- Every bit written since reset, in order: the bytes of OUT, then the pending bits (40_bitchannel.md R134). -/
def written (s : State) : BitString :=
  s.out.flatMap byteBits ++ pending s

/-! ## Sound states -/

/-- The legal values of RD_MASK (10_state.md R35). -/
def legalMasks : List Byte :=
  [0x00, 0x80, 0x40, 0x20, 0x10, 0x08, 0x04, 0x02, 0x01]

/-- The reader is sound: IN is of a legal length (00_scope.md R8), `IN_POS <= IN_LEN` (10_state.md R34), RD_MASK is legal. -/
def readerOk (s : State) : Prop :=
  s.inp.length < 2 ^ 32 ∧ s.inPos.toNat ≤ s.inp.length ∧ s.rdMask ∈ legalMasks

/-- The writer is sound: the bits of WR_BYTE below the pending ones are 0 (10_state.md R36). -/
def writerOk (s : State) : Prop :=
  s.wrByte.toNat % 2 ^ (8 - s.wrCnt.toNat) = 0

/-- The ROMs are those of a well-formed configuration (00_scope.md R9; 10_state.md R43). -/
def romOk (s : State) : Prop :=
  s.cfg.wellFormed = true ∧ romOf s.cfg = some s.rom

/-- IS_VALID is the function of MSG_BITS and the flags that 43_framing.md R232 gives. -/
def messageOk (s : State) : Prop :=
  s.msg.isValid = isValidMessage s.cfg s.msgBits s.msg.sawHeader s.msg.sawFooter s.msg.cleanData

/-- A sound state between two steps: sound ROMs, streams and message, OUT_COUNT the number of bytes appended since reset
modulo 2^32 (10_state.md R37), RUNOUT_LEFT at most RUNOUT (R31), BUSY = 0 and no internal register holding a value. -/
structure State.Inv (s : State) : Prop where
  rom : romOk s
  reader : readerOk s
  writer : writerOk s
  count : s.outCount = BitVec.ofNat 32 s.out.length
  runout : s.runoutLeft.toNat ≤ s.runoutCfg.toNat
  message : messageOk s
  idle : s.busy = false
  released : s.frame = none

/-! ## What may change -/

/-- Nothing but the writer and OUT differs. -/
def onlyWriter (s t : State) : Prop :=
  t = { s with wrByte := t.wrByte, wrCnt := t.wrCnt, out := t.out, outCount := t.outCount }

/-- Nothing but the strict reader's registers differs: RUNOUT_LEFT is the same. -/
def onlyStrictReader (s t : State) : Prop :=
  t = { s with inPos := t.inPos, rdByte := t.rdByte, rdMask := t.rdMask, bitsRead := t.bitsRead }

/-- Nothing but the reader's registers differs. -/
def onlyReader (s t : State) : Prop :=
  t = { s with inPos := t.inPos, rdByte := t.rdByte, rdMask := t.rdMask, bitsRead := t.bitsRead, runoutLeft := t.runoutLeft }

/-- Nothing but what a frame decode works on differs: the strict reader, OUT and the internal registers. -/
def onlyDecoder (s t : State) : Prop :=
  t = { s with
    inPos := t.inPos, rdByte := t.rdByte, rdMask := t.rdMask, bitsRead := t.bitsRead
    out := t.out, outCount := t.outCount, frame := t.frame }

/-- What no step ever changes (00_scope.md R8; 10_state.md R43, R44): the configuration, the ROMs and IN. -/
def sameLaunch (s t : State) : Prop :=
  t.cfg = s.cfg ∧ t.rom = s.rom ∧ t.inp = s.inp

/-- Everything the host was ever given of OUT (20_memory.md R63; 70_reset_and_hazards.md R291). -/
def delivered (s : State) : List Byte :=
  s.outPrior ++ s.out

/-! ## Frames and sequences of commands -/

/-- The bit string `Frame(P)` of 43_framing.md R210. -/
def frameString (r : Rom) (p : List Byte) : BitString :=
  codewordBits r.head ++ [false] ++ p.flatMap (fun b => codewordBits (forwardWord r b) ++ [false]) ++
    (codewordBits r.foot ++ [false])

/-- The zero bits that fill a string of `n` bits up to a byte boundary (40_bitchannel.md R134). -/
def fillZeros (n : Nat) : BitString :=
  List.replicate ((8 - n % 8) % 8) false

/-- Commands run one after another, the host storing each one's ARG0 and ARG1 before it (30_encoding.md R98). -/
def runCommands : List (Instr × Word × Word) → State → Host.Outcome State Fault Refusal
  | [], s => .next s
  | (i, a0, a1) :: rest, s =>
    match exec i { s with arg0 := a0, arg1 := a1 } with
    | .next t => runCommands rest t
    | .fault f => .fault f
    | .refused r => .refused r

/-- `WRITE_PATTERN` of a codeword and `WRITE_BIT 0` (43_framing.md R240). -/
def paddedCommands (w : Codeword) : List (Instr × Word × Word) :=
  [(.writePattern, BitVec.ofNat 32 w.pattern, BitVec.ofNat 32 w.length), (.writeBit, 0, 0)]

/-- The host sequence of 43_framing.md R240, first form, for a payload. -/
def frameCommands (r : Rom) (p : List Byte) : List (Instr × Word × Word) :=
  paddedCommands r.head ++ p.flatMap (fun b => paddedCommands (forwardWord r b)) ++ paddedCommands r.foot ++ [(.flush, 0, 0)]

/-- `n` TRY_READ_BIT commands: the values they leave in RES0, in order, and the state after them. -/
def tryReads : Nat → State → Option (List Word × State)
  | 0, s => some ([], s)
  | n + 1, s =>
    match exec .tryReadBit s with
    | .next t => (tryReads n t).map fun r => (t.res0 :: r.1, r.2)
    | _ => none

end Sys2Proof.Machine
end

