-- ==== Sys2Proof/Certificates/Slice0/Obligations.lean ====
section
/-! DEFINITION. The statements about the model, for the provers: the command words and the register window, the whole machine,
the four families of commands. -/

open Sys2Proof Sys2Proof.Machine

/-! ## Command words -/

/-- 30_encoding.md R92: the opcode map, with the rejections of R95 that it leaves. -/
def Obligations.DecodeAcceptsExactlyTheOpcodeMap : Prop :=
  ∀ (w : Word),
    (∀ i : Instr, decode w = .ok i ↔ w = BitVec.ofNat 32 (match i with
      | .nop => 0x00 | .writeBit => 0x01 | .writePattern => 0x02 | .flush => 0x03
      | .readBit => 0x04 | .tryReadBit => 0x05 | .rewind => 0x06 | .fibEncode => 0x07
      | .fibDecode => 0x08 | .fibTryDecode => 0x09 | .tblForward => 0x0A | .tblBackward => 0x0B
      | .frmEncode => 0x0C | .frmDecode => 0x0D)) ∧
    (decode w = .error .reservedBits ↔ 32 ≤ w.toNat) ∧
    (decode w = .error .reservedOpcode ↔ 0x0E ≤ w.toNat ∧ w.toNat ≤ 0x1F)

/-- Words written out from the encodings of the opcode table. -/
def Obligations.TableWordsDecodeToTheirCommands : Prop :=
  decodeTableWord 32 0b00000000000000000000000000000010 = some .writePattern ∧
  decodeTableWord 32 0b00000000000000000000000000001000 = some .fibDecode ∧
  decodeTableWord 32 0b00000000000000000000000000001011 = some .tblBackward ∧
  decodeTableWord 32 0b00000000000000000000000000001101 = some .frmDecode ∧
  decodeTableWord 32 0b00000000000000000000000000001110 = none ∧
  decodeTableWord 32 0b10000000000000000000000000001100 = none

/-- 30_encoding.md R90: a store of a command's word to CMD while idle runs that command, BUSY being 1 while it runs; the step
takes the store from the host's queue (the queue is the model's, log entry 4). -/
def Obligations.StepRunsTheDecodedCommand : Prop :=
  ∀ (s : State) (w : Word) (i : Instr) (rest : List HostAction),
    s.busy = false → s.host = .store .word (s.cfg.regBase + 0x04) w :: rest → decode w = .ok i →
    i.wellFormed = true ∧ step s = exec i { s with host := rest, busy := true }

/-- 30_encoding.md R95: an illegal word, or WRITE_PATTERN with a length above 32, completes with ILLEGAL and changes nothing
else, whatever the state holds. -/
def Obligations.IllegalCommandOnlySetsItsCode : Prop :=
  ∀ (s : State) (w : Word) (rest : List HostAction),
    s.busy = false → s.host = .store .word (s.cfg.regBase + 0x04) w :: rest →
    (w.extractLsb' 5 27 ≠ 0 ∨ 0x0E ≤ (w.extractLsb' 0 5).toNat ∨ (w = 0x02 ∧ 32 < s.arg1.toNat)) →
    step s = .next { s with host := rest, busy := false, code := .illegal }

/-! ## The register window -/

/-- 10_state.md R41: stores to read-only registers are ignored, every store is ignored while BUSY, and a load changes no state
but the host's own record of what it read (`hostReads` and `freeIx`, log entries 7 and 8). -/
def Obligations.IgnoredStoresAndHarmlessLoads : Prop :=
  ∀ (s : State) (off : Nat) (v : Word) (rest : List HostAction), off < 256 → off % 4 = 0 →
    (s.host = .store .word (s.cfg.regBase + off) v :: rest →
      (s.busy = true ∨ off ∈ [0x00, 0x10, 0x14, 0x18, 0x20, 0x28, 0x2C, 0x30, 0x34, 0x38, 0x3C, 0x40]) →
      step s = .next { s with host := rest }) ∧
    (s.host = .load .word (s.cfg.regBase + off) :: rest →
      ∃ t, step s = .next t ∧ t = { s with host := rest, hostReads := t.hostReads, freeIx := t.freeIx } ∧
        t.hostReads.length = s.hostReads.length + 1)

/-- 10_state.md R25, R26, R30, R32: what a store to each writable register does while idle. -/
def Obligations.StoresToWritableRegisters : Prop :=
  ∀ (s : State) (v : Word) (rest : List HostAction), s.busy = false →
    (s.host = .store .word (s.cfg.regBase + 0x08) v :: rest → step s = .next { s with host := rest, arg0 := v }) ∧
    (s.host = .store .word (s.cfg.regBase + 0x0C) v :: rest → step s = .next { s with host := rest, arg1 := v }) ∧
    (s.host = .store .word (s.cfg.regBase + 0x1C) v :: rest →
      step s = .next { s with host := rest, runoutCfg := v.setWidth 16, runoutLeft := v.setWidth 16 }) ∧
    (s.host = .store .word (s.cfg.regBase + 0x24) v :: rest →
      step s = .next { s with host := rest, leadinLimit := v.setWidth 16 })

/-- 10_state.md R40: reserved offsets read 0 and ignore stores, whatever BUSY is (log entry 23), and so do the reserved fields of defined registers. -/
def Obligations.ReservedOffsetsAndFieldsReadZero : Prop :=
  (∀ (s : State) (off : Nat) (v : Word) (rest : List HostAction), 0x44 ≤ off → off ≤ 0xFC → off % 4 = 0 →
    (s.host = .load .word (s.cfg.regBase + off) :: rest →
      step s = .next { s with host := rest, hostReads := s.hostReads ++ [0] }) ∧
    (s.host = .store .word (s.cfg.regBase + off) v :: rest → step s = .next { s with host := rest })) ∧
  (∀ s : State,
    readReg .id s &&& 0x0000FF00 = 0 ∧
    readReg .status s &&& 0xFFFFFF0E = 0 ∧
    readReg .runoutCfg s &&& 0xFFFF0000 = 0 ∧
    readReg .runoutLeft s &&& 0xFFFF0000 = 0 ∧
    readReg .leadinLimit s &&& 0xFFFF0000 = 0 ∧
    readReg .rdState s &&& 0xFFFF0000 = 0 ∧
    readReg .wrState s &&& 0xFFFFF800 = 0 ∧
    readReg .msgResult s &&& 0xFFFFF8E0 = 0) ∧
  (∀ (s : State) (v : Word),
    readReg .runoutCfg (writeReg .runoutCfg v s) = v &&& 0x0000FFFF ∧
    readReg .leadinLimit (writeReg .leadinLimit v s) = v &&& 0x0000FFFF)

/-- The register map of 10_state.md section 2: what an idle block's registers read, field by field (R23 to R39), the completion
codes by the numbers of 60_exceptions.md R260 and the end reasons by those of 43_framing.md R233. -/
def Obligations.LoadsReturnTheRegisterMap : Prop :=
  ∀ (s : State) (off : Nat) (rest : List HostAction) (v : Word), s.busy = false →
    s.host = .load .word (s.cfg.regBase + off) :: rest →
    (off, v) ∈ [(0x00, (0x46420001 : Word)), (0x04, 0), (0x08, s.arg0), (0x0C, s.arg1), (0x10, s.res0), (0x14, s.res1),
      (0x18, match s.code with
        | .ok => 0x00 | .illegal => 0x10 | .exhausted => 0x20 | .overrun => 0x30 | .range => 0x40 | .align => 0x50
        | .invalid => 0x60), (0x1C, s.runoutCfg.setWidth 32), (0x20, s.runoutLeft.setWidth 32),
      (0x24, s.leadinLimit.setWidth 32), (0x28, s.bitsRead), (0x2C, s.inPos),
      (0x30, (s.rdMask ++ s.rdByte).setWidth 32), (0x34, (s.wrCnt ++ s.wrByte).setWidth 32), (0x38, s.outCount),
      (0x3C, ((match s.msg.reason with
          | .unset => (0 : BitVec 3) | .footer => 1 | .runon => 2 | .pad => 3 | .exhausted => 4 | .overrun => 5
          | .noheader => 6 | .deadline => 7) ++ (0 : BitVec 3) ++ BitVec.ofBool s.msg.isValid ++
        BitVec.ofBool s.msg.runOn ++ BitVec.ofBool s.msg.cleanData ++ BitVec.ofBool s.msg.sawFooter ++
        BitVec.ofBool s.msg.sawHeader).setWidth 32), (0x40, s.msgBits)] →
    step s = .next { s with host := rest, hostReads := s.hostReads ++ [v] }

/-- 20_memory.md R64: a sub-word access, or one at an offset that is no multiple of 4, is refused. -/
def Obligations.UnsupportedAccessIsRefused : Prop :=
  ∀ (s : State) (w : Width) (off : Nat) (v : Word) (during : List Access) (abandoned : Option Nat) (rest : List HostAction),
    off < 256 → (w ≠ .word ∨ off % 4 ≠ 0) →
    (s.host = .load w (s.cfg.regBase + off) :: rest → step s = .refused .unsupportedAccess) ∧
    (s.host = .overlapped w (s.cfg.regBase + off) v during abandoned :: rest → step s = .refused .unsupportedAccess) ∧
    (s.host = .store w (s.cfg.regBase + off) v :: rest → step s = .refused .unsupportedAccess)

/-! ## Launch and reset -/

/-- 10_state.md R47: the values after the reset that starts a launch, for any configuration, input and host program. -/
def Obligations.LaunchGivesTheResetValues : Prop :=
  ∀ (cfg : Config) (inp : List Byte) (program : List HostAction) (s : State), launch cfg inp program = .next s →
    readReg .id s = 0x46420001 ∧ readReg .cmd s = 0 ∧ s.arg0 = 0 ∧ s.arg1 = 0 ∧ s.res0 = 0 ∧ s.res1 = 0 ∧
    readReg .status s = 0 ∧ s.busy = false ∧ s.code = .ok ∧ s.bitsRead = 0 ∧ s.inPos = 0 ∧ readReg .rdState s = 0 ∧
    readReg .wrState s = 0 ∧ s.outCount = 0 ∧ readReg .msgResult s = 0 ∧ s.msgBits = 0 ∧
    s.runoutCfg = cfg.runoutReset ∧ s.runoutLeft = cfg.runoutReset ∧ s.leadinLimit = cfg.leadinReset ∧
    s.frame = none ∧ s.cfg = cfg ∧ romOf cfg = some s.rom ∧ s.inp = inp ∧ s.out = []

/-- 70_reset_and_hazards.md R290: reset at any time gives every register its reset value and keeps the ROMs and IN. That the
bytes already in OUT are all still delivered is R291, in the form of log entry 12. -/
def Obligations.HostResetRestoresTheRegisters : Prop :=
  ∀ (s : State) (rest : List HostAction), s.host = .reset :: rest →
    ∃ t, step s = .next t ∧ t.host = rest ∧ readReg .id t = 0x46420001 ∧ readReg .cmd t = 0 ∧
      t.arg0 = 0 ∧ t.arg1 = 0 ∧ t.res0 = 0 ∧ t.res1 = 0 ∧ readReg .status t = 0 ∧ t.busy = false ∧ t.code = .ok ∧
      t.bitsRead = 0 ∧ t.inPos = 0 ∧ readReg .rdState t = 0 ∧ readReg .wrState t = 0 ∧ t.outCount = 0 ∧
      readReg .msgResult t = 0 ∧ t.msg.reason = .unset ∧ t.msgBits = 0 ∧
      t.runoutCfg = s.cfg.runoutReset ∧ t.runoutLeft = s.cfg.runoutReset ∧ t.leadinLimit = s.cfg.leadinReset ∧
      t.frame = none ∧ sameLaunch s t ∧ delivered t = delivered s

/-- 70_reset_and_hazards.md R291: a reset while a command runs leaves, of that command, only the first of the bytes it would
have appended to OUT; every register takes its reset value, pending bits and results are lost. How many bytes had been appended
is the host action's own (log entry 15). -/
def Obligations.ResetInsideACommandKeepsOnlyAppendedBytes : Prop :=
  ∀ (s u : State) (w : Word) (i : Instr) (n : Nat) (rest : List HostAction),
    s.busy = false → s.host = .overlapped .word (s.cfg.regBase + 0x04) w [] (some n) :: rest → decode w = .ok i →
    exec i { s with host := rest, busy := true } = .next u →
    ∃ t, step s = .next t ∧ t.host = rest ∧
      delivered t = s.outPrior ++ u.out.take (s.out.length + n) ∧ delivered s <+: delivered t ∧
      t.arg0 = 0 ∧ t.arg1 = 0 ∧ t.res0 = 0 ∧ t.res1 = 0 ∧ readReg .status t = 0 ∧ t.bitsRead = 0 ∧ t.inPos = 0 ∧
      readReg .rdState t = 0 ∧ readReg .wrState t = 0 ∧ t.outCount = 0 ∧ readReg .msgResult t = 0 ∧ t.msgBits = 0 ∧
      t.runoutCfg = s.cfg.runoutReset ∧ t.runoutLeft = s.cfg.runoutReset ∧ t.leadinLimit = s.cfg.leadinReset ∧
      t.frame = none ∧ sameLaunch s t

/-- 70_reset_and_hazards.md R300: what the host does while a command runs leaves the command as it is: its stores are ignored, a
load of STATUS reads BUSY = 1 and the code of the command before, a load of any other register reads a free value and one of a
reserved offset 0. Only the host's record differs (log entries 5, 7 and 23). -/
def Obligations.AccessesWhileBusyDoNotDisturbTheCommand : Prop :=
  ∀ (s : State) (w : Word) (i : Instr) (off : Nat) (v : Word) (rest : List HostAction),
    s.busy = false → decode w = .ok i → off < 256 → off % 4 = 0 →
    (∀ u, exec i { s with host := rest, busy := true } = .next u →
      (s.host = .overlapped .word (s.cfg.regBase + 0x04) w [.store .word (s.cfg.regBase + off) v] none :: rest →
        step s = .next u) ∧
      (s.host = .overlapped .word (s.cfg.regBase + 0x04) w [.load .word (s.cfg.regBase + 0x18)] none :: rest →
        step s = .next { u with hostReads := u.hostReads ++ [BitVec.ofNat 32 (1 + 16 * codeNumber s.code)] }) ∧
      (s.host = .overlapped .word (s.cfg.regBase + 0x04) w [.load .word (s.cfg.regBase + off)] none :: rest → off ≠ 0x18 →
        off < 0x44 → step s = .next { u with hostReads := u.hostReads ++ [Config.busyRead s.freeIx], freeIx := s.freeIx + 1 }) ∧
      (s.host = .overlapped .word (s.cfg.regBase + 0x04) w [.load .word (s.cfg.regBase + off)] none :: rest → 0x44 ≤ off →
        step s = .next { u with hostReads := u.hostReads ++ [0] }))

/-- 00_scope.md R9: a launch is refused exactly where the configuration fails one of W1 to W8 (the input being of a legal length). -/
def Obligations.LaunchRefusesExactlyIllFormedConfigurations : Prop :=
  ∀ (cfg : Config) (inp : List Byte) (program : List HostAction), inp.length < 2 ^ 32 →
    (cfg.wellFormed = true → ∃ s, launch cfg inp program = .next s) ∧
    (cfg.wellFormed = false → launch cfg inp program = .refused .illFormedConfiguration)

/-- Every launch starts in a sound state; State.reset is one of them. -/
def Obligations.LaunchIsSound : Prop :=
  State.reset.Inv ∧
  ∀ (cfg : Config) (inp : List Byte) (program : List HostAction) (s : State), launch cfg inp program = .next s → s.Inv

/-! ## The whole machine -/

/-- Every step keeps the soundness of the state: legal RD_MASK and IN_POS, a clean pending byte, OUT_COUNT and RUNOUT_LEFT in
step with what they count, IS_VALID the function of the other fields, the ROMs those of the configuration, BUSY = 0. -/
def Obligations.StepKeepsSoundness : Prop :=
  ∀ s t : State, s.Inv → step s = .next t → t.Inv

/-- 70_reset_and_hazards.md R307: every command ends, with IN fully present; the bound on its loops never runs out. -/
def Obligations.EveryCommandCompletes : Prop :=
  ∀ (i : Instr) (s : State), s.inp.length < 2 ^ 32 → ∃ t, exec i s = .next t ∧ t.busy = false

/-- No step changes the configuration, the ROMs or IN, and none withdraws a byte of OUT (10_state.md R43, R44; 20_memory.md R63). -/
def Obligations.StepNeverChangesInputOrTables : Prop :=
  ∀ s t : State, step s = .next t → sameLaunch s t ∧ delivered s <+: delivered t

/-- No command writes an operand register or a configuration register (10_state.md R25, R26, R30, R32), or anything that is
the host's. -/
def Obligations.NoCommandWritesHostRegisters : Prop :=
  ∀ (i : Instr) (s t : State), exec i s = .next t →
    t.arg0 = s.arg0 ∧ t.arg1 = s.arg1 ∧ t.runoutCfg = s.runoutCfg ∧ t.leadinLimit = s.leadinLimit ∧ sameLaunch s t ∧
    s.out <+: t.out ∧ t.outPrior = s.outPrior ∧ t.host = s.host ∧ t.hostReads = s.hostReads ∧ t.freeIx = s.freeIx

/-- 10_state.md R45: no command reads CODE, BUSY or MSG_RESULT; only FRM_DECODE writes MSG_RESULT. -/
def Obligations.CommandsIgnoreStatusAndMessage : Prop :=
  ∀ (i : Instr) (s t : State) (c : Code) (b : Bool) (m : MsgResult), exec i s = .next t →
    exec i { s with code := c, busy := b, msg := m } =
      .next { t with msg := if i = .frmDecode ∧ s.wrCnt = 0 then t.msg else m } ∧
    (i ≠ .frmDecode → t.msg = s.msg ∧ t.msgBits = s.msgBits)

/-- 60_exceptions.md R260: the codes each command may complete with, and what RES0 and RES1 hold on each code but OK. -/
def Obligations.CompletionCodesOfEachCommand : Prop :=
  ∀ (i : Instr) (s t : State), exec i s = .next t →
    (t.code = .illegal → i = .writePattern ∧ 32 < s.arg1.toNat ∧ t.res0 = s.res0 ∧ t.res1 = s.res1) ∧
    (t.code = .exhausted →
      ((i = .readBit ∨ i = .tryReadBit) ∧ t.res0 = 0xFFFFFFFF ∧ t.res1 = s.res1 ∧ t.bitsRead = s.bitsRead) ∨
      ((i = .fibDecode ∨ i = .fibTryDecode) ∧ t.res0 = 0xFFFFFFFF ∧ t.bitsRead = s.bitsRead + t.res1)) ∧
    (t.code = .overrun →
      (i = .fibDecode ∨ i = .fibTryDecode) ∧ t.res0 = 0xFFFFFFFF ∧ t.bitsRead = s.bitsRead + t.res1) ∧
    (t.code = .range → i = .fibEncode ∧ t.res0 = 0xFFFFFFFF ∧ t.res1 = 0) ∧
    (t.code = .align → ((i = .frmEncode ∧ s.rdMask ≠ 0) ∨ (i = .frmDecode ∧ s.wrCnt ≠ 0)) ∧
      t.res0 = s.res0 ∧ t.res1 = s.res1) ∧
    (t.code = .invalid → i = .tblBackward ∧ t.res0 = 0xFFFFFFFF ∧ t.res1 = s.res1)

/-! ## BitChannel -/

/-- 40_bitchannel.md R126. -/
def Obligations.NopOnlyFinishes : Prop :=
  decode 0x00000000 = .ok .nop ∧ ∀ s : State, exec .nop s = .next { s with code := .ok, busy := false }

/-- WRITE_BIT writes ARG0[0] behind every bit written before and changes nothing but the writer, OUT and STATUS
(40_bitchannel.md R127, R120). -/
def Obligations.WriteBitAppendsOneBit : Prop :=
  ∀ s : State, ∃ t, exec .writeBit s = .next t ∧
    t = { s with wrByte := t.wrByte, wrCnt := s.wrCnt + 1, out := t.out, outCount := t.outCount, code := .ok, busy := false } ∧
    (s.wrCnt ≠ 7 → t.out = s.out ∧ t.outCount = s.outCount) ∧
    (s.wrCnt = 7 → (∃ b, t.out = s.out ++ [b]) ∧ t.outCount = s.outCount + 1 ∧ t.wrByte = 0) ∧
    (writerOk s → written t = written s ++ [s.arg0.getLsbD 0] ∧ writerOk t)

/-- WRITE_PATTERN writes the low ARG1 bits of ARG0, the most significant first, and nothing where ARG1 is above 32
(40_bitchannel.md R128, R125). -/
def Obligations.WritePatternAppendsItsBits : Prop :=
  ∀ s : State,
    (s.arg1.toNat ≤ 32 → ∃ t, exec .writePattern s = .next t ∧
      t = { s with wrByte := t.wrByte, wrCnt := t.wrCnt, out := t.out, outCount := t.outCount, code := .ok, busy := false } ∧
      s.out <+: t.out ∧
      (writerOk s → writerOk t ∧
        written t = written s ++ (List.range s.arg1.toNat).map (fun k => s.arg0.getLsbD (s.arg1.toNat - 1 - k)))) ∧
    (32 < s.arg1.toNat → exec .writePattern s = .next { s with code := .illegal, busy := false })

/-- FLUSH appends a partial pending byte, its free bits being zeros, and reports how many; with nothing pending it appends
nothing (40_bitchannel.md R129, R121). -/
def Obligations.FlushPadsToAByte : Prop :=
  ∀ s : State,
    (s.wrCnt = 0 → exec .flush s = .next { s with res0 := 0, code := .ok, busy := false }) ∧
    (s.wrCnt ≠ 0 → ∃ t, exec .flush s = .next t ∧
      t = { s with wrByte := 0, wrCnt := 0, out := s.out ++ [s.wrByte], outCount := s.outCount + 1,
                   res0 := BitVec.ofNat 32 (8 - s.wrCnt.toNat), code := .ok, busy := false } ∧
      (writerOk s → written t = written s ++ List.replicate (8 - s.wrCnt.toNat) false))

/-- READ_BIT delivers the next bit of IN, then run-out zeros, then EXHAUSTED (40_bitchannel.md R130, R123). From any state
a bit still cached is taken under RD_MASK, which moves on while RD_BYTE stays, and without one a byte is fetched (R122). -/
def Obligations.ReadBitDeliversTheNextBit : Prop :=
  ∀ s : State,
    (s.rdMask ≠ 0 → exec .readBit s = .next { s with
      rdMask := s.rdMask >>> 1, bitsRead := s.bitsRead + 1
      res0 := BitVec.ofNat 32 (s.rdByte &&& s.rdMask != 0).toNat, code := .ok, busy := false }) ∧
    (∀ byte : Byte, s.rdMask = 0 → s.inp[s.inPos.toNat]? = some byte → exec .readBit s = .next { s with
      inPos := s.inPos + 1, rdByte := byte, rdMask := 0x40, bitsRead := s.bitsRead + 1
      res0 := BitVec.ofNat 32 (byte.getLsbD 7).toNat, code := .ok, busy := false }) ∧
    (readerOk s →
    (∀ (b : Bool) (rest : BitString), unread s = b :: rest → ∃ t, exec .readBit s = .next t ∧
      t = { s with inPos := t.inPos, rdByte := t.rdByte, rdMask := t.rdMask, bitsRead := s.bitsRead + 1,
                   res0 := BitVec.ofNat 32 b.toNat, code := .ok, busy := false } ∧
      unread t = rest ∧ readerOk t) ∧
    (unread s = [] → s.runoutLeft ≠ 0 →
      exec .readBit s = .next { s with runoutLeft := s.runoutLeft - 1, bitsRead := s.bitsRead + 1,
                                       res0 := 0, code := .ok, busy := false }) ∧
    (unread s = [] → s.runoutLeft = 0 →
      exec .readBit s = .next { s with res0 := 0xFFFFFFFF, code := .exhausted, busy := false }))

/-- TRY_READ_BIT delivers the next bit of IN and never uses run-out (40_bitchannel.md R131, R124). From any state a bit still
cached is taken under RD_MASK, which moves on while RD_BYTE stays, and without one a byte is fetched (R122). -/
def Obligations.TryReadBitNeverUsesRunout : Prop :=
  ∀ s : State,
    (s.rdMask ≠ 0 → exec .tryReadBit s = .next { s with
      rdMask := s.rdMask >>> 1, bitsRead := s.bitsRead + 1
      res0 := BitVec.ofNat 32 (s.rdByte &&& s.rdMask != 0).toNat, code := .ok, busy := false }) ∧
    (∀ byte : Byte, s.rdMask = 0 → s.inp[s.inPos.toNat]? = some byte → exec .tryReadBit s = .next { s with
      inPos := s.inPos + 1, rdByte := byte, rdMask := 0x40, bitsRead := s.bitsRead + 1
      res0 := BitVec.ofNat 32 (byte.getLsbD 7).toNat, code := .ok, busy := false }) ∧
    (readerOk s →
    (∀ (b : Bool) (rest : BitString), unread s = b :: rest → ∃ t, exec .tryReadBit s = .next t ∧
      t = { s with inPos := t.inPos, rdByte := t.rdByte, rdMask := t.rdMask, bitsRead := s.bitsRead + 1,
                   res0 := BitVec.ofNat 32 b.toNat, code := .ok, busy := false } ∧
      unread t = rest ∧ readerOk t) ∧
    (unread s = [] → exec .tryReadBit s = .next { s with res0 := 0xFFFFFFFF, code := .exhausted, busy := false }))

/-- REWIND restarts the reader at the first bit of IN and reloads RUNOUT_LEFT; the writer, OUT and the message registers are
kept (40_bitchannel.md R132). -/
def Obligations.RewindRestartsTheReader : Prop :=
  ∀ s : State, ∃ t, exec .rewind s = .next t ∧
    t = { s with inPos := 0, rdByte := 0, rdMask := 0, bitsRead := 0, runoutLeft := s.runoutCfg, code := .ok, busy := false } ∧
    unread t = s.inp.flatMap byteBits

/-- 40_bitchannel.md R133: reading all of IN strictly gives its bytes' bits, bit 7 first, and then no data. -/
def Obligations.StrictReadsDeliverAllOfIn : Prop :=
  ∀ s : State, s.inp.length < 2 ^ 32 → s.inPos = 0 → s.rdMask = 0 → s.bitsRead = 0 →
    ∃ t, tryReads (8 * s.inp.length) s = some ((s.inp.flatMap byteBits).map bitWord, t) ∧
      t.bitsRead = BitVec.ofNat 32 (8 * s.inp.length) ∧
      exec .tryReadBit t = .next { t with res0 := 0xFFFFFFFF, code := .exhausted, busy := false }

/-- 40_bitchannel.md R134: a string written from an empty writer and flushed stands in OUT, padded with zeros to a byte. -/
def Obligations.FlushedStringFillsWholeBytes : Prop :=
  ∀ (s : State) (l : BitString), s.wrByte = 0 → s.wrCnt = 0 →
    (flushOut (putString l s)).wrCnt = 0 ∧
    (flushOut (putString l s)).out.length = s.out.length + (l.length + 7) / 8 ∧
    (flushOut (putString l s)).out.flatMap byteBits = s.out.flatMap byteBits ++ l ++ fillZeros l.length

/-- 40_bitchannel.md R135: the writing commands leave the reader alone, the reading commands the writer. -/
def Obligations.ReaderAndWriterAreIndependent : Prop :=
  ∀ s t : State,
    (∀ i ∈ [Instr.nop, .writeBit, .writePattern, .flush], exec i s = .next t →
      t.inPos = s.inPos ∧ t.rdByte = s.rdByte ∧ t.rdMask = s.rdMask ∧ t.bitsRead = s.bitsRead ∧
      t.runoutLeft = s.runoutLeft ∧ t.inp = s.inp ∧ t.res1 = s.res1) ∧
    (∀ i ∈ [Instr.nop, .readBit, .tryReadBit, .rewind], exec i s = .next t →
      t.wrByte = s.wrByte ∧ t.wrCnt = s.wrCnt ∧ t.out = s.out ∧ t.outCount = s.outCount ∧ t.res1 = s.res1)

/-! ## FibonacciCode -/

/-- FIB_ENCODE writes the Fibonacci code of ARG0 and reports its pattern and length; outside the domain it writes nothing
(41_fibonacci.md R160). The code's pattern is the string read as a number, taken modulo 2^32 (log entry 9). -/
def Obligations.FibEncodeWritesTheCode : Prop :=
  ∀ s : State,
    (∀ str, fibCode s.rom.fib s.arg0.toNat = some str → ∃ t, exec .fibEncode s = .next t ∧
      t = { s with wrByte := t.wrByte, wrCnt := t.wrCnt, out := t.out, outCount := t.outCount,
                   res0 := BitVec.ofNat 32 (stringValue str), res1 := BitVec.ofNat 32 str.length,
                   code := .ok, busy := false } ∧
      s.out <+: t.out ∧
      (writerOk s → written t = written s ++ str ∧ writerOk t)) ∧
    (fibCode s.rom.fib s.arg0.toNat = none →
      exec .fibEncode s = .next { s with res0 := 0xFFFFFFFF, res1 := 0, code := .range, busy := false })

/-- 41_fibonacci.md R153: the encodable domain and the length of a code, for the ROM of a legal FIB_LEN. -/
def Obligations.EncodableDomainAndCodeLength : Prop :=
  ∀ n : Nat, 4 ≤ n → n ≤ 47 →
    (∀ v, (fibCode (fibRom n) v).isSome ↔ v + 2 ≤ (fibRom n).getD (n - 1) 0) ∧
    (∀ v str, fibCode (fibRom n) v = some str →
      2 ≤ str.length ∧ str.length ≤ n - 2 ∧
      (fibRom n).getD str.length 0 ≤ v + 1 ∧ v + 1 < (fibRom n).getD (str.length + 1) 0)

/-- 41_fibonacci.md R154: the shape of every code: a final `11`, no other pair of ones, at least two bits, and `11` for 0. -/
def Obligations.EveryCodeEndsInItsOnlyPair : Prop :=
  ∀ n : Nat, 4 ≤ n → n ≤ 47 →
    fibCode (fibRom n) 0 = some [true, true] ∧
    ∀ v str, fibCode (fibRom n) v = some str →
      2 ≤ str.length ∧ [true, true] <:+ str ∧
      (∀ k, str[k]? = some true → str[k + 1]? = some true → k + 2 = str.length) ∧
      ¬ [true, true, true] <:+: str

/-- 41_fibonacci.md R172: a code that stands next in IN decodes, in either mode, to the value it encodes, and no other bit is
consumed. -/
def Obligations.FibonacciRoundTrip : Prop :=
  ∀ (s : State) (v : Nat) (str rest : BitString), romOk s → readerOk s →
    fibCode s.rom.fib v = some str → unread s = str ++ rest →
    ∀ i ∈ [Instr.fibDecode, .fibTryDecode], ∃ t, exec i s = .next t ∧
      t = { s with inPos := t.inPos, rdByte := t.rdByte, rdMask := t.rdMask,
                   bitsRead := s.bitsRead + BitVec.ofNat 32 str.length,
                   res0 := BitVec.ofNat 32 v, res1 := BitVec.ofNat 32 str.length, code := .ok, busy := false } ∧
      t.res0.toNat = v ∧ unread t = rest

/-- FIB_DECODE and FIB_TRY_DECODE always complete, change the reader only, and report `-1` exactly where they fail; the strict
one never uses run-out (41_fibonacci.md R161, R162; 60_exceptions.md R261). -/
def Obligations.FibDecodesCompleteAndKeepTheRest : Prop :=
  ∀ s : State,
    (∃ t, exec .fibDecode s = .next t ∧
      t = { s with inPos := t.inPos, rdByte := t.rdByte, rdMask := t.rdMask, bitsRead := s.bitsRead + t.res1,
                   runoutLeft := t.runoutLeft, res0 := t.res0, res1 := t.res1, code := t.code, busy := false } ∧
      (t.code = .ok ∨ (t.res0 = 0xFFFFFFFF ∧ (t.code = .exhausted ∨ t.code = .overrun)))) ∧
    (∃ t, exec .fibTryDecode s = .next t ∧
      t = { s with inPos := t.inPos, rdByte := t.rdByte, rdMask := t.rdMask, bitsRead := s.bitsRead + t.res1,
                   res0 := t.res0, res1 := t.res1, code := t.code, busy := false } ∧
      (t.code = .ok ∨ (t.res0 = 0xFFFFFFFF ∧ (t.code = .exhausted ∨ t.code = .overrun))))

/-- 41_fibonacci.md R156: the number of bits a symbol takes, by how it ends. -/
def Obligations.SymbolBitBound : Prop :=
  ∀ (m : ReadMode) (s : State), 2 ≤ s.rom.fib.length →
    (decodeSym m s).bitsUsed ≤ s.rom.fib.length - 1 ∧
    ((decodeSym m s).code = .overrun → (decodeSym m s).bitsUsed = s.rom.fib.length - 1) ∧
    ((decodeSym m s).code = .exhausted → (decodeSym m s).bitsUsed + 2 ≤ s.rom.fib.length)

/-- Run-out supplies only zeros, so a symbol that decodes has used none (41_fibonacci.md R161). -/
def Obligations.RunoutNeverCompletesASymbol : Prop :=
  ∀ s : State, ∃ t, exec .fibDecode s = .next t ∧
    (t.code = .ok → t.runoutLeft = s.runoutLeft ∧ exec .fibTryDecode s = .next t)

/-- A decoded value stays below `Fib[FIB_LEN] - 1`, so it fits a register and is never the marker `-1` (41_fibonacci.md R170, R171). -/
def Obligations.DecodedValuesStayBelowTheTable : Prop :=
  ∀ (m : ReadMode) (s : State) (v : Nat), romOk s → (decodeSym m s).value = some v →
    v + 2 ≤ (fibRom (s.cfg.fibLen + 1)).getD s.cfg.fibLen 0 ∧ v < 2 ^ 32 - 1

/-- 41_fibonacci.md R173: two strings that decode, each used up by its symbol, to the same value are the same string. -/
def Obligations.DecodedStringsAreUnique : Prop :=
  ∀ (s t : State) (x y r q : BitString) (v : Nat), romOk s → t.rom = s.rom → readerOk s → readerOk t →
    unread s = x ++ r → unread t = y ++ q →
    (decodeSym .strict s).value = some v → (decodeSym .strict s).bitsUsed = x.length →
    (decodeSym .strict t).value = some v → (decodeSym .strict t).bitsUsed = y.length → x = y

/-! ## CodeTable -/

/-- TBL_FORWARD reads the two forward arrays at ARG0[7:0] and touches no stream (42_codetable.md R190). -/
def Obligations.TblForwardReadsTheForwardArrays : Prop :=
  ∀ s : State, exec .tblForward s = .next { s with
    res0 := s.rom.fwdPat.getD (s.arg0.toNat % 256) 0
    res1 := (s.rom.fwdLen.getD (s.arg0.toNat % 256) 0).setWidth 32
    code := .ok
    busy := false }

/-- TBL_BACKWARD reads the backward map at ARG0; an INVALID entry and a codepoint beyond the map complete with INVALID
(42_codetable.md R191). -/
def Obligations.TblBackwardReadsTheBackwardMap : Prop :=
  ∀ s : State,
    (∀ b, s.rom.back[s.arg0.toNat]? = some (some b) →
      exec .tblBackward s = .next { s with res0 := b.setWidth 32, code := .ok, busy := false }) ∧
    (s.rom.back[s.arg0.toNat]? = some none ∨ s.rom.back.length ≤ s.arg0.toNat →
      exec .tblBackward s = .next { s with res0 := 0xFFFFFFFF, code := .invalid, busy := false })

/-- 42_codetable.md R185: the invariants of the code table of every well-formed configuration. -/
def Obligations.CodeTableInvariants : Prop :=
  ∀ (cfg : Config) (r : Rom), cfg.wellFormed = true → romOf cfg = some r →
    (∀ (b : Byte) (s : State) (rest : BitString), s.rom = r → readerOk s →
      unread s = codewordBits (forwardWord r b) ++ rest →
      ∃ c, (decodeSym .strict s).value = some c ∧ backwardByte r c = some b) ∧
    (∀ c b, backwardByte r c = some b → fibCode r.fib c = some (codewordBits (forwardWord r b))) ∧
    (∀ b, 2 ≤ (forwardWord r b).length) ∧
    (∀ b, runLengthOk cfg (codewordBits (forwardWord r b)) = true) ∧
    (r.back.filter Option.isSome).length = 256 ∧ (∀ b : Byte, (r.back.filter (· = some b)).length = 1) ∧
    (∀ (j k : Nat) (b c : Byte), cfg.priority[j]? = some b → cfg.priority[k]? = some c → j ≤ k →
      (forwardWord r b).length ≤ (forwardWord r c).length)

/-- 42_codetable.md R187: the figures of the construction at REFCFG. -/
def Obligations.ReferenceTableFigures : Prop :=
  ((List.range 1024).filter (fun c => (fibCode refFib c).any (runLengthOk refCfg))).length = 588 ∧
  ((List.range 1024).filter (fun c => (fibCode refFib c).any (runLengthOk refCfg)))[255]? = some 420 ∧
  refRom.back.length = 421 ∧ (refRom.back.filter Option.isSome).length = 256 ∧
  (refRom.back.filter Option.isNone).length = 165 ∧
  [(2, 1, 0, 0), (3, 1, 1, 1), (4, 2, 2, 3), (5, 3, 4, 6), (6, 4, 8, 11), (7, 7, 13, 19), (8, 10, 22, 32), (9, 16, 36, 53),
    (10, 24, 59, 87), (11, 37, 97, 142), (12, 57, 157, 231), (13, 87, 255, 375), (14, 7, 413, 420)].all (fun row =>
      let cs := (List.range 421).filter fun c =>
        (backwardByte refRom c).isSome && ((fibCode refFib c).map List.length == some row.1)
      cs.length == row.2.1 && cs.head? == some row.2.2.1 && cs.getLast? == some row.2.2.2) = true

/-! ## FrameCodec -/

/-- FRM_ENCODE writes `Frame(P)` of the rest of IN and flushes; with cached bits it completes with ALIGN and changes nothing
else (43_framing.md R212). -/
def Obligations.FrmEncodeWritesTheFrame : Prop :=
  ∀ s : State, s.inp.length < 2 ^ 32 → s.inPos.toNat ≤ s.inp.length →
    (s.rdMask = 0 → ∃ t, exec .frmEncode s = .next t ∧
      t = { s with inPos := BitVec.ofNat 32 s.inp.length, wrByte := 0, wrCnt := 0, out := t.out, outCount := t.outCount,
                   res0 := BitVec.ofNat 32 (frameString s.rom (s.inp.drop s.inPos.toNat)).length,
                   res1 := BitVec.ofNat 32 (s.inp.length - s.inPos.toNat), code := .ok, busy := false } ∧
      s.out <+: t.out ∧ t.outCount = s.outCount + BitVec.ofNat 32 (t.out.length - s.out.length) ∧
      (writerOk s → t.out.flatMap byteBits =
        written s ++ frameString s.rom (s.inp.drop s.inPos.toNat) ++
          fillZeros (s.wrCnt.toNat + (frameString s.rom (s.inp.drop s.inPos.toNat)).length))) ∧
    (s.rdMask ≠ 0 → exec .frmEncode s = .next { s with code := .align, busy := false })

/-- 43_framing.md R214: at REFCFG the frame of any payload has no run of more than 4 zeros and none of more than 2 ones, and
with its padding no run of more than 8 zeros. -/
def Obligations.FramesAreRunLengthLimited : Prop :=
  ∀ p : List Byte,
    longestRun false 0 (frameString refRom p) ≤ 4 ∧ longestRun true 0 (frameString refRom p) ≤ 2 ∧
    ∀ k, k ≤ 7 → longestRun false 0 (frameString refRom p ++ List.replicate k false) ≤ 8

/-- 43_framing.md R240, first form: FRM_ENCODE writes what the host's WRITE_PATTERN and WRITE_BIT commands write, where every
codeword fits a WRITE_PATTERN. -/
def Obligations.FrmEncodeEqualsBitCommands : Prop :=
  ∀ s : State, s.rdMask = 0 → s.rom.head.length ≤ 32 → s.rom.foot.length ≤ 32 →
    (∀ b, (forwardWord s.rom b).length ≤ 32) →
    ∃ t u, exec .frmEncode s = .next t ∧ runCommands (frameCommands s.rom (s.inp.drop s.inPos.toNat)) s = .next u ∧
      u.out = t.out ∧ u.outCount = t.outCount ∧ u.wrByte = t.wrByte ∧ u.wrCnt = t.wrCnt

/-- FRM_DECODE with nothing pending in the writer completes with OK and its report: MSG_BITS the bits it read, RES0 the bytes it
appended, RUNOUT_LEFT untouched, IS_VALID as R232 says; with pending bits it completes with ALIGN and changes nothing else
(43_framing.md R220, R230 to R232). -/
def Obligations.FrmDecodeCompletesWithItsReport : Prop :=
  ∀ s : State, s.inp.length < 2 ^ 32 →
    (s.wrCnt = 0 → ∃ t, exec .frmDecode s = .next t ∧
      t = { s with inPos := t.inPos, rdByte := t.rdByte, rdMask := t.rdMask, bitsRead := s.bitsRead + t.msgBits,
                   out := t.out, outCount := s.outCount + t.res0, msg := t.msg, msgBits := t.msgBits,
                   res0 := BitVec.ofNat 32 (t.out.length - s.out.length), res1 := t.msgBits,
                   frame := none, code := .ok, busy := false } ∧
      s.out <+: t.out ∧
      t.msg.isValid = (decide (s.cfg.minValidBits ≤ t.msgBits.toNat) && t.msg.sawHeader && t.msg.sawFooter && t.msg.cleanData)) ∧
    (s.wrCnt ≠ 0 → exec .frmDecode s = .next { s with code := .align, busy := false })

/-- One LeadIn round over all states (43_framing.md R221, R223): a missing bit ends the scan, a bit enters the window, the match is
tested before the budget. -/
def Obligations.LeadInRoundFollowsTheRules : Prop :=
  ∀ (s : State) (f : FrameRegs), s.frame = some f →
    (getBitTry s = none →
      leadInRound s = (false, { s with frame := some { f with reason := .noheader, fstate := .error } })) ∧
    ∀ (b : Bool) (v : State) (g : FrameRegs), getBitTry s = some (b, v) →
      g = { f with leadn := f.leadn + 1, win := (2 * f.win + b.toNat) % 2 ^ s.cfg.windowBits } →
      (g.win % 2 ^ (s.rom.head.length + 1) = 2 * s.rom.head.pattern →
        leadInRound s = (false, { v with frame := some { g with sawHeader := true, fstate := .inMessage } })) ∧
      (g.win % 2 ^ (s.rom.head.length + 1) ≠ 2 * s.rom.head.pattern →
        (s.leadinLimit ≠ 0 ∧ s.leadinLimit.toNat ≤ g.leadn.toNat →
          leadInRound s = (false, { v with frame := some { g with reason := .deadline, fstate := .error } })) ∧
        (s.leadinLimit = 0 ∨ g.leadn.toNat < s.leadinLimit.toNat → leadInRound s = (true, { v with frame := some g })))

/-- One InMessage round over all states (43_framing.md R224 to R226, R228, R229). `c` is the symbol read, `v` the state after its pad
bit, `pad` that bit, `none` where IN has ended. A symbol that fails ends the message. A header before any byte is passed over, a later
one is a run-on; the footer ends the message; an assigned codepoint is emitted; any other clears C. A pad bit that is not 0 clears C
and ends a message that the symbol has not ended. -/
def Obligations.MessageRoundFollowsTheRules : Prop :=
  ∀ (s : State) (f : FrameRegs), s.frame = some f →
    ((decodeSym .strict s).value = none → messageRound s = (false, { (decodeSym .strict s).after with frame := some { f with
      reason := if (decodeSym .strict s).code = .overrun then .overrun else .exhausted, fstate := .error } })) ∧
    ∀ (c : Nat) (pad : Option Bool) (v : State) (bad : EndReason), (decodeSym .strict s).value = some c →
      getBitTry (decodeSym .strict s).after = pad.map (fun b => (b, v)) →
      (pad = none → v = (decodeSym .strict s).after) → bad = (if pad = some true then .pad else .exhausted) →
      (c = s.cfg.frameHead ∧ f.emitted = 0 →
        (pad = some false → messageRound s = (true, v)) ∧
        (pad ≠ some false → messageRound s =
          (false, { v with frame := some { f with clean := false, reason := bad, fstate := .error } }))) ∧
      (c = s.cfg.frameHead ∧ f.emitted ≠ 0 → messageRound s = (false, { v with frame := some { f with
        runOn := true, clean := f.clean && pad == some false, reason := .runon, fstate := .error } })) ∧
      (c ≠ s.cfg.frameHead ∧ c = s.cfg.frameFoot → messageRound s = (false, { v with frame := some { f with
        sawFooter := true, clean := f.clean && pad == some false, reason := .footer, fstate := .footer } })) ∧
      (∀ b : Byte, c ≠ s.cfg.frameHead ∧ c ≠ s.cfg.frameFoot ∧ s.rom.back[c]? = some (some b) →
        (pad = some false → messageRound s = (true, { v with
          out := v.out ++ [b], outCount := v.outCount + 1, frame := some { f with emitted := f.emitted + 1 } })) ∧
        (pad ≠ some false → messageRound s = (false, { v with
          out := v.out ++ [b], outCount := v.outCount + 1
          frame := some { f with emitted := f.emitted + 1, clean := false, reason := bad, fstate := .error } }))) ∧
      (c ≠ s.cfg.frameHead ∧ c ≠ s.cfg.frameFoot ∧ (s.rom.back[c]? = some none ∨ s.rom.back.length ≤ c) →
        (pad = some false → messageRound s = (true, { v with frame := some { f with clean := false } })) ∧
        (pad ≠ some false → messageRound s =
          (false, { v with frame := some { f with clean := false, reason := bad, fstate := .error } })))

/-- FRM_DECODE is LeadIn rounds until one ends the scan, then, behind a header, InMessage rounds until one ends the message, then the
report (43_framing.md R220, R231): the bounds `n` and `m` that suffice do not matter. -/
def Obligations.FrmDecodeRunsItsRounds : Prop :=
  ∀ (s u v : State) (n m : Nat) (f g : FrameRegs), s.inp.length < 2 ^ 32 → s.wrCnt = 0 →
    f = ⟨.leadIn, 0, 0, 0, false, false, false, true, .unset, s.bitsRead⟩ →
    loopUntil leadInRound n { s with frame := some f } = some u →
    (if (u.frame.map (·.fstate)) = some .inMessage then loopUntil messageRound m u = some v else v = u) →
    v.frame = some g →
    exec .frmDecode s = .next { v with
      msgBits := v.bitsRead - s.bitsRead
      msg := ⟨g.sawHeader, g.sawFooter, g.clean, g.runOn,
        decide (s.cfg.minValidBits ≤ (v.bitsRead - s.bitsRead).toNat) && g.sawHeader && g.sawFooter && g.clean, g.reason⟩
      res0 := g.emitted, res1 := v.bitsRead - s.bitsRead
      frame := none, code := .ok, busy := false }

/-- Inputs outside a clean frame, at reset: IN, what MSG_RESULT reads, MSG_BITS and OUT. A run-on; a second header before any byte;
an INVALID codepoint; one beyond the map; a bad pad behind a byte and behind the footer; a header without its first zeros; IN ended
inside a symbol and before a pad bit (43_framing.md R221 to R229). -/
def Obligations.DamagedFramesAtReset : Prop :=
  ∀ row ∈ ([([0x14, 0x86, 0x91, 0x85, 0x21, 0xA4, 0x65, 0x48, 0x60], 0x20D, 42, [0x41]),
      ([0x14, 0x86, 0x14, 0x86, 0x91, 0x95, 0x21, 0x80], 0x117, 58, [0x41]),
      ([0x14, 0x86, 0x0D, 0x23, 0x2A, 0x43, 0x00], 0x103, 49, [0x41]),
      ([0x14, 0x86, 0x29, 0x0D, 0x23, 0x2A, 0x43, 0x00], 0x103, 57, [0x41]),
      ([0x14, 0x86, 0x91, 0xD5, 0x21, 0x80], 0x301, 26, [0x41]),
      ([0x14, 0x86, 0x91, 0x95, 0x21, 0xC0], 0x103, 42, [0x41]),
      ([0xA4, 0x34, 0x8C, 0xA9, 0x0C], 0x117, 39, [0x41]),
      ([0x14, 0x86, 0x90], 0x405, 24, []),
      ([0x14, 0x86, 0x43], 0x401, 24, [0x66])] : List (List Byte × Word × Word × List Byte)),
    ∃ t, exec .frmDecode { State.reset with inp := row.1 } = .next t ∧
      readReg .msgResult t = row.2.1 ∧ t.msgBits = row.2.2.1 ∧ t.out = row.2.2.2

/-- How the end reason and the flags of a message agree (43_framing.md R227, R228, R232, R233). -/
def Obligations.EndReasonAgreesWithTheFlags : Prop :=
  ∀ s t : State, s.wrCnt = 0 → exec .frmDecode s = .next t →
    t.msg.reason ≠ .unset ∧
    (t.msg.sawFooter = true ↔ t.msg.reason = .footer) ∧
    (t.msg.runOn = true ↔ t.msg.reason = .runon) ∧
    (t.msg.sawHeader = false ↔ t.msg.reason = .noheader ∨ t.msg.reason = .deadline) ∧
    (t.msg.sawHeader = false → t.out = s.out ∧ t.msg.cleanData = true) ∧
    (t.msg.reason = .pad → t.msg.cleanData = false) ∧
    (t.msg.isValid = true → t.msg.reason = .footer ∧ t.msg.runOn = false)

/-- The lead-in budget bounds the scan: without a header no more than LIMIT bits are read, and exactly LIMIT where the budget
ended it (43_framing.md R221, R223). -/
def Obligations.LeadInBudgetBoundsTheScan : Prop :=
  ∀ s t : State, s.wrCnt = 0 → s.leadinLimit ≠ 0 → exec .frmDecode s = .next t →
    (t.msg.sawHeader = false → t.msgBits.toNat ≤ s.leadinLimit.toNat) ∧
    (t.msg.reason = .deadline → t.msgBits.toNat = s.leadinLimit.toNat)

/-- FRM_DECODE takes the first MSG_BITS bits of what is left of IN, and none behind them; with NOHEADER or EXHAUSTED it has
taken them all (43_framing.md R230, R239). -/
def Obligations.FrmDecodeTakesBitsFromTheFront : Prop :=
  ∀ s t : State, readerOk s → s.wrCnt = 0 → exec .frmDecode s = .next t →
    readerOk t ∧ (∃ x : BitString, unread s = x ++ unread t ∧ t.msgBits = BitVec.ofNat 32 x.length) ∧
    (t.msg.reason = .noheader ∨ t.msg.reason = .exhausted → unread t = [])

/-- An IN that is all read already: the frame decode ends with NOHEADER and has read nothing (43_framing.md R220, R233). -/
def Obligations.EmptyInputHasNoHeader : Prop :=
  ∀ s : State, readerOk s → unread s = [] → s.wrCnt = 0 →
    exec .frmDecode s = .next { s with
      res0 := 0, res1 := 0, msgBits := 0
      msg := ⟨false, false, true, false, false, .noheader⟩
      frame := none, code := .ok, busy := false }

/-- 43_framing.md R235 at REFCFG: the bytes that FRM_ENCODE writes for a payload decode, from a fresh reader, to the payload, and
the message is valid. The bound on the payload keeps the frame below 2^32 bits, beyond which MSG_BITS wraps. -/
def Obligations.FramingRoundTrip : Prop :=
  ∀ p : List Byte, p.length < 2 ^ 28 →
    ∃ t u, exec .frmEncode { State.reset with inp := p } = .next t ∧
      exec .frmDecode { State.reset with inp := t.out } = .next u ∧
      u.out = p ∧ u.res0 = BitVec.ofNat 32 p.length ∧
      u.msgBits = BitVec.ofNat 32 (frameString refRom p).length ∧
      u.msg = ⟨true, true, true, false, true, .footer⟩

/-- 43_framing.md R237 at REFCFG. A frame behind any number of bits of a constant or alternating fill, so at every bit phase, and
before any bits at all, decodes to its payload; the message is valid and what follows the frame stays unread. The same of the bytes
that FRM_ENCODE writes, between whole bytes. -/
def Obligations.LineFillDoesNotDisturbTheFrame : Prop :=
  ∀ (f : Byte) (n : Nat) (p : List Byte), f ∈ [(0x00 : Byte), 0xFF, 0xAA, 0x55] → p.length < 2 ^ 27 → n < 2 ^ 27 →
    (∀ (inp : List Byte) (rest : BitString), inp.length < 2 ^ 32 →
      inp.flatMap byteBits = (List.range n).map (fun k => f.getLsbD (7 - k % 8)) ++ frameString refRom p ++ rest →
      ∃ u, exec .frmDecode { State.reset with inp := inp } = .next u ∧
        u.out = p ∧ u.msgBits = BitVec.ofNat 32 (n + (frameString refRom p).length) ∧
        u.msg = ⟨true, true, true, false, true, .footer⟩ ∧ unread u = rest) ∧
    (∀ suffix : List Byte, suffix.length < 2 ^ 27 → ∃ t u,
      exec .frmEncode { State.reset with inp := p } = .next t ∧
      exec .frmDecode { State.reset with inp := List.replicate n f ++ t.out ++ suffix } = .next u ∧
      u.out = p ∧ u.msgBits = BitVec.ofNat 32 (8 * n + (frameString refRom p).length) ∧
      u.msg = ⟨true, true, true, false, true, .footer⟩)

/-- 43_framing.md R236: the empty frame at REFCFG is 32 bits, the bytes 14 86 54 86, and a valid message. -/
def Obligations.EmptyFrameIsValid : Prop :=
  frameString refRom [] = bits 0x14865486 32 ∧ refRom.head.length + refRom.foot.length + 2 = 32 ∧
  ∃ t u, exec .frmEncode State.reset = .next t ∧ t.out = [0x14, 0x86, 0x54, 0x86] ∧ t.res0 = 32 ∧
    exec .frmDecode { State.reset with inp := t.out } = .next u ∧ u.msgBits = 32 ∧ u.msg.isValid = true
end

