-- ==== Sys2Proof/Laws/Tables.lean ====
section
/-! SUPPORT. The tables: REFCFG is well-formed, its ROMs are those written out from the spec, and the strings of codewords. -/

namespace Sys2Proof.Machine

/-- The construction of 42_codetable.md R184 at REFCFG gives the tables of R188, R189 and R192, entry by entry. -/
theorem romOf_refCfg : romOf refCfg = some refRom := by decide +kernel

/-- REFCFG meets W1 to W8 (00_scope.md R9). -/
theorem refCfg_wellFormed : refCfg.wellFormed = true := by decide +kernel

@[simp] theorem bits_zero (p : Nat) : bits p 0 = [] := rfl

@[simp] theorem bits_succ (p l : Nat) : bits p (l + 1) = p.testBit l :: bits p l := rfl

@[simp] theorem bits_length (p l : Nat) : (bits p l).length = l := by
  induction l with
  | zero => rfl
  | succ l ih => simp [ih]

@[simp] theorem byteBits_length (b : Byte) : (byteBits b).length = 8 := bits_length _ _

/-- `stringValue` with a value already read. -/
theorem foldl_value (s : BitString) (a : Nat) :
    s.foldl (fun v b => 2 * v + b.toNat) a = a * 2 ^ s.length + stringValue s := by
  induction s generalizing a with
  | nil => simp [stringValue]
  | cons b s ih =>
    simp only [stringValue, List.foldl_cons, List.length_cons] at ih ⊢
    rw [ih, ih (2 * 0 + b.toNat), Nat.pow_succ]
    ring

theorem stringValue_cons (b : Bool) (s : BitString) :
    stringValue (b :: s) = b.toNat * 2 ^ s.length + stringValue s := by
  simp only [stringValue, List.foldl_cons]
  rw [foldl_value]
  simp [stringValue]

theorem stringValue_lt (s : BitString) : stringValue s < 2 ^ s.length := by
  induction s with
  | nil => simp [stringValue]
  | cons b s ih =>
    rw [stringValue_cons, List.length_cons, Nat.pow_succ]
    cases b <;> simp <;> omega

/-- The low bits of a number read the same under a multiple of a power above them. -/
theorem bits_add_mul (a p l k : Nat) (h : l ≤ k) : bits (a * 2 ^ k + p) l = bits p l := by
  induction l with
  | zero => rfl
  | succ l ih =>
    rw [bits_succ, bits_succ, ih (by omega)]
    congr 1
    have hl : ∀ x : Nat, x.testBit l = (x % 2 ^ k).testBit l := fun x => by
      simp [Nat.testBit_mod_two_pow, show l < k by omega]
    rw [hl (a * 2 ^ k + p), Nat.mul_add_mod', ← hl]

/-- `bits(pattern, length)` of a string's codeword is the string (00_scope.md R12; 41_fibonacci.md R152). -/
theorem bits_stringValue (s : BitString) : bits (stringValue s) s.length = s := by
  induction s with
  | nil => rfl
  | cons b s ih =>
    have hlt := stringValue_lt s
    rw [List.length_cons, bits_succ, stringValue_cons, bits_add_mul _ _ _ _ (le_refl _), ih]
    congr 1
    cases b
    · simpa using Nat.testBit_lt_two_pow hlt
    · simp [Nat.testBit_two_pow_add_eq, Nat.testBit_lt_two_pow hlt]

@[simp] theorem codewordBits_codewordOf (s : BitString) : codewordBits (codewordOf s) = s :=
  bits_stringValue s

/-- A string's codeword says the same as the string. -/
theorem codewordOf_length (s : BitString) : (codewordOf s).length = s.length := rfl

end Sys2Proof.Machine
end

