-- ==== Sys2Proof/Laws/Fibonacci.lean ====
section
/-! SUPPORT. The greedy walk of 41_fibonacci.md R152 over the Fibonacci terms: what `greedyDigits` and `fibCode` can give. -/

namespace Sys2Proof.Machine

/-- The sum of the terms whose digit is one, lowest first. -/
def digitSum : List Nat → BitString → Nat
  | f :: terms, d :: ds => d.toNat * f + digitSum terms ds
  | _, _ => 0

/-- No two ones stand side by side. -/
def noPair : BitString → Prop
  | a :: b :: rest => ¬ (a = true ∧ b = true) ∧ noPair (b :: rest)
  | _ => True

/-- The term after the `n` terms of `fibFrom n a b`. -/
def fibNext : Nat → Nat → Nat → Nat
  | 0, a, _ => a
  | n + 1, a, b => fibNext n b (a + b)

@[simp] theorem fibFrom_length (n a b : Nat) : (fibFrom n a b).length = n := by
  induction n generalizing a b with
  | zero => rfl
  | succ n ih => simp [fibFrom, ih]

/-- A term by its index. -/
theorem fibFrom_getElem? (n a b k : Nat) : (fibFrom n a b)[k]? = if k < n then some (fibNext k a b) else none := by
  induction n generalizing a b k with
  | zero => simp [fibFrom]
  | succ n ih =>
    cases k with
    | zero => simp [fibFrom, fibNext]
    | succ k => simp [fibFrom, fibNext, ih]

/-- A term of the ROM by its index (41_fibonacci.md R150). -/
theorem fibRom_getD {n k : Nat} (h : k < n) : (fibRom n).getD k 0 = fibNext k 0 1 := by
  rw [fibRom, List.getD_eq_getElem?_getD, fibFrom_getElem?, if_pos h, Option.getD_some]

theorem fibNext_succ_succ (n a b : Nat) : fibNext (n + 2) a b = fibNext n a b + fibNext (n + 1) a b := by
  induction n generalizing a b with
  | zero => simp [fibNext]
  | succ n ih => simpa [fibNext] using ih b (a + b)

/-- From a positive pair on the terms do not fall. -/
theorem fibNext_le_succ {a b : Nat} (h : a ≤ b) (n : Nat) : fibNext n a b ≤ fibNext (n + 1) a b := by
  induction n generalizing a b with
  | zero => simpa [fibNext] using h
  | succ n ih => simpa [fibNext] using ih (a := b) (b := a + b) (by omega)

theorem fibNext_mono {a b : Nat} (h : a ≤ b) {m n : Nat} (hmn : m ≤ n) : fibNext m a b ≤ fibNext n a b :=
  monotone_nat_of_le_succ (fibNext_le_succ h) hmn

/-- The terms that decoding and encoding use: `Fib[2..FIB_LEN-1]`. -/
theorem fibRom_drop_two (n : Nat) : (fibRom n).drop 2 = fibFrom (n - 2) 1 2 := by
  rcases n with _ | _ | n <;> rfl

/-- The terms that do not exceed `m` are the first ones, up to the first that does. -/
theorem fibFrom_takeWhile {a b : Nat} (h : a ≤ b) (n m : Nat) :
    ∃ j, j ≤ n ∧ (fibFrom n a b).takeWhile (· ≤ m) = fibFrom j a b ∧ (j < n → m < fibNext j a b) ∧
      (∀ i, i < j → fibNext i a b ≤ m) := by
  induction n generalizing a b with
  | zero => exact ⟨0, le_refl _, rfl, by omega, by omega⟩
  | succ n ih =>
    by_cases hm : a ≤ m
    · obtain ⟨j, hj, ht, hn, hi⟩ := ih (a := b) (b := a + b) (by omega)
      refine ⟨j + 1, by omega, by simp [fibFrom, hm, ht], fun h => hn (by omega), fun i hlt => ?_⟩
      cases i with
      | zero => exact hm
      | succ i => exact hi i (by omega)
    · exact ⟨0, by omega, by simp [fibFrom, hm], fun _ => by simpa [fibNext] using hm, by omega⟩

/-! ## The greedy walk -/

@[simp] theorem greedyDigits_nil (n : Nat) : greedyDigits [] n = (n, []) := rfl

theorem greedyDigits_cons (f : Nat) (terms : List Nat) (n : Nat) :
    greedyDigits (f :: terms) n =
      if f ≤ (greedyDigits terms n).1 then ((greedyDigits terms n).1 - f, true :: (greedyDigits terms n).2)
      else ((greedyDigits terms n).1, false :: (greedyDigits terms n).2) := rfl

@[simp] theorem greedyDigits_length (terms : List Nat) (n : Nat) : (greedyDigits terms n).2.length = terms.length := by
  induction terms with
  | nil => rfl
  | cons f terms ih =>
    rw [greedyDigits_cons]
    split <;> simp [ih]

/-- The digits taken and the residue left make up the number. -/
theorem greedyDigits_sum (terms : List Nat) (n : Nat) :
    digitSum terms (greedyDigits terms n).2 + (greedyDigits terms n).1 = n := by
  induction terms with
  | nil => simp [digitSum]
  | cons f terms ih =>
    rw [greedyDigits_cons]
    split <;> simp [digitSum] <;> omega

/-- Over consecutive Fibonacci terms the walk leaves less than the lowest term, never takes two neighbours, and where it takes the
lowest term it leaves less than the term below that one. -/
theorem greedyDigits_fib {k a b n : Nat} (hab : a ≤ b) (hba : b ≤ 2 * a) (hn : n < fibNext k a b) :
    (greedyDigits (fibFrom k a b) n).1 < a ∧
    ((greedyDigits (fibFrom k a b) n).2.head? = some true → (greedyDigits (fibFrom k a b) n).1 < b - a) ∧
    noPair (greedyDigits (fibFrom k a b) n).2 := by
  induction k generalizing a b with
  | zero => exact ⟨hn, by simp [fibFrom], trivial⟩
  | succ k ih =>
    obtain ⟨h1, h2, h3⟩ := ih (a := b) (b := a + b) (by omega) (by omega) hn
    rw [show fibFrom (k + 1) a b = a :: fibFrom k b (a + b) from rfl, greedyDigits_cons]
    generalize greedyDigits (fibFrom k b (a + b)) n = r at h1 h2 h3
    obtain ⟨res, ds⟩ := r
    simp only at h1 h2 h3 ⊢
    split
    · refine ⟨by simp only; omega, fun _ => by simp only; omega, ?_⟩
      cases ds with
      | nil => trivial
      | cons d ds =>
        refine ⟨fun hd => ?_, h3⟩
        have := h2 (by simp [hd.2])
        omega
    · refine ⟨by simp only; omega, by simp, ?_⟩
      cases ds with
      | nil => trivial
      | cons d ds => exact ⟨by simp, h3⟩

/-- The highest digit of a walk that starts at a number of at least the highest term is one. -/
theorem greedyDigits_last {terms : List Nat} {n f : Nat} (h : f ≤ n) :
    (greedyDigits (terms ++ [f]) n).2.getLast? = some true := by
  induction terms with
  | nil => simp [greedyDigits, h]
  | cons g terms ih =>
    rw [List.cons_append, greedyDigits_cons]
    have hne : (greedyDigits (terms ++ [f]) n).2 ≠ [] := by
      intro h0
      have := greedyDigits_length (terms ++ [f]) n
      rw [h0] at this
      simp at this
    split <;> simpa [List.getLast?_cons, List.getLast?_eq_some_getLast hne] using ih

/-- The terms of a longer run are those of a shorter one and the next. -/
theorem fibFrom_succ (n a b : Nat) : fibFrom (n + 1) a b = fibFrom n a b ++ [fibNext n a b] := by
  induction n generalizing a b with
  | zero => rfl
  | succ n ih => rw [fibFrom, ih b (a + b)]; rfl

/-- Everything `FibCode` says of a value in its domain (41_fibonacci.md R152, R153): the digits of `v + 1`, lowest first, with no
two ones side by side and the highest one, then the terminator. -/
theorem fibCode_spec {n v : Nat} {str : BitString} (hn : 4 ≤ n) (h : fibCode (fibRom n) v = some str) :
    ∃ ds : BitString, str = ds ++ [true] ∧ digitSum (fibFrom ds.length 1 2) ds = v + 1 ∧ noPair ds ∧
      ds.getLast? = some true ∧ ds.length + 3 ≤ n ∧
      fibNext (ds.length + 1) 0 1 ≤ v + 1 ∧ v + 1 < fibNext (ds.length + 2) 0 1 := by
  have hlast : (fibRom n).getD ((fibRom n).length - 1) 0 = fibNext (n - 1) 0 1 := by
    rw [show (fibRom n).length = n by simp [fibRom]]
    exact fibRom_getD (by omega)
  unfold fibCode at h
  rw [hlast, fibRom_drop_two] at h
  split at h
  case isFalse => cases h
  case isTrue hv =>
    obtain ⟨j, hj, ht, hn1, hi⟩ := fibFrom_takeWhile (a := 1) (b := 2) (by omega) (n - 2) (v + 1)
    have hidx : ∀ k, fibNext k 1 2 = fibNext (k + 2) 0 1 := fun k => rfl
    have hlt : v + 1 < fibNext j 1 2 := by
      by_cases hjn : j < n - 2
      · exact hn1 hjn
      · have hle := fibNext_mono (a := 0) (b := 1) (by omega) (show n - 1 ≤ j + 2 by omega)
        rw [hidx]
        omega
    have hj0 : j ≠ 0 := by
      rintro rfl
      simp [fibNext] at hlt
    have hjn : j + 3 ≤ n := by
      by_contra hc
      have h1 := hi (j - 1) (by omega)
      rw [hidx] at h1
      have h2 := fibNext_mono (a := 0) (b := 1) (by omega) (show n - 1 ≤ j - 1 + 2 by omega)
      omega
    rw [ht] at h
    obtain ⟨hres, -, hpair⟩ := greedyDigits_fib (k := j) (a := 1) (b := 2) (by omega) (by omega) hlt
    have hlen : (greedyDigits (fibFrom j 1 2) (v + 1)).2.length = j := by simp
    refine ⟨_, (Option.some.inj h).symm, ?_, hpair, ?_, by omega, ?_, ?_⟩
    · rw [hlen]
      have := greedyDigits_sum (fibFrom j 1 2) (v + 1)
      omega
    · obtain ⟨i, rfl⟩ : ∃ i, j = i + 1 := ⟨j - 1, by omega⟩
      rw [fibFrom_succ]
      exact greedyDigits_last (hi i (by omega))
    · rw [hlen]
      have h1 := hi (j - 1) (by omega)
      rwa [hidx, show j - 1 + 2 = j + 1 by omega] at h1
    · rw [hlen]
      exact hlt

/-- A value's code does not depend on how far the table goes beyond it. -/
theorem fibCode_longer {m n v : Nat} {str : BitString} (hm : 4 ≤ m) (hmn : m ≤ n) (h : fibCode (fibRom m) v = some str) :
    fibCode (fibRom n) v = some str := by
  have hlast : ∀ k, 4 ≤ k → (fibRom k).getD ((fibRom k).length - 1) 0 = fibNext (k - 1) 0 1 := fun k hk => by
    rw [show (fibRom k).length = k by simp [fibRom]]
    exact fibRom_getD (by omega)
  unfold fibCode at h ⊢
  rw [hlast m hm, fibRom_drop_two] at h
  rw [hlast n (by omega), fibRom_drop_two]
  split at h
  case isFalse => cases h
  case isTrue hv =>
    have hmono := fibNext_mono (a := 0) (b := 1) (by omega) (show m - 1 ≤ n - 1 by omega)
    rw [if_pos (by omega), ← h]
    obtain ⟨i, hi, hti, hni, hli⟩ := fibFrom_takeWhile (a := 1) (b := 2) (by omega) (m - 2) (v + 1)
    obtain ⟨j, hj, htj, hnj, hlj⟩ := fibFrom_takeWhile (a := 1) (b := 2) (by omega) (n - 2) (v + 1)
    have hidx : ∀ k, fibNext k 1 2 = fibNext (k + 2) 0 1 := fun k => rfl
    have hlast' : ∀ k, m - 2 ≤ k + 1 → v + 1 < fibNext k 1 2 := fun k hk => by
      have := fibNext_mono (a := 0) (b := 1) (by omega) (show m - 1 ≤ k + 2 by omega)
      rw [hidx]
      omega
    have hij : i = j := by
      rcases Nat.lt_trichotomy i j with hlt | heq | hgt
      · have h1 := hlj i hlt
        by_cases him : i < m - 2
        · have := hni him
          omega
        · have := hlast' i (by omega)
          omega
      · exact heq
      · have h1 := hli j hgt
        have := hnj (by omega)
        omega
    rw [hti, htj, hij]

end Sys2Proof.Machine
end

