-- ==== Sys2Proof/Laws/CodeTable.lean ====
section
/-! SUPPORT. The construction of the code table (42_codetable.md R184): everything `buildTable` can answer. -/

namespace Sys2Proof.Machine

/-- The codewords that go with the entries of a backward map whose first entry is codepoint `c`. -/
def wordsOf (fib : List Nat) : Nat → List (Option Byte) → List (Byte × Codeword)
  | _, [] => []
  | c, none :: back => wordsOf fib (c + 1) back
  | c, some b :: back => (b, codewordOf ((fibCode fib c).getD [])) :: wordsOf fib (c + 1) back

/-- The candidate loop: the assigned entries are the priority list in order, an entry is assigned exactly where its code meets the
run-length test, and the codewords are the codes of the assigned entries. -/
theorem assignFrom_spec {cfg : Config} {fib : List Nat} {n c : Nat} {prio : List Byte} {a : Assigned}
    (h : assignFrom cfg fib n c prio = some a) :
    a.back.filterMap id = prio ∧ a.words = wordsOf fib c a.back ∧ a.back.length ≤ n ∧
    ∀ (k : Nat) (o : Option Byte), a.back[k]? = some o →
      ∃ s, fibCode fib (c + k) = some s ∧ o.isSome = runLengthOk cfg s := by
  induction n generalizing c prio a with
  | zero =>
    cases prio with
    | nil => cases h; exact ⟨rfl, rfl, le_refl _, by simp⟩
    | cons b rest => cases h
  | succ n ih =>
    cases prio with
    | nil => cases h; exact ⟨rfl, rfl, by simp, by simp⟩
    | cons b rest =>
      simp only [assignFrom] at h
      split at h
      · cases h
      · next s hs =>
        split at h
        · next hrl =>
          obtain ⟨x, hx, rfl⟩ := Option.map_eq_some_iff.mp h
          obtain ⟨h1, h2, h3, h4⟩ := ih hx
          refine ⟨congrArg (b :: ·) h1, by simp [wordsOf, hs, h2], by simpa using h3, fun k o hk => ?_⟩
          cases k with
          | zero =>
            cases hk
            exact ⟨s, hs, by simp [hrl]⟩
          | succ k =>
            obtain ⟨t, ht, ho⟩ := h4 k o (by simpa using hk)
            exact ⟨t, by rw [← ht]; congr 1; omega, ho⟩
        · next hrl =>
          obtain ⟨x, hx, rfl⟩ := Option.map_eq_some_iff.mp h
          obtain ⟨h1, h2, h3, h4⟩ := ih hx
          refine ⟨h1, by simp [wordsOf, h2], by simpa using h3, fun k o hk => ?_⟩
          cases k with
          | zero =>
            cases hk
            exact ⟨s, hs, by simp [hrl]⟩
          | succ k =>
            obtain ⟨t, ht, ho⟩ := h4 k o (by simpa using hk)
            exact ⟨t, by rw [← ht]; congr 1; omega, ho⟩

/-- A byte's codeword is the code of a codepoint that the backward map assigns to it. -/
theorem mem_wordsOf {fib : List Nat} {c : Nat} {back : List (Option Byte)} {p : Byte × Codeword} (h : p ∈ wordsOf fib c back) :
    ∃ k, back[k]? = some (some p.1) ∧ p.2 = codewordOf ((fibCode fib (c + k)).getD []) := by
  induction back generalizing c with
  | nil => cases h
  | cons o back ih =>
    cases o with
    | none =>
      obtain ⟨k, h1, h2⟩ := ih h
      exact ⟨k + 1, by simpa using h1, by rw [h2, show c + 1 + k = c + (k + 1) by omega]⟩
    | some b =>
      rcases List.mem_cons.mp h with h | h
      · subst h
        exact ⟨0, rfl, rfl⟩
      · obtain ⟨k, h1, h2⟩ := ih h
        exact ⟨k + 1, by simpa using h1, by rw [h2, show c + 1 + k = c + (k + 1) by omega]⟩

/-- Every assigned entry has its codeword. -/
theorem wordsOf_mem {fib : List Nat} {c k : Nat} {back : List (Option Byte)} {b : Byte} (h : back[k]? = some (some b)) :
    (b, codewordOf ((fibCode fib (c + k)).getD [])) ∈ wordsOf fib c back := by
  induction back generalizing c k with
  | nil => simp at h
  | cons o back ih =>
    cases k with
    | zero =>
      cases h
      exact List.mem_cons_self
    | succ k =>
      have := ih (c := c + 1) (k := k) (by simpa using h)
      rw [show c + 1 + k = c + (k + 1) by omega] at this
      cases o with
      | none => exact this
      | some d => exact List.mem_cons_of_mem _ this

/-- The byte values in the order of their codewords. -/
theorem wordsOf_fst (fib : List Nat) (c : Nat) (back : List (Option Byte)) :
    (wordsOf fib c back).map Prod.fst = back.filterMap id := by
  induction back generalizing c with
  | nil => rfl
  | cons o back ih => cases o <;> simp [wordsOf, ih]

/-! ## Every codeword fits a forward pattern

`FWD_PAT` has 32 bits (10_state.md R43). The construction takes the shortest valid codes: already the codes without leading zeros and
with zero runs of at most two give more than 256 of at most 20 bits, and a limit below that leaves fewer than 256 codes in all. -/

theorem longestRun_mono (b : Bool) (s : BitString) : ∀ {c d : Nat}, c ≤ d → longestRun b c s ≤ longestRun b d s := by
  induction s with
  | nil => exact fun h => h
  | cons x s ih =>
    intro c d h
    unfold longestRun
    split
    · exact ih (by omega)
    · omega

theorem le_longestRun (b : Bool) (s : BitString) : ∀ c : Nat, c ≤ longestRun b c s := by
  induction s with
  | nil => exact fun c => le_refl c
  | cons x s ih =>
    intro c
    unfold longestRun
    split
    · exact le_trans (by omega) (ih (c + 1))
    · omega

/-- Two neighbours of one kind make a run of at least two. -/
theorem two_le_longestRun (b : Bool) (x y : BitString) : ∀ c : Nat, 2 ≤ longestRun b c (x ++ b :: b :: y) := by
  induction x with
  | nil =>
    intro c
    have := le_longestRun b y (c + 1 + 1)
    simp only [List.nil_append, longestRun, if_true]
    omega
  | cons a x ih =>
    intro c
    rw [List.cons_append]
    unfold longestRun
    split
    · exact ih (c + 1)
    · exact le_trans (ih 0) (le_max_right _ _)

/-- Ones and zeros in turn. -/
def alternating : Bool → Nat → BitString
  | _, 0 => []
  | b, n + 1 => b :: alternating (! b) n

/-- A string with no pair of ones and no pair of zeros is one of the two alternating strings of its length. -/
theorem eq_alternating {s : BitString} (h1 : noPair s) (h0 : ∀ x y, s ≠ x ++ false :: false :: y) :
    ∃ b, s = alternating b s.length := by
  induction s with
  | nil => exact ⟨true, rfl⟩
  | cons a s ih =>
    refine ⟨a, ?_⟩
    cases s with
    | nil => rfl
    | cons d s =>
      obtain ⟨b, hb⟩ := ih h1.2 (fun x y h => h0 (a :: x) y (by rw [h]; rfl))
      have hd : d = b := by
        rw [List.length_cons, alternating] at hb
        exact (List.cons.inj hb).1
      have ha : d = ! a := by
        cases a <;> cases d
        · exact absurd rfl (h0 [] s)
        · rfl
        · rfl
        · exact absurd ⟨rfl, rfl⟩ h1.1
      subst hd
      rw [List.length_cons, alternating, ← ha]
      exact congrArg (a :: ·) hb

/-- The places of the assigned entries, as many as there are. -/
theorem assigned_places {α : Type} (l : List (Option α)) :
    ((List.range l.length).filter (fun i => (l[i]?.join).isSome)).length = (l.filterMap id).length := by
  induction l using List.reverseRecOn with
  | nil => rfl
  | append_singleton l o ih =>
    rw [List.length_append, List.length_singleton, List.range_succ, List.filter_append, List.length_append,
      List.filterMap_append, List.length_append, ← ih]
    congr 1
    · congr 1
      apply List.filter_congr
      intro i hi
      rw [List.getElem?_append_left (List.mem_range.mp hi)]
    · cases o <;> simp

/-- Distinct places of assigned entries are no more than the assigned entries. -/
theorem places_le {α : Type} {l : List (Option α)} {places : List Nat} (hn : places.Nodup)
    (hp : ∀ i ∈ places, (l[i]?.join).isSome = true) : places.length ≤ (l.filterMap id).length := by
  rw [← assigned_places]
  refine (List.subperm_of_subset hn fun i hi => ?_).length_le
  have h := hp i hi
  refine List.mem_filter.mpr ⟨List.mem_range.mpr ?_, h⟩
  by_contra hlt
  rw [List.getElem?_eq_none (by omega)] at h
  cases h

/-- The digit strings of length `n` that begin and end with a one and whose ones stand two or three places apart. -/
def spacedDigits : Nat → Nat → List BitString
  | 0, _ => []
  | _, 0 => []
  | _ + 1, 1 => [[true]]
  | fuel + 1, n + 2 =>
    (spacedDigits fuel n).map (fun s => true :: false :: s) ++
      (match n with
        | 0 => []
        | k + 1 => (spacedDigits fuel k).map (fun s => true :: false :: false :: s))

/-- The values of the codes with those digits, up to 20 bits. -/
def spacedValues : List Nat :=
  ((List.range 20).flatMap (spacedDigits 20)).map (fun s => digitSum (fibFrom s.length 1 2) s - 1)

/-- The tightest limits that leave 256 codes. -/
def tightCfg : Config :=
  { refCfg with maxLeadZeros := 0, maxZeroRun := 2, maxOneRun := 2 }

theorem spacedValues_ok : spacedValues.Nodup ∧ 256 < spacedValues.length ∧
    ∀ v ∈ spacedValues, v < 10945 ∧ (fibCode (fibRom 47) v).any (runLengthOk tightCfg) = true := by decide +kernel

/-- The parts of the run-length test (42_codetable.md R182). -/
theorem runLengthOk_iff {c : Config} {s : BitString} : runLengthOk c s = true ↔
    (s.takeWhile (! ·)).length ≤ c.maxLeadZeros ∧ longestRun false 0 s ≤ c.maxZeroRun ∧ longestRun true 0 s ≤ c.maxOneRun := by
  simp [runLengthOk, and_assoc]

/-- Codepoints whose codes alternate are few. -/
theorem alternating_places {places : List Nat} (hn : places.Nodup)
    (hp : ∀ i ∈ places, ∃ b n, n < 48 ∧ i + 1 = digitSum (fibFrom n 1 2) (alternating b n)) : places.length ≤ 96 := by
  have hsub : places ⊆ (List.range 48).flatMap (fun n => [true, false].map fun b => digitSum (fibFrom n 1 2) (alternating b n) - 1) := by
    intro i hi
    obtain ⟨b, n, hlt, hs⟩ := hp i hi
    refine List.mem_flatMap.mpr ⟨n, List.mem_range.mpr hlt, List.mem_map.mpr ⟨b, by cases b <;> simp, by omega⟩⟩
  exact (List.subperm_of_subset hn hsub).length_le

/-- A legal construction tries no candidate of 10945 or more: an assigned codepoint is below that. -/
theorem assigned_lt {cfg : Config} {n : Nat} {a : Assigned} (hn : 4 ≤ n) (hn' : n ≤ 47)
    (h : assignFrom cfg (fibRom n) cfg.searchLimit 0 cfg.priority = some a) (hprio : cfg.priority.length = 256)
    {k : Nat} {b : Byte} (hk : a.back[k]? = some (some b)) : k < 10945 := by
  obtain ⟨hback, -, -, hent⟩ := assignFrom_spec h
  have hlen : (a.back.filterMap id).length = 256 := by rw [hback, hprio]
  have hent' : ∀ i, ((a.back[i]?.join).isSome) = true →
      ∃ s, fibCode (fibRom n) i = some s ∧ runLengthOk cfg s = true := by
    intro i hi
    cases ho : a.back[i]? with
    | none => rw [ho] at hi; cases hi
    | some o =>
      obtain ⟨s, hs, hrl⟩ := hent i o ho
      rw [ho] at hi
      exact ⟨s, by rwa [Nat.zero_add] at hs, by rw [← hrl]; simpa using hi⟩
  have hshape : ∀ i, ((a.back[i]?.join).isSome) = true → ∃ ds : BitString, fibCode (fibRom n) i = some (ds ++ [true]) ∧
      runLengthOk cfg (ds ++ [true]) = true ∧ digitSum (fibFrom ds.length 1 2) ds = i + 1 ∧ noPair ds ∧
      ds.getLast? = some true ∧ ds.length + 3 ≤ n := by
    intro i hi
    obtain ⟨s, hs, hrl⟩ := hent' i hi
    obtain ⟨ds, rfl, h1, h2, h3, h4, -⟩ := fibCode_spec hn hs
    exact ⟨ds, hs, hrl, h1, h2, h3, h4⟩
  by_contra hlt
  have hone : 2 ≤ cfg.maxOneRun := by
    obtain ⟨ds, -, hrl, -, -, hlast, -⟩ := hshape k (by rw [hk]; rfl)
    obtain ⟨d, rfl⟩ : ∃ d, ds = d ++ [true] := by
      rcases List.eq_nil_or_concat ds with rfl | ⟨d, x, rfl⟩
      · cases hlast
      · exact ⟨d, by simpa using hlast⟩
    have h2 := two_le_longestRun true d [] 0
    have h3 := (runLengthOk_iff.mp hrl).2.2
    rw [List.append_assoc] at h3
    exact le_trans h2 h3
  by_cases hzero : 2 ≤ cfg.maxZeroRun
  · obtain ⟨hnd, hmany, hval⟩ := spacedValues_ok
    have := places_le (l := a.back) hnd fun i hi => by
      obtain ⟨hi1, hi2⟩ := hval i hi
      have hilt : i < a.back.length := by
        have := (List.getElem?_eq_some_iff.mp hk).1
        omega
      obtain ⟨s, hs, hrl⟩ := hent i (a.back[i]) (List.getElem?_eq_getElem hilt)
      rw [Nat.zero_add] at hs
      rw [fibCode_longer hn hn' hs] at hi2
      have ht := runLengthOk_iff.mp (show runLengthOk tightCfg s = true from by simpa using hi2)
      have hok : runLengthOk cfg s = true := runLengthOk_iff.mpr
        ⟨le_trans ht.1 (Nat.zero_le _), le_trans ht.2.1 hzero, le_trans ht.2.2 hone⟩
      rw [hok] at hrl
      rw [List.getElem?_eq_getElem hilt]
      exact hrl
    omega
  · have := alternating_places (places := (List.range a.back.length).filter (fun i => (a.back[i]?.join).isSome))
      ((List.nodup_range).filter _) fun i hi => by
        obtain ⟨ds, -, hrl, hsum, hpair, -, hl⟩ := hshape i (List.mem_filter.mp hi).2
        have h0 : ∀ x y, ds ≠ x ++ false :: false :: y := by
          rintro x y rfl
          have h2 := two_le_longestRun false x (y ++ [true]) 0
          have h3 := (runLengthOk_iff.mp hrl).2.1
          simp only [List.append_assoc, List.cons_append] at h3
          omega
        obtain ⟨b, hb⟩ := eq_alternating hpair h0
        exact ⟨b, ds.length, by omega, by rw [← hsum, ← hb]⟩
    rw [assigned_places, hlen] at this
    omega

/-- Every assigned codeword of a legal construction has at most 20 bits. -/
theorem assigned_short {cfg : Config} {n : Nat} {a : Assigned} (hn : 4 ≤ n) (hn' : n ≤ 47)
    (h : assignFrom cfg (fibRom n) cfg.searchLimit 0 cfg.priority = some a) (hprio : cfg.priority.length = 256)
    {k : Nat} {b : Byte} (hk : a.back[k]? = some (some b)) {s : BitString} (hs : fibCode (fibRom n) k = some s) :
    s.length ≤ 20 := by
  have hlt := assigned_lt hn hn' h hprio hk
  obtain ⟨ds, rfl, -, -, -, -, hlow, -⟩ := fibCode_spec hn hs
  rw [List.length_append, List.length_singleton]
  by_contra hc
  have hmono := fibNext_mono (a := 0) (b := 1) (by omega) (show 21 ≤ ds.length + 1 by omega)
  have h21 : fibNext 21 0 1 = 10946 := by decide
  omega

/-- The ROMs of a configuration, part by part (10_state.md R43). -/
theorem romOf_parts {cfg : Config} {r : Rom} (h : romOf cfg = some r) :
    ∃ (a : Assigned) (hd ft : BitString), buildTable cfg = some a ∧ fibCode (fibRom cfg.fibLen) cfg.frameHead = some hd ∧
      fibCode (fibRom cfg.fibLen) cfg.frameFoot = some ft ∧ r.fib = fibRom cfg.fibLen ∧ r.back = a.back ∧
      r.head = codewordOf hd ∧ r.foot = codewordOf ft ∧
      ∀ b, forwardWord r b = ⟨(assignedWord a b).pattern % 2 ^ 32, (assignedWord a b).length % 2 ^ 6⟩ := by
  unfold romOf at h
  split at h
  · next a hd ft h1 h2 h3 =>
    cases h
    refine ⟨a, hd, ft, h1, h2, h3, rfl, rfl, rfl, rfl, fun b => ?_⟩
    have hb : b.toNat < 256 := b.isLt
    simp [forwardWord, allBytes, hb]
  · cases h

end Sys2Proof.Machine
end

