-- ==== Sys2Proof/Laws/State.lean ====
section
/-! SUPPORT. One lemma per field per update of the state, each true by computation, so that no proof unfolds a record. -/

namespace Sys2Proof.Machine

/-! ## finish -/

@[simp] theorem finish_arg0 (c : Code) (s : State) : (finish c s).arg0 = s.arg0 := rfl
@[simp] theorem finish_arg1 (c : Code) (s : State) : (finish c s).arg1 = s.arg1 := rfl
@[simp] theorem finish_res0 (c : Code) (s : State) : (finish c s).res0 = s.res0 := rfl
@[simp] theorem finish_res1 (c : Code) (s : State) : (finish c s).res1 = s.res1 := rfl
@[simp] theorem finish_busy (c : Code) (s : State) : (finish c s).busy = false := rfl
@[simp] theorem finish_code (c : Code) (s : State) : (finish c s).code = c := rfl
@[simp] theorem finish_runoutCfg (c : Code) (s : State) : (finish c s).runoutCfg = s.runoutCfg := rfl
@[simp] theorem finish_runoutLeft (c : Code) (s : State) : (finish c s).runoutLeft = s.runoutLeft := rfl
@[simp] theorem finish_leadinLimit (c : Code) (s : State) : (finish c s).leadinLimit = s.leadinLimit := rfl
@[simp] theorem finish_bitsRead (c : Code) (s : State) : (finish c s).bitsRead = s.bitsRead := rfl
@[simp] theorem finish_inPos (c : Code) (s : State) : (finish c s).inPos = s.inPos := rfl
@[simp] theorem finish_rdByte (c : Code) (s : State) : (finish c s).rdByte = s.rdByte := rfl
@[simp] theorem finish_rdMask (c : Code) (s : State) : (finish c s).rdMask = s.rdMask := rfl
@[simp] theorem finish_wrByte (c : Code) (s : State) : (finish c s).wrByte = s.wrByte := rfl
@[simp] theorem finish_wrCnt (c : Code) (s : State) : (finish c s).wrCnt = s.wrCnt := rfl
@[simp] theorem finish_outCount (c : Code) (s : State) : (finish c s).outCount = s.outCount := rfl
@[simp] theorem finish_msg (c : Code) (s : State) : (finish c s).msg = s.msg := rfl
@[simp] theorem finish_msgBits (c : Code) (s : State) : (finish c s).msgBits = s.msgBits := rfl
@[simp] theorem finish_frame (c : Code) (s : State) : (finish c s).frame = s.frame := rfl
@[simp] theorem finish_cfg (c : Code) (s : State) : (finish c s).cfg = s.cfg := rfl
@[simp] theorem finish_rom (c : Code) (s : State) : (finish c s).rom = s.rom := rfl
@[simp] theorem finish_inp (c : Code) (s : State) : (finish c s).inp = s.inp := rfl
@[simp] theorem finish_out (c : Code) (s : State) : (finish c s).out = s.out := rfl
@[simp] theorem finish_outPrior (c : Code) (s : State) : (finish c s).outPrior = s.outPrior := rfl
@[simp] theorem finish_host (c : Code) (s : State) : (finish c s).host = s.host := rfl
@[simp] theorem finish_hostReads (c : Code) (s : State) : (finish c s).hostReads = s.hostReads := rfl
@[simp] theorem finish_freeIx (c : Code) (s : State) : (finish c s).freeIx = s.freeIx := rfl

/-! ## setRes0 -/

@[simp] theorem setRes0_arg0 (v : Word) (s : State) : (setRes0 v s).arg0 = s.arg0 := rfl
@[simp] theorem setRes0_arg1 (v : Word) (s : State) : (setRes0 v s).arg1 = s.arg1 := rfl
@[simp] theorem setRes0_res0 (v : Word) (s : State) : (setRes0 v s).res0 = v := rfl
@[simp] theorem setRes0_res1 (v : Word) (s : State) : (setRes0 v s).res1 = s.res1 := rfl
@[simp] theorem setRes0_busy (v : Word) (s : State) : (setRes0 v s).busy = s.busy := rfl
@[simp] theorem setRes0_code (v : Word) (s : State) : (setRes0 v s).code = s.code := rfl
@[simp] theorem setRes0_runoutCfg (v : Word) (s : State) : (setRes0 v s).runoutCfg = s.runoutCfg := rfl
@[simp] theorem setRes0_runoutLeft (v : Word) (s : State) : (setRes0 v s).runoutLeft = s.runoutLeft := rfl
@[simp] theorem setRes0_leadinLimit (v : Word) (s : State) : (setRes0 v s).leadinLimit = s.leadinLimit := rfl
@[simp] theorem setRes0_bitsRead (v : Word) (s : State) : (setRes0 v s).bitsRead = s.bitsRead := rfl
@[simp] theorem setRes0_inPos (v : Word) (s : State) : (setRes0 v s).inPos = s.inPos := rfl
@[simp] theorem setRes0_rdByte (v : Word) (s : State) : (setRes0 v s).rdByte = s.rdByte := rfl
@[simp] theorem setRes0_rdMask (v : Word) (s : State) : (setRes0 v s).rdMask = s.rdMask := rfl
@[simp] theorem setRes0_wrByte (v : Word) (s : State) : (setRes0 v s).wrByte = s.wrByte := rfl
@[simp] theorem setRes0_wrCnt (v : Word) (s : State) : (setRes0 v s).wrCnt = s.wrCnt := rfl
@[simp] theorem setRes0_outCount (v : Word) (s : State) : (setRes0 v s).outCount = s.outCount := rfl
@[simp] theorem setRes0_msg (v : Word) (s : State) : (setRes0 v s).msg = s.msg := rfl
@[simp] theorem setRes0_msgBits (v : Word) (s : State) : (setRes0 v s).msgBits = s.msgBits := rfl
@[simp] theorem setRes0_frame (v : Word) (s : State) : (setRes0 v s).frame = s.frame := rfl
@[simp] theorem setRes0_cfg (v : Word) (s : State) : (setRes0 v s).cfg = s.cfg := rfl
@[simp] theorem setRes0_rom (v : Word) (s : State) : (setRes0 v s).rom = s.rom := rfl
@[simp] theorem setRes0_inp (v : Word) (s : State) : (setRes0 v s).inp = s.inp := rfl
@[simp] theorem setRes0_out (v : Word) (s : State) : (setRes0 v s).out = s.out := rfl
@[simp] theorem setRes0_outPrior (v : Word) (s : State) : (setRes0 v s).outPrior = s.outPrior := rfl
@[simp] theorem setRes0_host (v : Word) (s : State) : (setRes0 v s).host = s.host := rfl
@[simp] theorem setRes0_hostReads (v : Word) (s : State) : (setRes0 v s).hostReads = s.hostReads := rfl
@[simp] theorem setRes0_freeIx (v : Word) (s : State) : (setRes0 v s).freeIx = s.freeIx := rfl

/-! ## setResults -/

@[simp] theorem setResults_arg0 (v w : Word) (s : State) : (setResults v w s).arg0 = s.arg0 := rfl
@[simp] theorem setResults_arg1 (v w : Word) (s : State) : (setResults v w s).arg1 = s.arg1 := rfl
@[simp] theorem setResults_res0 (v w : Word) (s : State) : (setResults v w s).res0 = v := rfl
@[simp] theorem setResults_res1 (v w : Word) (s : State) : (setResults v w s).res1 = w := rfl
@[simp] theorem setResults_busy (v w : Word) (s : State) : (setResults v w s).busy = s.busy := rfl
@[simp] theorem setResults_code (v w : Word) (s : State) : (setResults v w s).code = s.code := rfl
@[simp] theorem setResults_runoutCfg (v w : Word) (s : State) : (setResults v w s).runoutCfg = s.runoutCfg := rfl
@[simp] theorem setResults_runoutLeft (v w : Word) (s : State) : (setResults v w s).runoutLeft = s.runoutLeft := rfl
@[simp] theorem setResults_leadinLimit (v w : Word) (s : State) : (setResults v w s).leadinLimit = s.leadinLimit := rfl
@[simp] theorem setResults_bitsRead (v w : Word) (s : State) : (setResults v w s).bitsRead = s.bitsRead := rfl
@[simp] theorem setResults_inPos (v w : Word) (s : State) : (setResults v w s).inPos = s.inPos := rfl
@[simp] theorem setResults_rdByte (v w : Word) (s : State) : (setResults v w s).rdByte = s.rdByte := rfl
@[simp] theorem setResults_rdMask (v w : Word) (s : State) : (setResults v w s).rdMask = s.rdMask := rfl
@[simp] theorem setResults_wrByte (v w : Word) (s : State) : (setResults v w s).wrByte = s.wrByte := rfl
@[simp] theorem setResults_wrCnt (v w : Word) (s : State) : (setResults v w s).wrCnt = s.wrCnt := rfl
@[simp] theorem setResults_outCount (v w : Word) (s : State) : (setResults v w s).outCount = s.outCount := rfl
@[simp] theorem setResults_msg (v w : Word) (s : State) : (setResults v w s).msg = s.msg := rfl
@[simp] theorem setResults_msgBits (v w : Word) (s : State) : (setResults v w s).msgBits = s.msgBits := rfl
@[simp] theorem setResults_frame (v w : Word) (s : State) : (setResults v w s).frame = s.frame := rfl
@[simp] theorem setResults_cfg (v w : Word) (s : State) : (setResults v w s).cfg = s.cfg := rfl
@[simp] theorem setResults_rom (v w : Word) (s : State) : (setResults v w s).rom = s.rom := rfl
@[simp] theorem setResults_inp (v w : Word) (s : State) : (setResults v w s).inp = s.inp := rfl
@[simp] theorem setResults_out (v w : Word) (s : State) : (setResults v w s).out = s.out := rfl
@[simp] theorem setResults_outPrior (v w : Word) (s : State) : (setResults v w s).outPrior = s.outPrior := rfl
@[simp] theorem setResults_host (v w : Word) (s : State) : (setResults v w s).host = s.host := rfl
@[simp] theorem setResults_hostReads (v w : Word) (s : State) : (setResults v w s).hostReads = s.hostReads := rfl
@[simp] theorem setResults_freeIx (v w : Word) (s : State) : (setResults v w s).freeIx = s.freeIx := rfl

/-! ## outAppend -/

@[simp] theorem outAppend_arg0 (b : Byte) (s : State) : (outAppend b s).arg0 = s.arg0 := rfl
@[simp] theorem outAppend_arg1 (b : Byte) (s : State) : (outAppend b s).arg1 = s.arg1 := rfl
@[simp] theorem outAppend_res0 (b : Byte) (s : State) : (outAppend b s).res0 = s.res0 := rfl
@[simp] theorem outAppend_res1 (b : Byte) (s : State) : (outAppend b s).res1 = s.res1 := rfl
@[simp] theorem outAppend_busy (b : Byte) (s : State) : (outAppend b s).busy = s.busy := rfl
@[simp] theorem outAppend_code (b : Byte) (s : State) : (outAppend b s).code = s.code := rfl
@[simp] theorem outAppend_runoutCfg (b : Byte) (s : State) : (outAppend b s).runoutCfg = s.runoutCfg := rfl
@[simp] theorem outAppend_runoutLeft (b : Byte) (s : State) : (outAppend b s).runoutLeft = s.runoutLeft := rfl
@[simp] theorem outAppend_leadinLimit (b : Byte) (s : State) : (outAppend b s).leadinLimit = s.leadinLimit := rfl
@[simp] theorem outAppend_bitsRead (b : Byte) (s : State) : (outAppend b s).bitsRead = s.bitsRead := rfl
@[simp] theorem outAppend_inPos (b : Byte) (s : State) : (outAppend b s).inPos = s.inPos := rfl
@[simp] theorem outAppend_rdByte (b : Byte) (s : State) : (outAppend b s).rdByte = s.rdByte := rfl
@[simp] theorem outAppend_rdMask (b : Byte) (s : State) : (outAppend b s).rdMask = s.rdMask := rfl
@[simp] theorem outAppend_wrByte (b : Byte) (s : State) : (outAppend b s).wrByte = s.wrByte := rfl
@[simp] theorem outAppend_wrCnt (b : Byte) (s : State) : (outAppend b s).wrCnt = s.wrCnt := rfl
@[simp] theorem outAppend_outCount (b : Byte) (s : State) : (outAppend b s).outCount = s.outCount + 1 := rfl
@[simp] theorem outAppend_msg (b : Byte) (s : State) : (outAppend b s).msg = s.msg := rfl
@[simp] theorem outAppend_msgBits (b : Byte) (s : State) : (outAppend b s).msgBits = s.msgBits := rfl
@[simp] theorem outAppend_frame (b : Byte) (s : State) : (outAppend b s).frame = s.frame := rfl
@[simp] theorem outAppend_cfg (b : Byte) (s : State) : (outAppend b s).cfg = s.cfg := rfl
@[simp] theorem outAppend_rom (b : Byte) (s : State) : (outAppend b s).rom = s.rom := rfl
@[simp] theorem outAppend_inp (b : Byte) (s : State) : (outAppend b s).inp = s.inp := rfl
@[simp] theorem outAppend_out (b : Byte) (s : State) : (outAppend b s).out = s.out ++ [b] := rfl
@[simp] theorem outAppend_outPrior (b : Byte) (s : State) : (outAppend b s).outPrior = s.outPrior := rfl
@[simp] theorem outAppend_host (b : Byte) (s : State) : (outAppend b s).host = s.host := rfl
@[simp] theorem outAppend_hostReads (b : Byte) (s : State) : (outAppend b s).hostReads = s.hostReads := rfl
@[simp] theorem outAppend_freeIx (b : Byte) (s : State) : (outAppend b s).freeIx = s.freeIx := rfl

/-! ## setWriter -/

@[simp] theorem setWriter_arg0 (b : Byte) (n : BitVec 3) (s : State) : (setWriter b n s).arg0 = s.arg0 := rfl
@[simp] theorem setWriter_arg1 (b : Byte) (n : BitVec 3) (s : State) : (setWriter b n s).arg1 = s.arg1 := rfl
@[simp] theorem setWriter_res0 (b : Byte) (n : BitVec 3) (s : State) : (setWriter b n s).res0 = s.res0 := rfl
@[simp] theorem setWriter_res1 (b : Byte) (n : BitVec 3) (s : State) : (setWriter b n s).res1 = s.res1 := rfl
@[simp] theorem setWriter_busy (b : Byte) (n : BitVec 3) (s : State) : (setWriter b n s).busy = s.busy := rfl
@[simp] theorem setWriter_code (b : Byte) (n : BitVec 3) (s : State) : (setWriter b n s).code = s.code := rfl
@[simp] theorem setWriter_runoutCfg (b : Byte) (n : BitVec 3) (s : State) : (setWriter b n s).runoutCfg = s.runoutCfg := rfl
@[simp] theorem setWriter_runoutLeft (b : Byte) (n : BitVec 3) (s : State) : (setWriter b n s).runoutLeft = s.runoutLeft := rfl
@[simp] theorem setWriter_leadinLimit (b : Byte) (n : BitVec 3) (s : State) : (setWriter b n s).leadinLimit = s.leadinLimit := rfl
@[simp] theorem setWriter_bitsRead (b : Byte) (n : BitVec 3) (s : State) : (setWriter b n s).bitsRead = s.bitsRead := rfl
@[simp] theorem setWriter_inPos (b : Byte) (n : BitVec 3) (s : State) : (setWriter b n s).inPos = s.inPos := rfl
@[simp] theorem setWriter_rdByte (b : Byte) (n : BitVec 3) (s : State) : (setWriter b n s).rdByte = s.rdByte := rfl
@[simp] theorem setWriter_rdMask (b : Byte) (n : BitVec 3) (s : State) : (setWriter b n s).rdMask = s.rdMask := rfl
@[simp] theorem setWriter_wrByte (b : Byte) (n : BitVec 3) (s : State) : (setWriter b n s).wrByte = b := rfl
@[simp] theorem setWriter_wrCnt (b : Byte) (n : BitVec 3) (s : State) : (setWriter b n s).wrCnt = n := rfl
@[simp] theorem setWriter_outCount (b : Byte) (n : BitVec 3) (s : State) : (setWriter b n s).outCount = s.outCount := rfl
@[simp] theorem setWriter_msg (b : Byte) (n : BitVec 3) (s : State) : (setWriter b n s).msg = s.msg := rfl
@[simp] theorem setWriter_msgBits (b : Byte) (n : BitVec 3) (s : State) : (setWriter b n s).msgBits = s.msgBits := rfl
@[simp] theorem setWriter_frame (b : Byte) (n : BitVec 3) (s : State) : (setWriter b n s).frame = s.frame := rfl
@[simp] theorem setWriter_cfg (b : Byte) (n : BitVec 3) (s : State) : (setWriter b n s).cfg = s.cfg := rfl
@[simp] theorem setWriter_rom (b : Byte) (n : BitVec 3) (s : State) : (setWriter b n s).rom = s.rom := rfl
@[simp] theorem setWriter_inp (b : Byte) (n : BitVec 3) (s : State) : (setWriter b n s).inp = s.inp := rfl
@[simp] theorem setWriter_out (b : Byte) (n : BitVec 3) (s : State) : (setWriter b n s).out = s.out := rfl
@[simp] theorem setWriter_outPrior (b : Byte) (n : BitVec 3) (s : State) : (setWriter b n s).outPrior = s.outPrior := rfl
@[simp] theorem setWriter_host (b : Byte) (n : BitVec 3) (s : State) : (setWriter b n s).host = s.host := rfl
@[simp] theorem setWriter_hostReads (b : Byte) (n : BitVec 3) (s : State) : (setWriter b n s).hostReads = s.hostReads := rfl
@[simp] theorem setWriter_freeIx (b : Byte) (n : BitVec 3) (s : State) : (setWriter b n s).freeIx = s.freeIx := rfl

/-! ## cacheByte -/

@[simp] theorem cacheByte_arg0 (b : Byte) (s : State) : (cacheByte b s).arg0 = s.arg0 := rfl
@[simp] theorem cacheByte_arg1 (b : Byte) (s : State) : (cacheByte b s).arg1 = s.arg1 := rfl
@[simp] theorem cacheByte_res0 (b : Byte) (s : State) : (cacheByte b s).res0 = s.res0 := rfl
@[simp] theorem cacheByte_res1 (b : Byte) (s : State) : (cacheByte b s).res1 = s.res1 := rfl
@[simp] theorem cacheByte_busy (b : Byte) (s : State) : (cacheByte b s).busy = s.busy := rfl
@[simp] theorem cacheByte_code (b : Byte) (s : State) : (cacheByte b s).code = s.code := rfl
@[simp] theorem cacheByte_runoutCfg (b : Byte) (s : State) : (cacheByte b s).runoutCfg = s.runoutCfg := rfl
@[simp] theorem cacheByte_runoutLeft (b : Byte) (s : State) : (cacheByte b s).runoutLeft = s.runoutLeft := rfl
@[simp] theorem cacheByte_leadinLimit (b : Byte) (s : State) : (cacheByte b s).leadinLimit = s.leadinLimit := rfl
@[simp] theorem cacheByte_bitsRead (b : Byte) (s : State) : (cacheByte b s).bitsRead = s.bitsRead := rfl
@[simp] theorem cacheByte_inPos (b : Byte) (s : State) : (cacheByte b s).inPos = s.inPos + 1 := rfl
@[simp] theorem cacheByte_rdByte (b : Byte) (s : State) : (cacheByte b s).rdByte = b := rfl
@[simp] theorem cacheByte_rdMask (b : Byte) (s : State) : (cacheByte b s).rdMask = 0x80 := rfl
@[simp] theorem cacheByte_wrByte (b : Byte) (s : State) : (cacheByte b s).wrByte = s.wrByte := rfl
@[simp] theorem cacheByte_wrCnt (b : Byte) (s : State) : (cacheByte b s).wrCnt = s.wrCnt := rfl
@[simp] theorem cacheByte_outCount (b : Byte) (s : State) : (cacheByte b s).outCount = s.outCount := rfl
@[simp] theorem cacheByte_msg (b : Byte) (s : State) : (cacheByte b s).msg = s.msg := rfl
@[simp] theorem cacheByte_msgBits (b : Byte) (s : State) : (cacheByte b s).msgBits = s.msgBits := rfl
@[simp] theorem cacheByte_frame (b : Byte) (s : State) : (cacheByte b s).frame = s.frame := rfl
@[simp] theorem cacheByte_cfg (b : Byte) (s : State) : (cacheByte b s).cfg = s.cfg := rfl
@[simp] theorem cacheByte_rom (b : Byte) (s : State) : (cacheByte b s).rom = s.rom := rfl
@[simp] theorem cacheByte_inp (b : Byte) (s : State) : (cacheByte b s).inp = s.inp := rfl
@[simp] theorem cacheByte_out (b : Byte) (s : State) : (cacheByte b s).out = s.out := rfl
@[simp] theorem cacheByte_outPrior (b : Byte) (s : State) : (cacheByte b s).outPrior = s.outPrior := rfl
@[simp] theorem cacheByte_host (b : Byte) (s : State) : (cacheByte b s).host = s.host := rfl
@[simp] theorem cacheByte_hostReads (b : Byte) (s : State) : (cacheByte b s).hostReads = s.hostReads := rfl
@[simp] theorem cacheByte_freeIx (b : Byte) (s : State) : (cacheByte b s).freeIx = s.freeIx := rfl

/-! ## shiftMask -/

@[simp] theorem shiftMask_arg0 (s : State) : (shiftMask s).arg0 = s.arg0 := rfl
@[simp] theorem shiftMask_arg1 (s : State) : (shiftMask s).arg1 = s.arg1 := rfl
@[simp] theorem shiftMask_res0 (s : State) : (shiftMask s).res0 = s.res0 := rfl
@[simp] theorem shiftMask_res1 (s : State) : (shiftMask s).res1 = s.res1 := rfl
@[simp] theorem shiftMask_busy (s : State) : (shiftMask s).busy = s.busy := rfl
@[simp] theorem shiftMask_code (s : State) : (shiftMask s).code = s.code := rfl
@[simp] theorem shiftMask_runoutCfg (s : State) : (shiftMask s).runoutCfg = s.runoutCfg := rfl
@[simp] theorem shiftMask_runoutLeft (s : State) : (shiftMask s).runoutLeft = s.runoutLeft := rfl
@[simp] theorem shiftMask_leadinLimit (s : State) : (shiftMask s).leadinLimit = s.leadinLimit := rfl
@[simp] theorem shiftMask_bitsRead (s : State) : (shiftMask s).bitsRead = s.bitsRead := rfl
@[simp] theorem shiftMask_inPos (s : State) : (shiftMask s).inPos = s.inPos := rfl
@[simp] theorem shiftMask_rdByte (s : State) : (shiftMask s).rdByte = s.rdByte := rfl
@[simp] theorem shiftMask_rdMask (s : State) : (shiftMask s).rdMask = s.rdMask >>> 1 := rfl
@[simp] theorem shiftMask_wrByte (s : State) : (shiftMask s).wrByte = s.wrByte := rfl
@[simp] theorem shiftMask_wrCnt (s : State) : (shiftMask s).wrCnt = s.wrCnt := rfl
@[simp] theorem shiftMask_outCount (s : State) : (shiftMask s).outCount = s.outCount := rfl
@[simp] theorem shiftMask_msg (s : State) : (shiftMask s).msg = s.msg := rfl
@[simp] theorem shiftMask_msgBits (s : State) : (shiftMask s).msgBits = s.msgBits := rfl
@[simp] theorem shiftMask_frame (s : State) : (shiftMask s).frame = s.frame := rfl
@[simp] theorem shiftMask_cfg (s : State) : (shiftMask s).cfg = s.cfg := rfl
@[simp] theorem shiftMask_rom (s : State) : (shiftMask s).rom = s.rom := rfl
@[simp] theorem shiftMask_inp (s : State) : (shiftMask s).inp = s.inp := rfl
@[simp] theorem shiftMask_out (s : State) : (shiftMask s).out = s.out := rfl
@[simp] theorem shiftMask_outPrior (s : State) : (shiftMask s).outPrior = s.outPrior := rfl
@[simp] theorem shiftMask_host (s : State) : (shiftMask s).host = s.host := rfl
@[simp] theorem shiftMask_hostReads (s : State) : (shiftMask s).hostReads = s.hostReads := rfl
@[simp] theorem shiftMask_freeIx (s : State) : (shiftMask s).freeIx = s.freeIx := rfl

/-! ## countBit -/

@[simp] theorem countBit_arg0 (s : State) : (countBit s).arg0 = s.arg0 := rfl
@[simp] theorem countBit_arg1 (s : State) : (countBit s).arg1 = s.arg1 := rfl
@[simp] theorem countBit_res0 (s : State) : (countBit s).res0 = s.res0 := rfl
@[simp] theorem countBit_res1 (s : State) : (countBit s).res1 = s.res1 := rfl
@[simp] theorem countBit_busy (s : State) : (countBit s).busy = s.busy := rfl
@[simp] theorem countBit_code (s : State) : (countBit s).code = s.code := rfl
@[simp] theorem countBit_runoutCfg (s : State) : (countBit s).runoutCfg = s.runoutCfg := rfl
@[simp] theorem countBit_runoutLeft (s : State) : (countBit s).runoutLeft = s.runoutLeft := rfl
@[simp] theorem countBit_leadinLimit (s : State) : (countBit s).leadinLimit = s.leadinLimit := rfl
@[simp] theorem countBit_bitsRead (s : State) : (countBit s).bitsRead = s.bitsRead + 1 := rfl
@[simp] theorem countBit_inPos (s : State) : (countBit s).inPos = s.inPos := rfl
@[simp] theorem countBit_rdByte (s : State) : (countBit s).rdByte = s.rdByte := rfl
@[simp] theorem countBit_rdMask (s : State) : (countBit s).rdMask = s.rdMask := rfl
@[simp] theorem countBit_wrByte (s : State) : (countBit s).wrByte = s.wrByte := rfl
@[simp] theorem countBit_wrCnt (s : State) : (countBit s).wrCnt = s.wrCnt := rfl
@[simp] theorem countBit_outCount (s : State) : (countBit s).outCount = s.outCount := rfl
@[simp] theorem countBit_msg (s : State) : (countBit s).msg = s.msg := rfl
@[simp] theorem countBit_msgBits (s : State) : (countBit s).msgBits = s.msgBits := rfl
@[simp] theorem countBit_frame (s : State) : (countBit s).frame = s.frame := rfl
@[simp] theorem countBit_cfg (s : State) : (countBit s).cfg = s.cfg := rfl
@[simp] theorem countBit_rom (s : State) : (countBit s).rom = s.rom := rfl
@[simp] theorem countBit_inp (s : State) : (countBit s).inp = s.inp := rfl
@[simp] theorem countBit_out (s : State) : (countBit s).out = s.out := rfl
@[simp] theorem countBit_outPrior (s : State) : (countBit s).outPrior = s.outPrior := rfl
@[simp] theorem countBit_host (s : State) : (countBit s).host = s.host := rfl
@[simp] theorem countBit_hostReads (s : State) : (countBit s).hostReads = s.hostReads := rfl
@[simp] theorem countBit_freeIx (s : State) : (countBit s).freeIx = s.freeIx := rfl

/-! ## useRunout -/

@[simp] theorem useRunout_arg0 (s : State) : (useRunout s).arg0 = s.arg0 := rfl
@[simp] theorem useRunout_arg1 (s : State) : (useRunout s).arg1 = s.arg1 := rfl
@[simp] theorem useRunout_res0 (s : State) : (useRunout s).res0 = s.res0 := rfl
@[simp] theorem useRunout_res1 (s : State) : (useRunout s).res1 = s.res1 := rfl
@[simp] theorem useRunout_busy (s : State) : (useRunout s).busy = s.busy := rfl
@[simp] theorem useRunout_code (s : State) : (useRunout s).code = s.code := rfl
@[simp] theorem useRunout_runoutCfg (s : State) : (useRunout s).runoutCfg = s.runoutCfg := rfl
@[simp] theorem useRunout_runoutLeft (s : State) : (useRunout s).runoutLeft = s.runoutLeft - 1 := rfl
@[simp] theorem useRunout_leadinLimit (s : State) : (useRunout s).leadinLimit = s.leadinLimit := rfl
@[simp] theorem useRunout_bitsRead (s : State) : (useRunout s).bitsRead = s.bitsRead := rfl
@[simp] theorem useRunout_inPos (s : State) : (useRunout s).inPos = s.inPos := rfl
@[simp] theorem useRunout_rdByte (s : State) : (useRunout s).rdByte = s.rdByte := rfl
@[simp] theorem useRunout_rdMask (s : State) : (useRunout s).rdMask = s.rdMask := rfl
@[simp] theorem useRunout_wrByte (s : State) : (useRunout s).wrByte = s.wrByte := rfl
@[simp] theorem useRunout_wrCnt (s : State) : (useRunout s).wrCnt = s.wrCnt := rfl
@[simp] theorem useRunout_outCount (s : State) : (useRunout s).outCount = s.outCount := rfl
@[simp] theorem useRunout_msg (s : State) : (useRunout s).msg = s.msg := rfl
@[simp] theorem useRunout_msgBits (s : State) : (useRunout s).msgBits = s.msgBits := rfl
@[simp] theorem useRunout_frame (s : State) : (useRunout s).frame = s.frame := rfl
@[simp] theorem useRunout_cfg (s : State) : (useRunout s).cfg = s.cfg := rfl
@[simp] theorem useRunout_rom (s : State) : (useRunout s).rom = s.rom := rfl
@[simp] theorem useRunout_inp (s : State) : (useRunout s).inp = s.inp := rfl
@[simp] theorem useRunout_out (s : State) : (useRunout s).out = s.out := rfl
@[simp] theorem useRunout_outPrior (s : State) : (useRunout s).outPrior = s.outPrior := rfl
@[simp] theorem useRunout_host (s : State) : (useRunout s).host = s.host := rfl
@[simp] theorem useRunout_hostReads (s : State) : (useRunout s).hostReads = s.hostReads := rfl
@[simp] theorem useRunout_freeIx (s : State) : (useRunout s).freeIx = s.freeIx := rfl

/-! ## rewindReader -/

@[simp] theorem rewindReader_arg0 (s : State) : (rewindReader s).arg0 = s.arg0 := rfl
@[simp] theorem rewindReader_arg1 (s : State) : (rewindReader s).arg1 = s.arg1 := rfl
@[simp] theorem rewindReader_res0 (s : State) : (rewindReader s).res0 = s.res0 := rfl
@[simp] theorem rewindReader_res1 (s : State) : (rewindReader s).res1 = s.res1 := rfl
@[simp] theorem rewindReader_busy (s : State) : (rewindReader s).busy = s.busy := rfl
@[simp] theorem rewindReader_code (s : State) : (rewindReader s).code = s.code := rfl
@[simp] theorem rewindReader_runoutCfg (s : State) : (rewindReader s).runoutCfg = s.runoutCfg := rfl
@[simp] theorem rewindReader_runoutLeft (s : State) : (rewindReader s).runoutLeft = s.runoutCfg := rfl
@[simp] theorem rewindReader_leadinLimit (s : State) : (rewindReader s).leadinLimit = s.leadinLimit := rfl
@[simp] theorem rewindReader_bitsRead (s : State) : (rewindReader s).bitsRead = 0 := rfl
@[simp] theorem rewindReader_inPos (s : State) : (rewindReader s).inPos = 0 := rfl
@[simp] theorem rewindReader_rdByte (s : State) : (rewindReader s).rdByte = 0 := rfl
@[simp] theorem rewindReader_rdMask (s : State) : (rewindReader s).rdMask = 0 := rfl
@[simp] theorem rewindReader_wrByte (s : State) : (rewindReader s).wrByte = s.wrByte := rfl
@[simp] theorem rewindReader_wrCnt (s : State) : (rewindReader s).wrCnt = s.wrCnt := rfl
@[simp] theorem rewindReader_outCount (s : State) : (rewindReader s).outCount = s.outCount := rfl
@[simp] theorem rewindReader_msg (s : State) : (rewindReader s).msg = s.msg := rfl
@[simp] theorem rewindReader_msgBits (s : State) : (rewindReader s).msgBits = s.msgBits := rfl
@[simp] theorem rewindReader_frame (s : State) : (rewindReader s).frame = s.frame := rfl
@[simp] theorem rewindReader_cfg (s : State) : (rewindReader s).cfg = s.cfg := rfl
@[simp] theorem rewindReader_rom (s : State) : (rewindReader s).rom = s.rom := rfl
@[simp] theorem rewindReader_inp (s : State) : (rewindReader s).inp = s.inp := rfl
@[simp] theorem rewindReader_out (s : State) : (rewindReader s).out = s.out := rfl
@[simp] theorem rewindReader_outPrior (s : State) : (rewindReader s).outPrior = s.outPrior := rfl
@[simp] theorem rewindReader_host (s : State) : (rewindReader s).host = s.host := rfl
@[simp] theorem rewindReader_hostReads (s : State) : (rewindReader s).hostReads = s.hostReads := rfl
@[simp] theorem rewindReader_freeIx (s : State) : (rewindReader s).freeIx = s.freeIx := rfl

/-! ## takeByte -/

@[simp] theorem takeByte_arg0 (s : State) : (takeByte s).arg0 = s.arg0 := rfl
@[simp] theorem takeByte_arg1 (s : State) : (takeByte s).arg1 = s.arg1 := rfl
@[simp] theorem takeByte_res0 (s : State) : (takeByte s).res0 = s.res0 := rfl
@[simp] theorem takeByte_res1 (s : State) : (takeByte s).res1 = s.res1 := rfl
@[simp] theorem takeByte_busy (s : State) : (takeByte s).busy = s.busy := rfl
@[simp] theorem takeByte_code (s : State) : (takeByte s).code = s.code := rfl
@[simp] theorem takeByte_runoutCfg (s : State) : (takeByte s).runoutCfg = s.runoutCfg := rfl
@[simp] theorem takeByte_runoutLeft (s : State) : (takeByte s).runoutLeft = s.runoutLeft := rfl
@[simp] theorem takeByte_leadinLimit (s : State) : (takeByte s).leadinLimit = s.leadinLimit := rfl
@[simp] theorem takeByte_bitsRead (s : State) : (takeByte s).bitsRead = s.bitsRead := rfl
@[simp] theorem takeByte_inPos (s : State) : (takeByte s).inPos = s.inPos + 1 := rfl
@[simp] theorem takeByte_rdByte (s : State) : (takeByte s).rdByte = s.rdByte := rfl
@[simp] theorem takeByte_rdMask (s : State) : (takeByte s).rdMask = s.rdMask := rfl
@[simp] theorem takeByte_wrByte (s : State) : (takeByte s).wrByte = s.wrByte := rfl
@[simp] theorem takeByte_wrCnt (s : State) : (takeByte s).wrCnt = s.wrCnt := rfl
@[simp] theorem takeByte_outCount (s : State) : (takeByte s).outCount = s.outCount := rfl
@[simp] theorem takeByte_msg (s : State) : (takeByte s).msg = s.msg := rfl
@[simp] theorem takeByte_msgBits (s : State) : (takeByte s).msgBits = s.msgBits := rfl
@[simp] theorem takeByte_frame (s : State) : (takeByte s).frame = s.frame := rfl
@[simp] theorem takeByte_cfg (s : State) : (takeByte s).cfg = s.cfg := rfl
@[simp] theorem takeByte_rom (s : State) : (takeByte s).rom = s.rom := rfl
@[simp] theorem takeByte_inp (s : State) : (takeByte s).inp = s.inp := rfl
@[simp] theorem takeByte_out (s : State) : (takeByte s).out = s.out := rfl
@[simp] theorem takeByte_outPrior (s : State) : (takeByte s).outPrior = s.outPrior := rfl
@[simp] theorem takeByte_host (s : State) : (takeByte s).host = s.host := rfl
@[simp] theorem takeByte_hostReads (s : State) : (takeByte s).hostReads = s.hostReads := rfl
@[simp] theorem takeByte_freeIx (s : State) : (takeByte s).freeIx = s.freeIx := rfl

/-! ## setFrame -/

@[simp] theorem setFrame_arg0 (f : FrameRegs) (s : State) : (setFrame f s).arg0 = s.arg0 := rfl
@[simp] theorem setFrame_arg1 (f : FrameRegs) (s : State) : (setFrame f s).arg1 = s.arg1 := rfl
@[simp] theorem setFrame_res0 (f : FrameRegs) (s : State) : (setFrame f s).res0 = s.res0 := rfl
@[simp] theorem setFrame_res1 (f : FrameRegs) (s : State) : (setFrame f s).res1 = s.res1 := rfl
@[simp] theorem setFrame_busy (f : FrameRegs) (s : State) : (setFrame f s).busy = s.busy := rfl
@[simp] theorem setFrame_code (f : FrameRegs) (s : State) : (setFrame f s).code = s.code := rfl
@[simp] theorem setFrame_runoutCfg (f : FrameRegs) (s : State) : (setFrame f s).runoutCfg = s.runoutCfg := rfl
@[simp] theorem setFrame_runoutLeft (f : FrameRegs) (s : State) : (setFrame f s).runoutLeft = s.runoutLeft := rfl
@[simp] theorem setFrame_leadinLimit (f : FrameRegs) (s : State) : (setFrame f s).leadinLimit = s.leadinLimit := rfl
@[simp] theorem setFrame_bitsRead (f : FrameRegs) (s : State) : (setFrame f s).bitsRead = s.bitsRead := rfl
@[simp] theorem setFrame_inPos (f : FrameRegs) (s : State) : (setFrame f s).inPos = s.inPos := rfl
@[simp] theorem setFrame_rdByte (f : FrameRegs) (s : State) : (setFrame f s).rdByte = s.rdByte := rfl
@[simp] theorem setFrame_rdMask (f : FrameRegs) (s : State) : (setFrame f s).rdMask = s.rdMask := rfl
@[simp] theorem setFrame_wrByte (f : FrameRegs) (s : State) : (setFrame f s).wrByte = s.wrByte := rfl
@[simp] theorem setFrame_wrCnt (f : FrameRegs) (s : State) : (setFrame f s).wrCnt = s.wrCnt := rfl
@[simp] theorem setFrame_outCount (f : FrameRegs) (s : State) : (setFrame f s).outCount = s.outCount := rfl
@[simp] theorem setFrame_msg (f : FrameRegs) (s : State) : (setFrame f s).msg = s.msg := rfl
@[simp] theorem setFrame_msgBits (f : FrameRegs) (s : State) : (setFrame f s).msgBits = s.msgBits := rfl
@[simp] theorem setFrame_frame (f : FrameRegs) (s : State) : (setFrame f s).frame = some f := rfl
@[simp] theorem setFrame_cfg (f : FrameRegs) (s : State) : (setFrame f s).cfg = s.cfg := rfl
@[simp] theorem setFrame_rom (f : FrameRegs) (s : State) : (setFrame f s).rom = s.rom := rfl
@[simp] theorem setFrame_inp (f : FrameRegs) (s : State) : (setFrame f s).inp = s.inp := rfl
@[simp] theorem setFrame_out (f : FrameRegs) (s : State) : (setFrame f s).out = s.out := rfl
@[simp] theorem setFrame_outPrior (f : FrameRegs) (s : State) : (setFrame f s).outPrior = s.outPrior := rfl
@[simp] theorem setFrame_host (f : FrameRegs) (s : State) : (setFrame f s).host = s.host := rfl
@[simp] theorem setFrame_hostReads (f : FrameRegs) (s : State) : (setFrame f s).hostReads = s.hostReads := rfl
@[simp] theorem setFrame_freeIx (f : FrameRegs) (s : State) : (setFrame f s).freeIx = s.freeIx := rfl

/-! ## releaseFrame -/

@[simp] theorem releaseFrame_arg0 (s : State) : (releaseFrame s).arg0 = s.arg0 := rfl
@[simp] theorem releaseFrame_arg1 (s : State) : (releaseFrame s).arg1 = s.arg1 := rfl
@[simp] theorem releaseFrame_res0 (s : State) : (releaseFrame s).res0 = s.res0 := rfl
@[simp] theorem releaseFrame_res1 (s : State) : (releaseFrame s).res1 = s.res1 := rfl
@[simp] theorem releaseFrame_busy (s : State) : (releaseFrame s).busy = s.busy := rfl
@[simp] theorem releaseFrame_code (s : State) : (releaseFrame s).code = s.code := rfl
@[simp] theorem releaseFrame_runoutCfg (s : State) : (releaseFrame s).runoutCfg = s.runoutCfg := rfl
@[simp] theorem releaseFrame_runoutLeft (s : State) : (releaseFrame s).runoutLeft = s.runoutLeft := rfl
@[simp] theorem releaseFrame_leadinLimit (s : State) : (releaseFrame s).leadinLimit = s.leadinLimit := rfl
@[simp] theorem releaseFrame_bitsRead (s : State) : (releaseFrame s).bitsRead = s.bitsRead := rfl
@[simp] theorem releaseFrame_inPos (s : State) : (releaseFrame s).inPos = s.inPos := rfl
@[simp] theorem releaseFrame_rdByte (s : State) : (releaseFrame s).rdByte = s.rdByte := rfl
@[simp] theorem releaseFrame_rdMask (s : State) : (releaseFrame s).rdMask = s.rdMask := rfl
@[simp] theorem releaseFrame_wrByte (s : State) : (releaseFrame s).wrByte = s.wrByte := rfl
@[simp] theorem releaseFrame_wrCnt (s : State) : (releaseFrame s).wrCnt = s.wrCnt := rfl
@[simp] theorem releaseFrame_outCount (s : State) : (releaseFrame s).outCount = s.outCount := rfl
@[simp] theorem releaseFrame_msg (s : State) : (releaseFrame s).msg = s.msg := rfl
@[simp] theorem releaseFrame_msgBits (s : State) : (releaseFrame s).msgBits = s.msgBits := rfl
@[simp] theorem releaseFrame_frame (s : State) : (releaseFrame s).frame = none := rfl
@[simp] theorem releaseFrame_cfg (s : State) : (releaseFrame s).cfg = s.cfg := rfl
@[simp] theorem releaseFrame_rom (s : State) : (releaseFrame s).rom = s.rom := rfl
@[simp] theorem releaseFrame_inp (s : State) : (releaseFrame s).inp = s.inp := rfl
@[simp] theorem releaseFrame_out (s : State) : (releaseFrame s).out = s.out := rfl
@[simp] theorem releaseFrame_outPrior (s : State) : (releaseFrame s).outPrior = s.outPrior := rfl
@[simp] theorem releaseFrame_host (s : State) : (releaseFrame s).host = s.host := rfl
@[simp] theorem releaseFrame_hostReads (s : State) : (releaseFrame s).hostReads = s.hostReads := rfl
@[simp] theorem releaseFrame_freeIx (s : State) : (releaseFrame s).freeIx = s.freeIx := rfl

/-! ## setBusy -/

@[simp] theorem setBusy_arg0 (s : State) : (setBusy s).arg0 = s.arg0 := rfl
@[simp] theorem setBusy_arg1 (s : State) : (setBusy s).arg1 = s.arg1 := rfl
@[simp] theorem setBusy_res0 (s : State) : (setBusy s).res0 = s.res0 := rfl
@[simp] theorem setBusy_res1 (s : State) : (setBusy s).res1 = s.res1 := rfl
@[simp] theorem setBusy_busy (s : State) : (setBusy s).busy = true := rfl
@[simp] theorem setBusy_code (s : State) : (setBusy s).code = s.code := rfl
@[simp] theorem setBusy_runoutCfg (s : State) : (setBusy s).runoutCfg = s.runoutCfg := rfl
@[simp] theorem setBusy_runoutLeft (s : State) : (setBusy s).runoutLeft = s.runoutLeft := rfl
@[simp] theorem setBusy_leadinLimit (s : State) : (setBusy s).leadinLimit = s.leadinLimit := rfl
@[simp] theorem setBusy_bitsRead (s : State) : (setBusy s).bitsRead = s.bitsRead := rfl
@[simp] theorem setBusy_inPos (s : State) : (setBusy s).inPos = s.inPos := rfl
@[simp] theorem setBusy_rdByte (s : State) : (setBusy s).rdByte = s.rdByte := rfl
@[simp] theorem setBusy_rdMask (s : State) : (setBusy s).rdMask = s.rdMask := rfl
@[simp] theorem setBusy_wrByte (s : State) : (setBusy s).wrByte = s.wrByte := rfl
@[simp] theorem setBusy_wrCnt (s : State) : (setBusy s).wrCnt = s.wrCnt := rfl
@[simp] theorem setBusy_outCount (s : State) : (setBusy s).outCount = s.outCount := rfl
@[simp] theorem setBusy_msg (s : State) : (setBusy s).msg = s.msg := rfl
@[simp] theorem setBusy_msgBits (s : State) : (setBusy s).msgBits = s.msgBits := rfl
@[simp] theorem setBusy_frame (s : State) : (setBusy s).frame = s.frame := rfl
@[simp] theorem setBusy_cfg (s : State) : (setBusy s).cfg = s.cfg := rfl
@[simp] theorem setBusy_rom (s : State) : (setBusy s).rom = s.rom := rfl
@[simp] theorem setBusy_inp (s : State) : (setBusy s).inp = s.inp := rfl
@[simp] theorem setBusy_out (s : State) : (setBusy s).out = s.out := rfl
@[simp] theorem setBusy_outPrior (s : State) : (setBusy s).outPrior = s.outPrior := rfl
@[simp] theorem setBusy_host (s : State) : (setBusy s).host = s.host := rfl
@[simp] theorem setBusy_hostReads (s : State) : (setBusy s).hostReads = s.hostReads := rfl
@[simp] theorem setBusy_freeIx (s : State) : (setBusy s).freeIx = s.freeIx := rfl

/-! ## recordRead -/

@[simp] theorem recordRead_arg0 (v : Word) (s : State) : (recordRead v s).arg0 = s.arg0 := rfl
@[simp] theorem recordRead_arg1 (v : Word) (s : State) : (recordRead v s).arg1 = s.arg1 := rfl
@[simp] theorem recordRead_res0 (v : Word) (s : State) : (recordRead v s).res0 = s.res0 := rfl
@[simp] theorem recordRead_res1 (v : Word) (s : State) : (recordRead v s).res1 = s.res1 := rfl
@[simp] theorem recordRead_busy (v : Word) (s : State) : (recordRead v s).busy = s.busy := rfl
@[simp] theorem recordRead_code (v : Word) (s : State) : (recordRead v s).code = s.code := rfl
@[simp] theorem recordRead_runoutCfg (v : Word) (s : State) : (recordRead v s).runoutCfg = s.runoutCfg := rfl
@[simp] theorem recordRead_runoutLeft (v : Word) (s : State) : (recordRead v s).runoutLeft = s.runoutLeft := rfl
@[simp] theorem recordRead_leadinLimit (v : Word) (s : State) : (recordRead v s).leadinLimit = s.leadinLimit := rfl
@[simp] theorem recordRead_bitsRead (v : Word) (s : State) : (recordRead v s).bitsRead = s.bitsRead := rfl
@[simp] theorem recordRead_inPos (v : Word) (s : State) : (recordRead v s).inPos = s.inPos := rfl
@[simp] theorem recordRead_rdByte (v : Word) (s : State) : (recordRead v s).rdByte = s.rdByte := rfl
@[simp] theorem recordRead_rdMask (v : Word) (s : State) : (recordRead v s).rdMask = s.rdMask := rfl
@[simp] theorem recordRead_wrByte (v : Word) (s : State) : (recordRead v s).wrByte = s.wrByte := rfl
@[simp] theorem recordRead_wrCnt (v : Word) (s : State) : (recordRead v s).wrCnt = s.wrCnt := rfl
@[simp] theorem recordRead_outCount (v : Word) (s : State) : (recordRead v s).outCount = s.outCount := rfl
@[simp] theorem recordRead_msg (v : Word) (s : State) : (recordRead v s).msg = s.msg := rfl
@[simp] theorem recordRead_msgBits (v : Word) (s : State) : (recordRead v s).msgBits = s.msgBits := rfl
@[simp] theorem recordRead_frame (v : Word) (s : State) : (recordRead v s).frame = s.frame := rfl
@[simp] theorem recordRead_cfg (v : Word) (s : State) : (recordRead v s).cfg = s.cfg := rfl
@[simp] theorem recordRead_rom (v : Word) (s : State) : (recordRead v s).rom = s.rom := rfl
@[simp] theorem recordRead_inp (v : Word) (s : State) : (recordRead v s).inp = s.inp := rfl
@[simp] theorem recordRead_out (v : Word) (s : State) : (recordRead v s).out = s.out := rfl
@[simp] theorem recordRead_outPrior (v : Word) (s : State) : (recordRead v s).outPrior = s.outPrior := rfl
@[simp] theorem recordRead_host (v : Word) (s : State) : (recordRead v s).host = s.host := rfl
@[simp] theorem recordRead_hostReads (v : Word) (s : State) : (recordRead v s).hostReads = s.hostReads ++ [v] := rfl
@[simp] theorem recordRead_freeIx (v : Word) (s : State) : (recordRead v s).freeIx = s.freeIx := rfl

/-! ## drawFree -/

@[simp] theorem drawFree_arg0 (s : State) : (drawFree s).arg0 = s.arg0 := rfl
@[simp] theorem drawFree_arg1 (s : State) : (drawFree s).arg1 = s.arg1 := rfl
@[simp] theorem drawFree_res0 (s : State) : (drawFree s).res0 = s.res0 := rfl
@[simp] theorem drawFree_res1 (s : State) : (drawFree s).res1 = s.res1 := rfl
@[simp] theorem drawFree_busy (s : State) : (drawFree s).busy = s.busy := rfl
@[simp] theorem drawFree_code (s : State) : (drawFree s).code = s.code := rfl
@[simp] theorem drawFree_runoutCfg (s : State) : (drawFree s).runoutCfg = s.runoutCfg := rfl
@[simp] theorem drawFree_runoutLeft (s : State) : (drawFree s).runoutLeft = s.runoutLeft := rfl
@[simp] theorem drawFree_leadinLimit (s : State) : (drawFree s).leadinLimit = s.leadinLimit := rfl
@[simp] theorem drawFree_bitsRead (s : State) : (drawFree s).bitsRead = s.bitsRead := rfl
@[simp] theorem drawFree_inPos (s : State) : (drawFree s).inPos = s.inPos := rfl
@[simp] theorem drawFree_rdByte (s : State) : (drawFree s).rdByte = s.rdByte := rfl
@[simp] theorem drawFree_rdMask (s : State) : (drawFree s).rdMask = s.rdMask := rfl
@[simp] theorem drawFree_wrByte (s : State) : (drawFree s).wrByte = s.wrByte := rfl
@[simp] theorem drawFree_wrCnt (s : State) : (drawFree s).wrCnt = s.wrCnt := rfl
@[simp] theorem drawFree_outCount (s : State) : (drawFree s).outCount = s.outCount := rfl
@[simp] theorem drawFree_msg (s : State) : (drawFree s).msg = s.msg := rfl
@[simp] theorem drawFree_msgBits (s : State) : (drawFree s).msgBits = s.msgBits := rfl
@[simp] theorem drawFree_frame (s : State) : (drawFree s).frame = s.frame := rfl
@[simp] theorem drawFree_cfg (s : State) : (drawFree s).cfg = s.cfg := rfl
@[simp] theorem drawFree_rom (s : State) : (drawFree s).rom = s.rom := rfl
@[simp] theorem drawFree_inp (s : State) : (drawFree s).inp = s.inp := rfl
@[simp] theorem drawFree_out (s : State) : (drawFree s).out = s.out := rfl
@[simp] theorem drawFree_outPrior (s : State) : (drawFree s).outPrior = s.outPrior := rfl
@[simp] theorem drawFree_host (s : State) : (drawFree s).host = s.host := rfl
@[simp] theorem drawFree_hostReads (s : State) : (drawFree s).hostReads = s.hostReads := rfl
@[simp] theorem drawFree_freeIx (s : State) : (drawFree s).freeIx = s.freeIx + 1 := rfl

/-! ## The internal registers -/

@[simp] theorem frameRegs_setFrame (f : FrameRegs) (s : State) : frameRegs (setFrame f s) = f := rfl

end Sys2Proof.Machine
end

