-- ==== Sys2Proof/Laws/Reader.lean ====
section
/-! SUPPORT. The bit reader: what a strict read delivers and keeps (40_bitchannel.md R122 to R124, R133), the bound on the
bits left (70_reset_and_hazards.md R307), and what `DecodeSym` keeps (41_fibonacci.md R155). -/

namespace Sys2Proof.Machine

theorem onlyStrictReader_refl (s : State) : onlyStrictReader s s := rfl

theorem onlyStrictReader_trans {s t u : State} (h : onlyStrictReader s t) (k : onlyStrictReader t u) :
    onlyStrictReader s u := by
  unfold onlyStrictReader at *
  rw [k, h]

theorem onlyReader_refl (s : State) : onlyReader s s := rfl

theorem onlyReader_trans {s t u : State} (h : onlyReader s t) (k : onlyReader t u) : onlyReader s u := by
  unfold onlyReader at *
  rw [k, h]

theorem onlyReader_of_strict {s t : State} (h : onlyStrictReader s t) : onlyReader s t := by
  unfold onlyStrictReader at h
  unfold onlyReader
  rw [h]

/-- One bit under a legal, non-zero mask: the bit itself, then the bits under the shifted mask. -/
theorem mask_step : ∀ b : Byte, ∀ m ∈ legalMasks, m ≠ 0 →
    bits b.toNat (Nat.log2 m.toNat + 1) =
      ((b &&& m) != 0) :: (if m >>> 1 = 0 then [] else bits b.toNat (Nat.log2 (m >>> 1).toNat + 1)) ∧
    m >>> 1 ∈ legalMasks := by
  decide +kernel

/-- One bit under any non-zero mask is one bit of the bound. -/
theorem mask_bound : ∀ m : Byte, m ≠ 0 →
    (if m >>> 1 = 0 then 0 else Nat.log2 (m >>> 1).toNat + 1) + 1 = Nat.log2 m.toNat + 1 := by
  decide +kernel

theorem inPos_succ {s : State} (h : s.inp.length < 2 ^ 32) (hp : s.inPos.toNat < s.inp.length) :
    (s.inPos + 1).toNat = s.inPos.toNat + 1 := by
  rw [BitVec.toNat_add]
  exact Nat.mod_eq_of_lt (by simp; omega)

/-- A strict read with a bit cached (40_bitchannel.md R122, R124): RD_BYTE stays, RD_MASK moves on. -/
theorem getBitTry_cached {s : State} (h : s.rdMask ≠ 0) : getBitTry s =
    some ((s.rdByte &&& s.rdMask) != 0, { s with rdMask := s.rdMask >>> 1, bitsRead := s.bitsRead + 1 }) := by
  have hf : fetchByte s = some s := if_neg h
  unfold getBitTry realBit
  rw [hf]
  rfl

/-- A strict read that fetches a byte: its bit 7 is taken and the seven others stay cached. -/
theorem getBitTry_fetch {s : State} (h : s.rdMask = 0) {b : Byte} (hb : s.inp[s.inPos.toNat]? = some b) : getBitTry s =
    some ((b &&& 0x80) != 0,
      { s with inPos := s.inPos + 1, rdByte := b, rdMask := 0x40, bitsRead := s.bitsRead + 1 }) := by
  have hf : fetchByte s = some (cacheByte b s) := by
    unfold fetchByte inByte
    rw [if_pos h, hb]
    rfl
  unfold getBitTry realBit
  have hm : (0x80 : Byte) >>> 1 = 0x40 := by decide
  rw [hf, ← hm]
  rfl

/-- A strict read with no bit cached and no byte left. -/
theorem getBitTry_none {s : State} (h : s.rdMask = 0) (hb : s.inp[s.inPos.toNat]? = none) : getBitTry s = none := by
  have hf : fetchByte s = none := by
    unfold fetchByte inByte
    rw [if_pos h, hb]
    rfl
  unfold getBitTry realBit
  rw [hf]
  rfl

/-- `RealBit()` in a sound reader: NONE exactly where no bit is left. -/
theorem getBitTry_nil {s : State} (h : readerOk s) (hu : unread s = []) : getBitTry s = none := by
  obtain ⟨-, hpos, hmask⟩ := h
  have hm : s.rdMask = 0 := by
    by_contra hne
    rw [unread, cachedBits, if_neg hne, (mask_step _ _ hmask hne).1] at hu
    simp at hu
  rw [unread, cachedBits, if_pos hm, List.nil_append] at hu
  have hend : s.inp.length ≤ s.inPos.toNat := by
    by_contra hlt
    rw [List.drop_eq_getElem_cons (by omega), List.flatMap_cons] at hu
    have := congrArg List.length hu
    simp at this
  simp [getBitTry, realBit, fetchByte, hm, inByte, List.getElem?_eq_none hend]

/-- `GetBitTry()` in a sound reader delivers the next bit, counts it, and stays sound (40_bitchannel.md R133). -/
theorem getBitTry_cons {s : State} (h : readerOk s) {b : Bool} {rest : BitString} (hu : unread s = b :: rest) :
    ∃ t, getBitTry s = some (b, t) ∧ unread t = rest ∧ readerOk t ∧ t.bitsRead = s.bitsRead + 1 ∧
      onlyStrictReader s t := by
  obtain ⟨hlen, hpos, hmask⟩ := h
  by_cases hm : s.rdMask = 0
  · rw [unread, cachedBits, if_pos hm, List.nil_append] at hu
    have hlt : s.inPos.toNat < s.inp.length := by
      by_contra hge
      rw [List.drop_eq_nil_of_le (by omega)] at hu
      simp at hu
    have hnext := inPos_succ hlen hlt
    rw [List.drop_eq_getElem_cons hlt, List.flatMap_cons] at hu
    have hstep := mask_step s.inp[s.inPos.toNat] 0x80 (by decide) (by decide)
    have h80 : byteBits s.inp[s.inPos.toNat] = bits s.inp[s.inPos.toNat].toNat (Nat.log2 (0x80 : Byte).toNat + 1) := rfl
    rw [h80, hstep.1, List.cons_append, List.cons.injEq] at hu
    refine ⟨countBit (shiftMask (cacheByte s.inp[s.inPos.toNat] s)), ?_, ?_, ?_, rfl, rfl⟩
    · simp [getBitTry, realBit, fetchByte, hm, inByte, List.getElem?_eq_getElem hlt, cachedBit, ← hu.1]
    · rw [← hu.2]
      show (if (0x80 : Byte) >>> 1 = 0 then [] else _) ++ (s.inp.drop (s.inPos + 1).toNat).flatMap byteBits = _
      rw [hnext]
      rfl
    · exact ⟨hlen, by simp only [countBit_inPos, shiftMask_inPos, cacheByte_inPos]; rw [hnext]; exact hlt, hstep.2⟩
  · rw [unread, cachedBits, if_neg hm] at hu
    have hstep := mask_step s.rdByte s.rdMask hmask hm
    rw [hstep.1, List.cons_append, List.cons.injEq] at hu
    refine ⟨countBit (shiftMask s), ?_, ?_, ⟨hlen, hpos, hstep.2⟩, rfl, rfl⟩
    · unfold getBitTry realBit fetchByte
      rw [if_neg hm, ← hu.1]
      rfl
    · rw [← hu.2]
      rfl

/-- A successful strict read changes the reader only, in every state. -/
theorem getBitTry_onlyStrictReader {s t : State} {b : Bool} (h : getBitTry s = some (b, t)) : onlyStrictReader s t := by
  unfold getBitTry realBit fetchByte at h
  split at h
  · cases hb : inByte s with
    | none => simp [hb] at h
    | some x =>
      simp [hb] at h
      rw [← h.2]
      rfl
  · simp at h
    rw [← h.2]
    rfl

/-- A read with run-out changes the reader only, in every state. -/
theorem getBitRO_onlyReader {s t : State} {b : Bool} (h : getBitRO s = some (b, t)) : onlyReader s t := by
  unfold getBitRO at h
  cases hg : getBitTry s with
  | some r =>
    rw [hg] at h
    cases h
    exact onlyReader_of_strict (getBitTry_onlyStrictReader hg)
  | none =>
    rw [hg] at h
    simp only at h
    split at h
    · cases h
    · cases h
      rfl

theorem getBit_onlyReader {m : ReadMode} {s t : State} {b : Bool} (h : getBit m s = some (b, t)) : onlyReader s t := by
  cases m with
  | runout => exact getBitRO_onlyReader h
  | strict => exact onlyReader_of_strict (getBitTry_onlyStrictReader h)

/-- Every strict read takes one bit off the bound of 70_reset_and_hazards.md R307. -/
theorem getBitTry_bitsLeft {s t : State} {b : Bool} (hlen : s.inp.length < 2 ^ 32) (h : getBitTry s = some (b, t)) :
    bitsLeft t + 1 = bitsLeft s := by
  unfold getBitTry realBit fetchByte at h
  split at h
  · next hm =>
    cases hb : inByte s with
    | none => simp [hb] at h
    | some x =>
      have hlt : s.inPos.toNat < s.inp.length := by
        unfold inByte at hb
        exact (List.getElem?_eq_some_iff.mp hb).1
      have hnext := inPos_succ hlen hlt
      simp [hb] at h
      rw [← h.2]
      have h40 : (if (0x80 : Byte) >>> 1 = 0 then 0 else Nat.log2 ((0x80 : Byte) >>> 1).toNat + 1) = 7 := by decide
      have hs : bitsLeft s = 8 * (s.inp.length - s.inPos.toNat) := by rw [bitsLeft, if_pos hm, Nat.add_zero]
      show 8 * (s.inp.length - (s.inPos + 1).toNat) + (if (0x80 : Byte) >>> 1 = 0 then 0 else _) + 1 = bitsLeft s
      rw [hs, hnext]
      refine (congrArg (8 * (s.inp.length - (s.inPos.toNat + 1)) + · + 1) h40).trans ?_
      omega
  · next hm =>
    simp at h
    rw [← h.2]
    have hs : bitsLeft s = 8 * (s.inp.length - s.inPos.toNat) + (Nat.log2 s.rdMask.toNat + 1) := by
      rw [bitsLeft, if_neg hm]
    rw [hs, ← mask_bound s.rdMask hm]
    rfl

/-- The bound of R307 is the number of bits left. -/
theorem bitsLeft_eq (s : State) : bitsLeft s = (unread s).length := by
  have hb : ∀ l : List Byte, (l.flatMap byteBits).length = 8 * l.length := by
    intro l
    induction l with
    | nil => rfl
    | cons b l ih => simp [ih]; omega
  unfold bitsLeft unread cachedBits
  rw [List.length_append, hb, List.length_drop]
  split <;> simp [Nat.add_comm]

/-- `DecodeSym` changes the reader only, and a strict one leaves RUNOUT_LEFT as it was. -/
theorem decodeTerms_onlyReader (m : ReadMode) (terms : List Nat) (acc : Nat) (prev : Bool) (k : Nat) (s : State) :
    onlyReader s (decodeTerms m terms acc prev k s).after := by
  induction terms generalizing acc prev k s with
  | nil =>
    unfold decodeTerms
    split
    · rfl
    · next r hr => split <;> exact getBit_onlyReader hr
  | cons f terms ih =>
    unfold decodeTerms
    split
    · rfl
    · next r hr =>
      split
      · exact getBit_onlyReader hr
      · exact onlyReader_trans (getBit_onlyReader hr) (ih ..)

theorem decodeTerms_onlyStrictReader (terms : List Nat) (acc : Nat) (prev : Bool) (k : Nat) (s : State) :
    onlyStrictReader s (decodeTerms .strict terms acc prev k s).after := by
  induction terms generalizing acc prev k s with
  | nil =>
    unfold decodeTerms
    split
    · rfl
    · next r hr => split <;> exact getBitTry_onlyStrictReader hr
  | cons f terms ih =>
    unfold decodeTerms
    split
    · rfl
    · next r hr =>
      split
      · exact getBitTry_onlyStrictReader hr
      · exact onlyStrictReader_trans (getBitTry_onlyStrictReader hr) (ih ..)

theorem decodeSym_onlyReader (m : ReadMode) (s : State) : onlyReader s (decodeSym m s).after :=
  decodeTerms_onlyReader ..

theorem decodeSym_onlyStrictReader (s : State) : onlyStrictReader s (decodeSym .strict s).after :=
  decodeTerms_onlyStrictReader ..

/-- A symbol has a value exactly where its code is OK, and its code is OK, EXHAUSTED or OVERRUN (41_fibonacci.md R155). -/
theorem decodeTerms_code (m : ReadMode) (terms : List Nat) (acc : Nat) (prev : Bool) (k : Nat) (s : State) :
    ((decodeTerms m terms acc prev k s).value.isSome ∧ (decodeTerms m terms acc prev k s).code = .ok) ∨
    ((decodeTerms m terms acc prev k s).value = none ∧
      ((decodeTerms m terms acc prev k s).code = .exhausted ∨ (decodeTerms m terms acc prev k s).code = .overrun)) := by
  induction terms generalizing acc prev k s with
  | nil =>
    unfold decodeTerms
    split
    · exact .inr ⟨rfl, .inl rfl⟩
    · split
      · exact .inl ⟨rfl, rfl⟩
      · exact .inr ⟨rfl, .inr rfl⟩
  | cons f terms ih =>
    unfold decodeTerms
    split
    · exact .inr ⟨rfl, .inl rfl⟩
    · split
      · exact .inl ⟨rfl, rfl⟩
      · exact ih ..

/-- A symbol that was read costs the bits it used: strict reads never raise the bound. -/
theorem decodeTerms_bitsLeft (terms : List Nat) (acc : Nat) (prev : Bool) (k : Nat) (s : State)
    (hlen : s.inp.length < 2 ^ 32) :
    bitsLeft (decodeTerms .strict terms acc prev k s).after + (decodeTerms .strict terms acc prev k s).bitsUsed =
      bitsLeft s + k := by
  induction terms generalizing acc prev k s with
  | nil =>
    unfold decodeTerms
    split
    · rfl
    · next r hr =>
      have := getBitTry_bitsLeft hlen hr
      split <;> simp only <;> omega
  | cons f terms ih =>
    unfold decodeTerms
    split
    · rfl
    · next r hr =>
      have h1 := getBitTry_bitsLeft hlen hr
      have hinp : r.2.inp = s.inp := by rw [getBitTry_onlyStrictReader hr]
      split
      · simp only
        omega
      · have := ih (acc + r.1.toNat * f) r.1 (k + 1) r.2 (by rw [hinp]; exact hlen)
        omega

/-- A symbol that decoded used at least one bit. -/
theorem decodeTerms_used (m : ReadMode) (terms : List Nat) (acc : Nat) (prev : Bool) (k : Nat) (s : State) :
    k ≤ (decodeTerms m terms acc prev k s).bitsUsed ∧
    ((decodeTerms m terms acc prev k s).value.isSome → k < (decodeTerms m terms acc prev k s).bitsUsed) := by
  induction terms generalizing acc prev k s with
  | nil =>
    unfold decodeTerms
    split
    · exact ⟨le_refl _, fun h => by cases h⟩
    · split <;> exact ⟨Nat.le_succ _, fun _ => Nat.lt_succ_self _⟩
  | cons f terms ih =>
    unfold decodeTerms
    split
    · exact ⟨le_refl _, fun h => by cases h⟩
    · split
      · exact ⟨Nat.le_succ _, fun _ => Nat.lt_succ_self _⟩
      · next r _ _ =>
        have := ih (acc + r.1.toNat * f) r.1 (k + 1) r.2
        exact ⟨by omega, fun h => by have := this.2 h; omega⟩

end Sys2Proof.Machine
end

