-- ==== Sys2Proof/Laws/Writer.lean ====
section
/-! SUPPORT. The bit writer: one lemma per shared operation that says what it writes, what it keeps, and that the pending
byte stays sound (10_state.md R36; 40_bitchannel.md R120, R121, R125). -/

namespace Sys2Proof.Machine

theorem onlyWriter_refl (s : State) : onlyWriter s s := rfl

theorem onlyWriter_trans {s t u : State} (h : onlyWriter s t) (k : onlyWriter t u) : onlyWriter s u := by
  unfold onlyWriter at *
  rw [k, h]

/-- The pending byte with one more bit, at every count: the bits before it, the bit, and zeros below. -/
theorem pending_step : ∀ (w : Byte) (n : BitVec 3) (b : Bool), w.toNat % 2 ^ (8 - n.toNat) = 0 →
    (byteBits (w ||| (BitVec.ofNat 8 b.toNat <<< (7 - n.toNat)))).take (n.toNat + 1) = (byteBits w).take n.toNat ++ [b] ∧
    (w ||| (BitVec.ofNat 8 b.toNat <<< (7 - n.toNat))).toNat % 2 ^ (7 - n.toNat) = 0 := by
  decide +kernel

/-- The low bits of a sound pending byte are the zeros that `FlushOut()` appends. -/
theorem pending_zeros : ∀ (w : Byte) (n : BitVec 3), w.toNat % 2 ^ (8 - n.toNat) = 0 →
    byteBits w = (byteBits w).take n.toNat ++ List.replicate (8 - n.toNat) false := by
  decide +kernel

theorem putBit_onlyWriter (b : Bool) (s : State) : onlyWriter s (putBit b s) := by
  unfold putBit
  split <;> rfl

/-- `PutBit(b)` writes the one bit `b`. -/
theorem putBit_written {s : State} (h : writerOk s) (b : Bool) :
    written (putBit b s) = written s ++ [b] ∧ writerOk (putBit b s) := by
  obtain ⟨hbits, hlow⟩ := pending_step s.wrByte s.wrCnt b h
  have hn : s.wrCnt.toNat < 8 := s.wrCnt.isLt
  unfold putBit
  split
  · next hfull =>
    refine ⟨?_, by simp [writerOk]⟩
    have h7 : s.wrCnt.toNat + 1 = (byteBits (pendingWith b s)).length := by simp [hfull]
    have hall : byteBits (pendingWith b s) = (byteBits s.wrByte).take s.wrCnt.toNat ++ [b] := by
      rw [← hbits, h7, pendingWith]
      exact (List.take_length).symm
    simp [written, pending, hall]
  · next hpart =>
    have hcnt : (BitVec.ofNat 3 (s.wrCnt.toNat + 1)).toNat = s.wrCnt.toNat + 1 := by
      rw [BitVec.toNat_ofNat]
      exact Nat.mod_eq_of_lt (by omega)
    refine ⟨?_, ?_⟩
    · simp only [written, pending, setWriter_out, setWriter_wrByte, setWriter_wrCnt, hcnt, pendingWith, hbits,
        List.append_assoc]
    · simp only [writerOk, setWriter_wrByte, setWriter_wrCnt, hcnt, pendingWith]
      rw [show 8 - (s.wrCnt.toNat + 1) = 7 - s.wrCnt.toNat by omega]
      exact hlow

theorem putString_onlyWriter (l : BitString) (s : State) : onlyWriter s (putString l s) := by
  induction l generalizing s with
  | nil => rfl
  | cons b l ih => exact onlyWriter_trans (putBit_onlyWriter b s) (ih _)

/-- A string written bit by bit stands behind what was written before. -/
theorem putString_written {s : State} (h : writerOk s) (l : BitString) :
    written (putString l s) = written s ++ l ∧ writerOk (putString l s) := by
  induction l generalizing s with
  | nil => simp [putString, h]
  | cons b l ih =>
    obtain ⟨hw, hok⟩ := putBit_written h b
    obtain ⟨hw', hok'⟩ := ih hok
    exact ⟨by rw [putString, hw', hw]; simp, hok'⟩

theorem putString_append (l m : BitString) (s : State) : putString (l ++ m) s = putString m (putString l s) := by
  induction l generalizing s with
  | nil => rfl
  | cons b l ih => simp [putString, ih]

theorem putBits_onlyWriter (p l : Nat) (s : State) : onlyWriter s (putBits p l s) :=
  putString_onlyWriter _ s

/-- `PutBits(p, l)` writes `bits(p, l)`. -/
theorem putBits_written {s : State} (h : writerOk s) (p l : Nat) :
    written (putBits p l s) = written s ++ bits p l ∧ writerOk (putBits p l s) :=
  putString_written h _

theorem flushOut_onlyWriter (s : State) : onlyWriter s (flushOut s) := by
  unfold flushOut
  split <;> rfl

/-- `FlushOut()` pads what was written with `padBits` zeros and leaves nothing pending. -/
theorem flushOut_written {s : State} (h : writerOk s) :
    written (flushOut s) = written s ++ List.replicate (padBits s) false ∧
    (flushOut s).wrCnt = 0 ∧ (flushOut s).wrByte = 0 := by
  unfold flushOut padBits
  split
  · next h0 =>
    have hz : s.wrByte = 0 := by
      have := h
      rw [writerOk, h0] at this
      apply BitVec.eq_of_toNat_eq
      have hlt := s.wrByte.isLt
      simpa [Nat.mod_eq_of_lt hlt] using this
    exact ⟨by simp, h0, hz⟩
  · next h0 =>
    refine ⟨?_, rfl, rfl⟩
    have hz := pending_zeros s.wrByte s.wrCnt h
    have : byteBits s.wrByte = pending s ++ List.replicate (8 - s.wrCnt.toNat) false := hz
    simp [written, pending] at this ⊢
    exact this

/-- Once nothing is pending, everything written stands in OUT. -/
theorem written_of_flushed {s : State} (h : s.wrCnt = 0) : written s = s.out.flatMap byteBits := by
  simp [written, pending, h]

/-- OUT_COUNT stays the number of bytes appended, whatever the writer does. -/
theorem putBit_count {s : State} (h : s.outCount = BitVec.ofNat 32 s.out.length) (b : Bool) :
    (putBit b s).outCount = BitVec.ofNat 32 (putBit b s).out.length := by
  unfold putBit
  split
  · simp [h, BitVec.ofNat_add]
  · simpa using h

theorem putString_count {s : State} (h : s.outCount = BitVec.ofNat 32 s.out.length) (l : BitString) :
    (putString l s).outCount = BitVec.ofNat 32 (putString l s).out.length := by
  induction l generalizing s with
  | nil => exact h
  | cons b l ih => exact ih (putBit_count h b)

theorem flushOut_count {s : State} (h : s.outCount = BitVec.ofNat 32 s.out.length) :
    (flushOut s).outCount = BitVec.ofNat 32 (flushOut s).out.length := by
  unfold flushOut
  split
  · exact h
  · simp [h, BitVec.ofNat_add]

/-- OUT only grows. -/
theorem putBit_out (b : Bool) (s : State) : s.out <+: (putBit b s).out := by
  unfold putBit
  split <;> simp

theorem putString_out (l : BitString) (s : State) : s.out <+: (putString l s).out := by
  induction l generalizing s with
  | nil => exact List.prefix_rfl
  | cons b l ih => exact (putBit_out b s).trans (ih _)

theorem flushOut_out (s : State) : s.out <+: (flushOut s).out := by
  unfold flushOut
  split <;> simp

end Sys2Proof.Machine
end

