-- ==== Sys2Proof/Laws/Frame.lean ====
section
/-! SUPPORT. The frame codec's shared operations: what the loops and their rounds can do, and that every round that goes on
uses at least one bit of the bound (70_reset_and_hazards.md R307; 43_framing.md R221, R224). -/

namespace Sys2Proof.Machine

/-! ## Loops -/

/-- A loop whose every round that goes on keeps `P` and lowers `m` ends within more than `m` rounds. -/
theorem loopUntil_ends {body : State → Bool × State} {P : State → Prop} {m : State → Nat}
    (hstep : ∀ s, P s → (body s).1 = true → P (body s).2 ∧ m (body s).2 < m s) :
    ∀ (n : Nat) (s : State), P s → m s < n → ∃ t, loopUntil body n s = some t := by
  intro n
  induction n with
  | zero => intro s _ h; omega
  | succ n ih =>
    intro s hP hm
    unfold loopUntil
    split
    · next t ht =>
      have := hstep s hP (by rw [ht])
      rw [ht] at this
      exact ih t this.1 (by have := this.2; simp only at this; omega)
    · next t ht => exact ⟨t, rfl⟩

/-- What every round relates a state to, a loop relates its start to its end. -/
theorem loopUntil_relates {body : State → Bool × State} {R : State → State → Prop} (htrans : ∀ s t u, R s t → R t u → R s u)
    (hround : ∀ s, R s (body s).2) : ∀ (n : Nat) (s t : State), loopUntil body n s = some t → R s t := by
  intro n
  induction n with
  | zero => intro s t h; cases h
  | succ n ih =>
    intro s t h
    unfold loopUntil at h
    split at h
    · next u hu =>
      have := hround s
      rw [hu] at this
      exact htrans _ _ _ this (ih u t h)
    · next u hu =>
      cases h
      have := hround s
      rw [hu] at this
      exact this

/-- A loop that ended did so in a last round that answered false, from a state that keeps what the rounds keep. -/
theorem loopUntil_last {body : State → Bool × State} {P : State → Prop} (hkeep : ∀ s, P s → (body s).1 = true → P (body s).2) :
    ∀ (n : Nat) (s t : State), P s → loopUntil body n s = some t → ∃ u, P u ∧ body u = (false, t) := by
  intro n
  induction n with
  | zero => intro s t _ h; cases h
  | succ n ih =>
    intro s t hP h
    unfold loopUntil at h
    split at h
    · next u hu =>
      have := hkeep s hP (by rw [hu])
      rw [hu] at this
      exact ih u t this h
    · next u hu =>
      cases h
      exact ⟨s, hP, hu⟩

/-- A loop that ended within a bound ends the same within every larger one. -/
theorem loopUntil_more {body : State → Bool × State} {m n : Nat} {s t : State} (h : loopUntil body n s = some t) (hnm : n ≤ m) :
    loopUntil body m s = some t := by
  induction n generalizing m s with
  | zero => cases h
  | succ n ih =>
    obtain ⟨m, rfl⟩ : ∃ k, m = k + 1 := ⟨m - 1, by omega⟩
    unfold loopUntil at h ⊢
    split at h
    · exact ih h (by omega)
    · exact h

/-- A change of the state that every round carries through, a loop carries through. -/
theorem loopUntil_commutes {body : State → Bool × State} {g : State → State}
    (hround : ∀ s, body (g s) = ((body s).1, g (body s).2)) :
    ∀ (n : Nat) (s : State), loopUntil body n (g s) = (loopUntil body n s).map g := by
  intro n
  induction n with
  | zero => intro s; rfl
  | succ n ih =>
    intro s
    unfold loopUntil
    rw [hround]
    obtain ⟨more, t⟩ := body s
    cases more
    · rfl
    · exact ih t

/-! ## What the decoder changes -/

theorem onlyDecoder_refl (s : State) : onlyDecoder s s := rfl

theorem onlyDecoder_trans {s t u : State} (h : onlyDecoder s t) (k : onlyDecoder t u) : onlyDecoder s u := by
  unfold onlyDecoder at *
  rw [k, h]

theorem onlyDecoder_of_strict {s t : State} (h : onlyStrictReader s t) : onlyDecoder s t := by
  unfold onlyStrictReader at h
  unfold onlyDecoder
  rw [h]

theorem setFrame_onlyDecoder (f : FrameRegs) (s : State) : onlyDecoder s (setFrame f s) := rfl

theorem failFrame_onlyDecoder (r : EndReason) (s : State) : onlyDecoder s (failFrame r s) := rfl

theorem shiftWindow_onlyDecoder (b : Bool) (s : State) : onlyDecoder s (shiftWindow b s) := rfl

theorem classify_onlyDecoder (c : Nat) (s : State) : onlyDecoder s (classify c s).2 := by
  unfold classify
  split
  · split <;> rfl
  · split
    · rfl
    · split <;> rfl

theorem readPad_onlyDecoder (s : State) : onlyDecoder s (readPad s).2 := by
  unfold readPad
  split
  · rfl
  · next r hr => exact onlyDecoder_of_strict (getBitTry_onlyStrictReader hr)

theorem padDamage_onlyDecoder (p : Option Bool) (b : Bool) (s : State) : onlyDecoder s (padDamage p b s) := by
  unfold padDamage
  cases b <;> rfl

theorem paddedSymbol_onlyDecoder (c : Nat) (s : State) : onlyDecoder s (paddedSymbol c s).2 := by
  unfold paddedSymbol
  have h := onlyDecoder_trans (readPad_onlyDecoder s) (classify_onlyDecoder c _)
  simp only
  split
  · exact h
  · exact onlyDecoder_trans h (padDamage_onlyDecoder ..)

theorem leadInRound_onlyDecoder (s : State) : onlyDecoder s (leadInRound s).2 := by
  unfold leadInRound
  split
  · rfl
  · next r hr =>
    have h := onlyDecoder_trans (onlyDecoder_of_strict (getBitTry_onlyStrictReader hr)) (shiftWindow_onlyDecoder r.1 r.2)
    simp only
    split
    · exact onlyDecoder_trans h rfl
    · split
      · exact onlyDecoder_trans h rfl
      · exact h

theorem messageRound_onlyDecoder (s : State) : onlyDecoder s (messageRound s).2 := by
  unfold messageRound
  have h := onlyDecoder_of_strict (decodeSym_onlyStrictReader s)
  simp only
  split
  · exact onlyDecoder_trans h rfl
  · exact onlyDecoder_trans h (paddedSymbol_onlyDecoder ..)

/-- The phases of a frame decode change nothing but the strict reader, OUT and the internal registers. -/
theorem decodePhases_onlyDecoder {s t : State} (h : decodePhases s = some t) : onlyDecoder s t := by
  unfold decodePhases leadInPhase at h
  cases hl : loopUntil leadInRound (bitsLeft (setFrame (startRegs s.bitsRead) s) + 1) (setFrame (startRegs s.bitsRead) s) with
  | none => rw [hl] at h; cases h
  | some u =>
    rw [hl] at h
    have h1 := onlyDecoder_trans (setFrame_onlyDecoder (startRegs s.bitsRead) s)
      (loopUntil_relates (R := onlyDecoder) (fun _ _ _ => onlyDecoder_trans) leadInRound_onlyDecoder _ _ _ hl)
    simp only [Option.bind_some, messagePhase] at h
    split at h
    · exact onlyDecoder_trans h1 (loopUntil_relates (R := onlyDecoder) (fun _ _ _ => onlyDecoder_trans) messageRound_onlyDecoder _ _ _ h)
    · cases h
      exact h1

/-! ## The bound -/

theorem readPad_bitsLeft {s : State} (hlen : s.inp.length < 2 ^ 32) : bitsLeft (readPad s).2 ≤ bitsLeft s := by
  unfold readPad
  split
  · exact le_refl _
  · next r hr =>
    have := getBitTry_bitsLeft hlen hr
    simp only
    omega

theorem classify_bitsLeft (c : Nat) (s : State) : bitsLeft (classify c s).2 = bitsLeft s := by
  unfold classify
  split
  · split <;> rfl
  · split
    · rfl
    · split <;> rfl

/-- A LeadIn round that goes on uses one bit. -/
theorem leadInRound_bitsLeft {s : State} (hlen : s.inp.length < 2 ^ 32) (h : (leadInRound s).1 = true) :
    bitsLeft (leadInRound s).2 < bitsLeft s := by
  unfold leadInRound at h ⊢
  split at h
  · cases h
  · next r hr =>
    have h1 := getBitTry_bitsLeft hlen hr
    have h2 : bitsLeft (shiftWindow r.1 r.2) = bitsLeft r.2 := rfl
    simp only at h ⊢
    split at h
    · cases h
    · split at h
      · cases h
      · next hm hb =>
        rw [if_neg hm, if_neg hb, h2]
        omega

/-- An InMessage round that goes on uses at least the bits of a symbol. -/
theorem messageRound_bitsLeft {s : State} (hlen : s.inp.length < 2 ^ 32) (h : (messageRound s).1 = true) :
    bitsLeft (messageRound s).2 < bitsLeft s := by
  have hbits : bitsLeft (decodeSym .strict s).after + (decodeSym .strict s).bitsUsed = bitsLeft s + 0 :=
    decodeTerms_bitsLeft (s.rom.fib.drop 2) 0 false 0 s hlen
  have hused := (decodeTerms_used .strict (s.rom.fib.drop 2) 0 false 0 s).2
  have hinp : (decodeSym .strict s).after.inp = s.inp := by rw [decodeSym_onlyStrictReader s]
  unfold messageRound at h ⊢
  simp only at h ⊢
  split at h
  · cases h
  · next c hc =>
    have hpos : 0 < (decodeSym .strict s).bitsUsed := hused (by
      show (decodeSym .strict s).value.isSome = true
      rw [hc]; rfl)
    unfold paddedSymbol at h ⊢
    simp only at h ⊢
    split at h
    · next hp =>
      rw [if_pos hp, classify_bitsLeft]
      have := readPad_bitsLeft (s := (decodeSym .strict s).after) (by rw [hinp]; exact hlen)
      omega
    · cases h

end Sys2Proof.Machine
end

