-- ==== Sys2Proof/Laws/PerInstr.lean ====
section
/-! SUPPORT. What holds of every command as syntax, one lemma per command: its word decodes to it (30_encoding.md R92). -/

namespace Sys2Proof.Laws

/-- A command is well-formed, its word has no reserved bit set, and the word decodes to the command. -/
def EncodeDecode.Statement (i : Instr) : Prop :=
  i.wellFormed = true ∧ (encode i).extractLsb' 5 27 = 0 ∧ decode (encode i) = .ok i

theorem EncodeDecode.nop : EncodeDecode.Statement .nop := ⟨rfl, by decide, rfl⟩

theorem EncodeDecode.writeBit : EncodeDecode.Statement .writeBit := ⟨rfl, by decide, rfl⟩

theorem EncodeDecode.writePattern : EncodeDecode.Statement .writePattern := ⟨rfl, by decide, rfl⟩

theorem EncodeDecode.flush : EncodeDecode.Statement .flush := ⟨rfl, by decide, rfl⟩

theorem EncodeDecode.readBit : EncodeDecode.Statement .readBit := ⟨rfl, by decide, rfl⟩

theorem EncodeDecode.tryReadBit : EncodeDecode.Statement .tryReadBit := ⟨rfl, by decide, rfl⟩

theorem EncodeDecode.rewind : EncodeDecode.Statement .rewind := ⟨rfl, by decide, rfl⟩

theorem EncodeDecode.fibEncode : EncodeDecode.Statement .fibEncode := ⟨rfl, by decide, rfl⟩

theorem EncodeDecode.fibDecode : EncodeDecode.Statement .fibDecode := ⟨rfl, by decide, rfl⟩

theorem EncodeDecode.fibTryDecode : EncodeDecode.Statement .fibTryDecode := ⟨rfl, by decide, rfl⟩

theorem EncodeDecode.tblForward : EncodeDecode.Statement .tblForward := ⟨rfl, by decide, rfl⟩

theorem EncodeDecode.tblBackward : EncodeDecode.Statement .tblBackward := ⟨rfl, by decide, rfl⟩

theorem EncodeDecode.frmEncode : EncodeDecode.Statement .frmEncode := ⟨rfl, by decide, rfl⟩

theorem EncodeDecode.frmDecode : EncodeDecode.Statement .frmDecode := ⟨rfl, by decide, rfl⟩

end Sys2Proof.Laws
end

