-- ==== Sys2Proof/Laws/Window.lean ====
section
/-! SUPPORT. What one step can do, by the host action it performs: the register window of 20_memory.md R60, the access rules of
R64, the load and the store of 10_state.md R41. Later proofs cite these and never unfold the step. -/

namespace Sys2Proof.Machine

/-- An offset below 256 names its own place in the window, wherever REG_BASE lies (20_memory.md R71). -/
theorem windowOffset_at (s : State) {off : Nat} (h : off < 256) : windowOffset s (s.cfg.regBase + off) = some off := by
  unfold windowOffset
  rw [if_pos (by omega)]
  simp

/-- A word access at an aligned offset reaches the register of that offset. -/
theorem accessWindow_at (s : State) {off : Nat} (h : off < 256) (ha : off % 4 = 0)
    (act : Reg → Host.Outcome State Fault Refusal) :
    accessWindow .word (s.cfg.regBase + off) s act = act (regAt off) := by
  simp [accessWindow, windowOffset_at s h, supported, ha]

/-- Every other access inside the window is refused (20_memory.md R64). -/
theorem accessWindow_unsupported (s : State) {w : Width} {off : Nat} (h : off < 256) (hw : w ≠ .word ∨ off % 4 ≠ 0)
    (act : Reg → Host.Outcome State Fault Refusal) :
    accessWindow w (s.cfg.regBase + off) s act = .refused .unsupportedAccess := by
  have hs : supported w off = false := by
    unfold supported
    cases w <;> simp_all
  simp [accessWindow, windowOffset_at s h, hs]

/-- An access outside the window stops with its own fault (log entry 11). -/
theorem accessWindow_outside (s : State) (w : Width) {addr : Nat} (h : addr < s.cfg.regBase ∨ s.cfg.regBase + 256 ≤ addr)
    (act : Reg → Host.Outcome State Fault Refusal) : accessWindow w addr s act = .fault .outsideWindow := by
  have ho : windowOffset s addr = none := by
    unfold windowOffset
    rw [if_neg (by omega)]
  simp [accessWindow, ho]

/-- With nothing queued the machine idles. -/
theorem step_idle {s : State} (h : s.host = []) : step s = .next s := by
  unfold step hostStep
  rw [h]

/-- The oldest queued action is performed. -/
theorem step_perform {s : State} {a : HostAction} {rest : List HostAction} (h : s.host = a :: rest) :
    step s = perform a { s with host := rest } := by
  unfold step hostStep
  rw [h]

/-- A queued load. -/
theorem step_load {s : State} {off : Nat} {rest : List HostAction} (h : s.host = .load .word (s.cfg.regBase + off) :: rest)
    (ho : off < 256) (ha : off % 4 = 0) : step s = .next (hostLoad (regAt off) { s with host := rest }) := by
  rw [step_perform h]
  exact accessWindow_at { s with host := rest } ho ha (fun r => .next (hostLoad r { s with host := rest }))

/-- A queued store. -/
theorem step_store {s : State} {off : Nat} {v : Word} {rest : List HostAction}
    (h : s.host = .store .word (s.cfg.regBase + off) v :: rest) (ho : off < 256) (ha : off % 4 = 0) :
    step s = hostStore (regAt off) v { s with host := rest } := by
  rw [step_perform h]
  exact accessWindow_at { s with host := rest } ho ha (fun r => hostStore r v { s with host := rest })

/-- A queued reset. -/
theorem step_reset {s : State} {rest : List HostAction} (h : s.host = .reset :: rest) :
    step s = .next (hostReset { s with host := rest }) :=
  step_perform h

/-- A queued store with what the host does while its command runs. -/
theorem step_overlapped {s : State} {off : Nat} {v : Word} {during : List Access} {abandoned : Option Nat}
    {rest : List HostAction} (h : s.host = .overlapped .word (s.cfg.regBase + off) v during abandoned :: rest)
    (ho : off < 256) (ha : off % 4 = 0) :
    step s = overlappedStore (regAt off) v during abandoned { s with host := rest } := by
  rw [step_perform h]
  exact accessWindow_at { s with host := rest } ho ha
    (fun r => overlappedStore r v during abandoned { s with host := rest })

/-- A load while idle records the register's value and changes nothing else. -/
theorem hostLoad_idle {s : State} (h : s.busy = false) (r : Reg) :
    hostLoad r s = { s with hostReads := s.hostReads ++ [readReg r s] } := by
  simp [hostLoad, h, recordRead]

/-- A load while BUSY of a register whose value is then free records the next free value. -/
theorem hostLoad_free {s : State} (h : s.busy = true) {r : Reg} (hr : freeWhileBusy r = true) :
    hostLoad r s = { s with hostReads := s.hostReads ++ [Config.busyRead s.freeIx], freeIx := s.freeIx + 1 } := by
  simp [hostLoad, h, hr, recordRead, drawFree]

/-- STATUS and the reserved offsets read what they hold at any time. -/
theorem hostLoad_settled {r : Reg} (hr : freeWhileBusy r = false) (s : State) :
    hostLoad r s = { s with hostReads := s.hostReads ++ [readReg r s] } := by
  simp [hostLoad, hr, recordRead]

/-- A load at any time changes only the host's record and the count of free values. -/
theorem hostLoad_frame (r : Reg) (s : State) :
    hostLoad r s = { s with hostReads := (hostLoad r s).hostReads, freeIx := (hostLoad r s).freeIx } := by
  unfold hostLoad
  split <;> rfl

/-- A store while BUSY does nothing (10_state.md R41). -/
theorem hostStore_busy {s : State} (h : s.busy = true) (r : Reg) (v : Word) : hostStore r v s = .next s := by
  simp [hostStore, h]

/-- A store to CMD while idle launches (30_encoding.md R90). -/
theorem hostStore_cmd {s : State} (h : s.busy = false) (w : Word) : hostStore .cmd w s = launchCommand w s := by
  simp [hostStore, h]

/-- Any other store while idle writes the register's writable bits. -/
theorem hostStore_reg {s : State} (h : s.busy = false) {r : Reg} (hr : r ≠ .cmd) (v : Word) :
    hostStore r v s = .next (writeReg r v s) := by
  simp [hostStore, h, hr]

/-- A store to a register other than CMD, ARG0, ARG1, RUNOUT_CFG and LEADIN_LIMIT changes nothing (10_state.md R40, R41). -/
theorem writeReg_ignored {r : Reg} (h : r ∉ [Reg.arg0, .arg1, .runoutCfg, .leadinLimit]) (v : Word) (s : State) :
    writeReg r v s = s := by
  cases r <;> first | rfl | simp at h

/-- The offsets from 0x44 on are reserved (10_state.md R40). -/
theorem regAt_reserved {off : Nat} (h : 0x44 ≤ off) : regAt off = .reserved := by
  unfold regAt
  split <;> first | rfl | omega

/-- The accesses the host makes while BUSY = 1 change nothing but its own record (10_state.md R41; 70_reset_and_hazards.md R300). -/
theorem performAccesses_busy {during : List Access} {s t : State} (hb : s.busy = true)
    (h : performAccesses during s = .next t) : t = { s with hostReads := t.hostReads, freeIx := t.freeIx } := by
  induction during generalizing s with
  | nil => cases h; rfl
  | cons a rest ih =>
    unfold performAccesses at h
    split at h
    · next u hu =>
      have hs : u = { s with hostReads := u.hostReads, freeIx := u.freeIx } := by
        cases a with
        | load w addr =>
          simp only [performAccess, accessWindow] at hu
          split at hu
          · cases hu
          · split at hu
            · cases hu
              exact hostLoad_frame _ s
            · cases hu
        | store w addr v =>
          simp only [performAccess, accessWindow] at hu
          split at hu
          · cases hu
          · split at hu
            · rw [hostStore_busy hb] at hu
              cases hu
              rfl
            · cases hu
      have hu' : u.busy = true := by rw [hs]; exact hb
      rw [ih hu' h, hs]
    · next o hne => exact absurd h (by intro h'; exact hne _ h')

end Sys2Proof.Machine
end

