-- ==== Sys2Proof/Tests/Slice0.lean ====
section
/-! SUPPORT. Tests: ill-formed configurations that the checks refuse, command words written out bit by bit, the vectors of
95_test_vectors.md, and a state that meets the hypotheses of each statement. -/

namespace Sys2Proof.Tests

open Sys2Proof Sys2Proof.Machine

-- One theorem after another: each kernel evaluation run beside the others takes a thread's stack of its own.
set_option Elab.async false

/-- What a step that answers a next state leaves, seen through `f`. -/
def resultOf {α : Type} (f : State → α) : Host.Outcome State Fault Refusal → Option α
  | .next t => some (f t)
  | _ => none

/-- The state after reset at REFCFG with the bytes of IN given. -/
def fresh (inp : List Byte) : State :=
  { State.reset with inp := inp }

/-- A state whose oldest host action is `a`. -/
def queued (a : HostAction) : State :=
  { State.reset with host := [a] }

/-! ## Well-formedness: 00_scope.md R9, R8 -/

theorem wellFormed_of_w1 {c : Config} (h : c.w1 = false) : c.wellFormed = false := by simp [Config.wellFormed, h]
theorem wellFormed_of_w2 {c : Config} (h : c.w2 = false) : c.wellFormed = false := by simp [Config.wellFormed, h]
theorem wellFormed_of_w3 {c : Config} (h : c.w3 = false) : c.wellFormed = false := by simp [Config.wellFormed, h]
theorem wellFormed_of_w4 {c : Config} (h : c.w4 = false) : c.wellFormed = false := by simp [Config.wellFormed, h]
theorem wellFormed_of_w5 {c : Config} (h : c.w5 = false) : c.wellFormed = false := by simp [Config.wellFormed, h]
theorem wellFormed_of_w6 {c : Config} (h : c.w6 = false) : c.wellFormed = false := by simp [Config.wellFormed, h]
theorem wellFormed_of_w7 {c : Config} (h : c.w7 = false) : c.wellFormed = false := by simp [Config.wellFormed, h]
theorem wellFormed_of_w8 {c : Config} (h : c.w8 = false) : c.wellFormed = false := by simp [Config.wellFormed, h]

/-- W1: a ROM of 3 terms is too short. -/
theorem test_w1_refuses_short : ({ refCfg with fibLen := 3 } : Config).wellFormed = false :=
  wellFormed_of_w1 (by decide)

/-- W1: a ROM of 48 terms is too long. -/
theorem test_w1_refuses_long : ({ refCfg with fibLen := 48 } : Config).wellFormed = false :=
  wellFormed_of_w1 (by decide)

/-- W2: 42_codetable.md R187: the 256th valid candidate is 420, so a search below 420 assigns 255 byte values. -/
theorem test_w2_refuses : ({ refCfg with searchLimit := 420 } : Config).wellFormed = false :=
  wellFormed_of_w2 (by decide +kernel)

/-- W3: a priority list with one byte value twice. -/
theorem test_w3_refuses : ({ refCfg with priority := 0x01 :: refPriority.tail } : Config).wellFormed = false :=
  wellFormed_of_w3 (by decide +kernel)

/-- W4: equal sentinels. -/
theorem test_w4_refuses_equal : ({ refCfg with frameFoot := 682 } : Config).wellFormed = false :=
  wellFormed_of_w4 (by decide +kernel)

/-- W4: a header codepoint that is a byte value's (95_test_vectors.md 4.2: 419 is 0xFD). -/
theorem test_w4_refuses_assigned : ({ refCfg with frameHead := 419 } : Config).wellFormed = false :=
  wellFormed_of_w4 (by decide +kernel)

/-- W5: the code of `Fib[16] - 1` has a run of 14 zeros. -/
theorem test_w5_refuses : ({ refCfg with frameHead := 986 } : Config).wellFormed = false :=
  wellFormed_of_w5 (by decide +kernel)

/-- W6: the header and its pad bit take 16 bits. -/
theorem test_w6_refuses : ({ refCfg with windowBits := 15 } : Config).wellFormed = false :=
  wellFormed_of_w6 (by decide +kernel)

/-- W7: the code of 984 is `10` and the code of 375, which a byte value has. -/
theorem test_w7_refuses : ({ refCfg with frameHead := 984 } : Config).wellFormed = false :=
  wellFormed_of_w7 (by decide +kernel)

/-- W8: `Fib[16] - 1 = 986` is below the search limit. -/
theorem test_w8_refuses : ({ refCfg with fibLen := 17 } : Config).wellFormed = false :=
  wellFormed_of_w8 (by decide +kernel)

/-- An input of 2^32 bytes is too long. -/
theorem test_inputFits_refuses : inputFits (List.replicate (2 ^ 32) 0) = false := by
  rw [inputFits, List.length_replicate]
  decide

/-- A launch refuses both by name. -/
theorem test_launch_refuses :
    launch { refCfg with fibLen := 3 } [] [] = .refused .illFormedConfiguration ∧
    launch refCfg (List.replicate (2 ^ 32) 0) [] = .refused .inputTooLong := by
  constructor
  · simp [launch, test_w1_refuses_short, inputFits]
  · simp only [launch, test_inputFits_refuses]
    rfl

/-! ## Decoding: 30_encoding.md R91, R92, R95 -/

theorem test_decode_bitchannel :
    decode 0b00000000000000000000000000000000 = .ok .nop ∧
    decode 0b00000000000000000000000000000001 = .ok .writeBit ∧
    decode 0b00000000000000000000000000000010 = .ok .writePattern ∧
    decode 0b00000000000000000000000000000011 = .ok .flush ∧
    decode 0b00000000000000000000000000000100 = .ok .readBit ∧
    decode 0b00000000000000000000000000000101 = .ok .tryReadBit ∧
    decode 0b00000000000000000000000000000110 = .ok .rewind := by decide

theorem test_decode_fibonacci :
    decode 0b00000000000000000000000000000111 = .ok .fibEncode ∧
    decode 0b00000000000000000000000000001000 = .ok .fibDecode ∧
    decode 0b00000000000000000000000000001001 = .ok .fibTryDecode := by decide

theorem test_decode_codetable :
    decode 0b00000000000000000000000000001010 = .ok .tblForward ∧
    decode 0b00000000000000000000000000001011 = .ok .tblBackward := by decide

theorem test_decode_framecodec :
    decode 0b00000000000000000000000000001100 = .ok .frmEncode ∧
    decode 0b00000000000000000000000000001101 = .ok .frmDecode := by decide

theorem test_decode_illegal :
    decode 0b00000000000000000000000000001110 = .error .reservedOpcode ∧
    decode 0b00000000000000000000000000011111 = .error .reservedOpcode ∧
    decode 0b00000000000000000000000000100000 = .error .reservedBits ∧
    decode 0b10000000000000000000000000000000 = .error .reservedBits := by decide

/-- The fetch place: the very next step runs the word (FIB_ENCODE 0 gives 3 and 2, 95_test_vectors.md 3.1). -/
theorem test_withFetchWord :
    resultOf (fun t => (t.res0, t.res1, t.busy)) (step (State.reset.withFetchWord 32 0x07)) = some (3, 2, false) := by
  decide +kernel

/-! ## Commands: 95_test_vectors.md -/

/-- B1. -/
theorem test_nop : resultOf (fun t => (t.code, t.res0, t.bitsRead)) (exec .nop { State.reset with code := .range, res0 := 7 }) =
    some (.ok, 7, 0) := by decide +kernel

/-- B3. -/
theorem test_writeBit_completes_byte :
    resultOf (fun t => (t.out, readReg .wrState t, t.outCount))
      (exec .writeBit { State.reset with arg0 := 1, wrCnt := 7, wrByte := 0xFE }) = some ([0xFF], 0, 1) := by decide +kernel

/-- B4. -/
theorem test_writeBit_uses_bit_0 :
    resultOf (readReg .wrState) (exec .writeBit { State.reset with arg0 := 2 }) = some 0x100 := by decide +kernel

/-- B10. -/
theorem test_writePattern_crosses_byte :
    resultOf (fun t => (t.out, readReg .wrState t))
      (exec .writePattern { State.reset with arg0 := 0b1011, arg1 := 4, wrCnt := 5, wrByte := 0xA8 }) =
      some ([0xAD], 0x180) := by decide +kernel

/-- B9. -/
theorem test_writePattern_too_long :
    resultOf (fun t => (t.out, t.code)) (exec .writePattern { State.reset with arg0 := 1, arg1 := 33 }) =
      some ([], .illegal) := by decide +kernel

/-- B12. -/
theorem test_flush :
    resultOf (fun t => (t.out, t.res0, readReg .wrState t)) (exec .flush { State.reset with wrByte := 0xC0, wrCnt := 2 }) =
      some ([0xC0], 6, 0) := by decide +kernel

/-- B14: the first read of 0xA0. -/
theorem test_readBit :
    resultOf (fun t => (t.res0, readReg .rdState t, t.bitsRead)) (exec .readBit (fresh [0xA0])) = some (1, 0x40A0, 1) := by
  decide +kernel

/-- B15. -/
theorem test_readBit_exhausted :
    resultOf (fun t => (t.res0, t.code, t.bitsRead)) (exec .readBit (fresh [])) = some (0xFFFFFFFF, .exhausted, 0) := by
  decide +kernel

/-- B16: the ninth read of 0x80. -/
theorem test_tryReadBit_keeps_runout :
    resultOf (fun t => (t.res0, t.code, t.runoutLeft)) (exec .tryReadBit { fresh [0x80] with inPos := 1, runoutLeft := 5 }) =
      some (0xFFFFFFFF, .exhausted, 5) := by decide +kernel

/-- B17, B19. -/
theorem test_rewind :
    resultOf (fun t => (t.runoutLeft, t.bitsRead, t.inPos, readReg .rdState t, readReg .wrState t))
      (exec .rewind { fresh [0xA0] with runoutCfg := 3, bitsRead := 3, inPos := 1, rdByte := 0xA0, rdMask := 0x10,
                                        wrByte := 0x80, wrCnt := 1 }) = some (3, 0, 0, 0, 0x180) := by decide +kernel

/-- 3.1: ARG0 = 100. -/
theorem test_fibEncode :
    resultOf (fun t => (t.res0, t.res1, t.out, readReg .wrState t)) (exec .fibEncode { State.reset with arg0 := 100 }) =
      some (0x543, 11, [0xA8], 0x360) := by decide +kernel

/-- 3.1: the first value outside the domain. -/
theorem test_fibEncode_range :
    resultOf (fun t => (t.res0, t.res1, t.code)) (exec .fibEncode { State.reset with arg0 := 1346268 }) =
      some (0xFFFFFFFF, 0, .range) := by decide +kernel

/-- 3.2: the largest decodable value. -/
theorem test_fibDecode :
    resultOf (fun t => (t.res0, t.res1, t.code)) (exec .fibDecode (fresh [0x55, 0x55, 0x55, 0x56])) =
      some (2178307, 31, .ok) := by decide +kernel

/-- 3.2: `00` with 30 run-out bits overruns. -/
theorem test_fibDecode_runout :
    resultOf (fun t => (t.code, t.res1, t.runoutLeft)) (exec .fibDecode { fresh [0x00] with runoutLeft := 30 }) =
      some (.overrun, 31, 7) := by decide +kernel

/-- 3.2: the same input read strictly. -/
theorem test_fibTryDecode_strict :
    resultOf (fun t => (t.code, t.res1, t.runoutLeft)) (exec .fibTryDecode { fresh [0x00] with runoutLeft := 30 }) =
      some (.exhausted, 8, 30) := by decide +kernel

/-- 3.2: `B0`. -/
theorem test_fibTryDecode :
    resultOf (fun t => (t.res0, t.res1, readReg .rdState t)) (exec .fibTryDecode (fresh [0xB0])) = some (3, 4, 0x08B0) := by
  decide +kernel

/-- 4.1: 0x141 is 'A', its upper bits ignored. -/
theorem test_tblForward :
    resultOf (fun t => (t.res0, t.res1)) (exec .tblForward { State.reset with arg0 := 0x141 }) = some (0x123, 9) := by
  decide +kernel

/-- 4.2: the last valid codepoint. -/
theorem test_tblBackward :
    resultOf (fun t => (t.res0, t.code)) (exec .tblBackward { State.reset with arg0 := 420 }) = some (0xFE, .ok) := by
  decide +kernel

/-- 4.2: an INVALID entry. -/
theorem test_tblBackward_invalid :
    resultOf (fun t => (t.res0, t.code)) (exec .tblBackward { State.reset with arg0 := 7 }) = some (0xFFFFFFFF, .invalid) := by
  decide +kernel

/-- 43_framing.md R212: the frame of "Hi". -/
theorem test_frmEncode :
    resultOf (fun t => (t.out, t.res0, t.res1, t.inPos)) (exec .frmEncode (fresh [0x48, 0x69])) =
      some ([0x14, 0x86, 0xA9, 0xA3, 0x2A, 0x43, 0x00], 49, 2, 2) := by decide +kernel

/-- 20_memory.md R68. -/
theorem test_frmEncode_align :
    resultOf (fun t => (t.out, t.code)) (exec .frmEncode { fresh [0x48] with rdMask := 0x40 }) = some ([], .align) := by
  decide +kernel

/-- The frame of "Hi" decoded: H, F, C and V set, reason FOOTER. -/
theorem test_frmDecode :
    resultOf (fun t => (t.out, t.msgBits, readReg .msgResult t))
      (exec .frmDecode (fresh [0x14, 0x86, 0xA9, 0xA3, 0x2A, 0x43, 0x00])) = some ([0x48, 0x69], 49, 0x117) := by
  decide +kernel

/-- 43_framing.md R223: a budget of 32 bits on a dead line (MSG_RESULT 0x704). -/
theorem test_frmDecode_deadline :
    resultOf (fun t => (t.msgBits, readReg .msgResult t))
      (exec .frmDecode { fresh [0, 0, 0, 0, 0] with leadinLimit := 32 }) = some (32, 0x704) := by decide +kernel

/-- 10_state.md R30: a store to RUNOUT_CFG takes 16 bits and reloads RUNOUT_LEFT. -/
theorem test_store_runoutCfg :
    resultOf (fun t => (t.runoutCfg, t.runoutLeft)) (step (queued (.store .word 0x1C 0x12345))) = some (0x2345, 0x2345) := by
  decide +kernel

/-- 10_state.md R23. -/
theorem test_load_id : resultOf State.hostReads (step (queued (.load .word 0x00))) = some [0x46420001] := by decide +kernel

/-- 70_reset_and_hazards.md R291: a reset after the first two bytes of a pattern of four. -/
theorem test_overlapped_abandoned :
    resultOf (fun t => (delivered t, t.outCount, t.arg0))
      (step { queued (.overlapped .word 0x04 0x02 [] (some 2)) with arg0 := 0xDEADBEEF, arg1 := 32 }) =
      some ([0xDE, 0xAD], 0, 0) := by decide +kernel

/-- 70_reset_and_hazards.md R300: STATUS reads BUSY = 1 while WRITE_BIT runs, a store to ARG0 then is lost. -/
theorem test_overlapped_accesses :
    resultOf (fun t => (t.hostReads, t.arg0, readReg .wrState t))
      (step { queued (.overlapped .word 0x04 0x01 [.store .word 0x08 0, .load .word 0x18] none) with arg0 := 1 }) =
      some ([1], 1, 0x180) := by decide +kernel

/-- 10_state.md R40: a load of a reserved offset reads 0 while BUSY, too. -/
theorem test_overlapped_reserved :
    resultOf (fun t => (t.hostReads, t.freeIx)) (step (queued (.overlapped .word 0x04 0x00 [.load .word 0x44] none))) =
      some ([0], 0) := by decide +kernel

/-! ## Hypotheses that can be met

One theorem per statement that has hypotheses, by the statement's name, its clauses at the ends of their ranges. -/

theorem reset_romOk : romOk State.reset := ⟨refCfg_wellFormed, romOf_refCfg⟩

theorem fresh_romOk (inp : List Byte) : romOk (fresh inp) := ⟨refCfg_wellFormed, romOf_refCfg⟩

theorem reset_readerOk : readerOk State.reset := ⟨by decide, by decide, by decide⟩

theorem reset_writerOk : writerOk State.reset := by unfold writerOk; decide

theorem reset_messageOk : messageOk State.reset := by unfold messageOk; decide

/-- The state after reset with one action queued is sound. -/
theorem queued_inv (a : HostAction) : (queued a).Inv where
  rom := reset_romOk
  reader := reset_readerOk
  writer := reset_writerOk
  count := rfl
  runout := Nat.le_refl _
  message := reset_messageOk
  idle := rfl
  released := rfl

theorem witness_StepRunsTheDecodedCommand : ∃ (s : State) (w : Word) (i : Instr) (rest : List HostAction),
    s.busy = false ∧ s.host = .store .word (s.cfg.regBase + 0x04) w :: rest ∧ decode w = .ok i :=
  ⟨queued (.store .word 0x04 0x0D), 0x0D, .frmDecode, [], rfl, rfl, rfl⟩

theorem witness_IllegalCommandOnlySetsItsCode :
    (∀ w ∈ [(0x20 : Word), 0x80000000, 0x0E, 0x1F], ∃ (s : State) (rest : List HostAction),
      s.busy = false ∧ s.host = .store .word (s.cfg.regBase + 0x04) w :: rest ∧
      (w.extractLsb' 5 27 ≠ 0 ∨ 0x0E ≤ (w.extractLsb' 0 5).toNat)) ∧
    ∃ (s : State) (w : Word) (rest : List HostAction),
      s.busy = false ∧ s.host = .store .word (s.cfg.regBase + 0x04) w :: rest ∧ w = 0x02 ∧ 32 < s.arg1.toNat := by
  refine ⟨fun w hw => ⟨queued (.store .word 0x04 w), [], rfl, rfl, by fin_cases hw <;> decide⟩, ?_⟩
  exact ⟨{ queued (.store .word 0x04 0x02) with arg1 := 33 }, 0x02, [], rfl, rfl, rfl, by decide⟩

theorem witness_IgnoredStoresAndHarmlessLoads :
    (∃ (s : State) (v : Word) (rest : List HostAction), s.host = .store .word (s.cfg.regBase + 0x04) v :: rest ∧ s.busy = true) ∧
    (∀ off ∈ [0x00, 0x40], ∃ (s : State) (v : Word) (rest : List HostAction),
      s.host = .store .word (s.cfg.regBase + off) v :: rest ∧ s.busy = false) ∧
    (∀ off ∈ [0x00, 0xFC], ∃ (s : State) (rest : List HostAction), s.host = .load .word (s.cfg.regBase + off) :: rest) := by
  refine ⟨⟨{ queued (.store .word 0x04 0x01) with busy := true }, 0x01, [], rfl, rfl⟩,
    fun off _ => ⟨{ State.reset with host := [.store .word (State.reset.cfg.regBase + off) 5] }, 5, [], rfl, rfl⟩,
    fun off _ => ⟨{ State.reset with host := [.load .word (State.reset.cfg.regBase + off)] }, [], rfl⟩⟩

theorem witness_StoresToWritableRegisters : ∀ off ∈ [0x08, 0x0C, 0x1C, 0x24], ∃ (s : State) (v : Word) (rest : List HostAction),
    s.busy = false ∧ s.host = .store .word (s.cfg.regBase + off) v :: rest :=
  fun off _ => ⟨{ State.reset with host := [.store .word (State.reset.cfg.regBase + off) 0xFFFFFFFF] }, _, [], rfl, rfl⟩

/-- Idle; `queued` with BUSY = 1 meets the hypotheses as well. -/
theorem witness_ReservedOffsetsAndFieldsReadZero : ∀ off ∈ [0x44, 0xFC],
    (∃ (s : State) (rest : List HostAction), s.busy = false ∧ s.host = .load .word (s.cfg.regBase + off) :: rest) ∧
    (∃ (s : State) (v : Word) (rest : List HostAction), s.busy = false ∧ s.host = .store .word (s.cfg.regBase + off) v :: rest) :=
  fun off _ => ⟨⟨{ State.reset with host := [.load .word (State.reset.cfg.regBase + off)] }, [], rfl, rfl⟩,
    ⟨{ State.reset with host := [.store .word (State.reset.cfg.regBase + off) 1] }, 1, [], rfl, rfl⟩⟩

theorem witness_LoadsReturnTheRegisterMap : ∀ off ∈ [0x00, 0x04, 0x08, 0x0C, 0x10, 0x14, 0x18, 0x1C, 0x20, 0x24, 0x28, 0x2C,
    0x30, 0x34, 0x38, 0x3C, 0x40], ∃ (s : State) (rest : List HostAction),
    s.busy = false ∧ s.host = .load .word (s.cfg.regBase + off) :: rest :=
  fun off _ => ⟨{ State.reset with host := [.load .word (State.reset.cfg.regBase + off)] }, [], rfl, rfl⟩

theorem witness_UnsupportedAccessIsRefused :
    ∀ p ∈ [(Width.byte, 0), (.half, 252), (.word, 1), (.word, 255)], (p.1 ≠ .word ∨ p.2 % 4 ≠ 0) ∧ p.2 < 256 ∧
      (∃ (s : State) (rest : List HostAction), s.host = .load p.1 (s.cfg.regBase + p.2) :: rest) ∧
      (∃ (s : State) (v : Word) (during : List Access) (abandoned : Option Nat) (rest : List HostAction),
        s.host = .overlapped p.1 (s.cfg.regBase + p.2) v during abandoned :: rest) ∧
      (∃ (s : State) (v : Word) (rest : List HostAction), s.host = .store p.1 (s.cfg.regBase + p.2) v :: rest) :=
  fun p hp => ⟨by revert p; decide, by revert p; decide,
    ⟨{ State.reset with host := [.load p.1 (State.reset.cfg.regBase + p.2)] }, [], rfl⟩,
    ⟨{ State.reset with host := [.overlapped p.1 (State.reset.cfg.regBase + p.2) 0 [] none] }, 0, [], none, [], rfl⟩,
    ⟨{ State.reset with host := [.store p.1 (State.reset.cfg.regBase + p.2) 0] }, 0, [], rfl⟩⟩

/-- LaunchGivesTheResetValues and LaunchIsSound, too. -/
theorem witness_LaunchRefusesExactlyIllFormedConfigurations :
    (∃ (inp : List Byte) (program : List HostAction) (s : State), inp.length < 2 ^ 32 ∧ launch refCfg inp program = .next s) ∧
    refCfg.wellFormed = true ∧ (∃ cfg : Config, cfg.wellFormed = false) := by
  refine ⟨⟨[0x48], [.reset], launchState refCfg refRom [0x48] [.reset], by decide, ?_⟩, refCfg_wellFormed, _, test_w7_refuses⟩
  simp [launch, refCfg_wellFormed, romOf_refCfg, inputFits]

theorem witness_LaunchIsSound : ∃ (cfg : Config) (inp : List Byte) (program : List HostAction) (s : State),
    launch cfg inp program = .next s :=
  ⟨refCfg, _, _, _, witness_LaunchRefusesExactlyIllFormedConfigurations.1.choose_spec.choose_spec.choose_spec.2⟩

theorem witness_HostResetRestoresTheRegisters : ∃ (s : State) (rest : List HostAction), s.host = .reset :: rest :=
  ⟨queued .reset, [], rfl⟩

theorem witness_ResetInsideACommandKeepsOnlyAppendedBytes :
    ∃ (s u : State) (w : Word) (i : Instr) (n : Nat) (rest : List HostAction),
      s.busy = false ∧ s.host = .overlapped .word (s.cfg.regBase + 0x04) w [] (some n) :: rest ∧ decode w = .ok i ∧
      exec i { s with host := rest, busy := true } = .next u :=
  ⟨queued (.overlapped .word 0x04 0x00 [] (some 0)), _, 0x00, .nop, 0, [], rfl, rfl, rfl, rfl⟩

theorem witness_AccessesWhileBusyDoNotDisturbTheCommand : ∀ off ∈ [0x00, 0x40, 0x44, 0xFC], ∃ (s s' s'' u u' u'' : State) (w : Word) (i : Instr)
    (v : Word) (rest : List HostAction), decode w = .ok i ∧ s.busy = false ∧ s'.busy = false ∧ s''.busy = false ∧
    exec i { s with host := rest, busy := true } = .next u ∧ exec i { s' with host := rest, busy := true } = .next u' ∧
    exec i { s'' with host := rest, busy := true } = .next u'' ∧
    s.host = .overlapped .word (s.cfg.regBase + 0x04) w [.store .word (s.cfg.regBase + off) v] none :: rest ∧
    s'.host = .overlapped .word (s'.cfg.regBase + 0x04) w [.load .word (s'.cfg.regBase + 0x18)] none :: rest ∧
    s''.host = .overlapped .word (s''.cfg.regBase + 0x04) w [.load .word (s''.cfg.regBase + off)] none :: rest :=
  fun off _ => ⟨queued (.overlapped .word 0x04 0x00 [.store .word (0 + off) 1] none),
    queued (.overlapped .word 0x04 0x00 [.load .word 0x18] none),
    queued (.overlapped .word 0x04 0x00 [.load .word (0 + off)] none), _, _, _, 0x00, .nop, 1, [],
    rfl, rfl, rfl, rfl, rfl, rfl, rfl, rfl, rfl, rfl⟩

theorem witness_StepKeepsSoundness : ∃ s t : State, s.Inv ∧ step s = .next t :=
  ⟨queued (.store .word 0x04 0x01), _, queued_inv _, step_store (s := queued (.store .word 0x04 0x01)) (off := 4) rfl
    (by decide) (by decide)⟩

theorem witness_EveryCommandCompletes : ∃ s : State, s.inp.length < 2 ^ 32 ∧ s.inp ≠ [] :=
  ⟨fresh [0x14, 0x86], by decide, by decide⟩

theorem witness_StepNeverChangesInputOrTables : ∃ s t : State, step s = .next t :=
  ⟨_, _, witness_StepKeepsSoundness.choose_spec.choose_spec.2⟩

/-- NoCommandWritesHostRegisters and ReaderAndWriterAreIndependent, too. -/
theorem witness_CommandsIgnoreStatusAndMessage : ∀ i : Instr, ∃ s t : State, exec i s = .next t := by
  intro i
  cases i
  case tblBackward => exact ⟨{ State.reset with arg0 := 421 }, _, rfl⟩
  case frmEncode => exact ⟨fresh [], _, rfl⟩
  case frmDecode => exact ⟨{ State.reset with wrCnt := 1 }, _, rfl⟩
  all_goals exact ⟨State.reset, _, rfl⟩

theorem witness_CompletionCodesOfEachCommand :
    resultOf State.code (exec .writePattern { State.reset with arg1 := 33 }) = some .illegal ∧
    resultOf State.code (exec .readBit State.reset) = some .exhausted ∧
    resultOf State.code (exec .fibTryDecode (fresh [0x80])) = some .exhausted ∧
    resultOf State.code (exec .fibDecode (fresh [0, 0, 0, 0, 0])) = some .overrun ∧
    resultOf State.code (exec .fibEncode { State.reset with arg0 := 0xFFFFFFFF }) = some .range ∧
    resultOf State.code (exec .frmEncode { State.reset with rdMask := 0x01 }) = some .align ∧
    resultOf State.code (exec .frmDecode { State.reset with wrCnt := 7 }) = some .align ∧
    resultOf State.code (exec .tblBackward { State.reset with arg0 := 421 }) = some .invalid := by decide +kernel

theorem witness_WriteBitAppendsOneBit :
    (∃ s : State, s.wrCnt ≠ 7 ∧ writerOk s) ∧ (∃ s : State, s.wrCnt = 6 ∧ writerOk s) ∧ (∃ s : State, s.wrCnt = 7 ∧ writerOk s) := by
  refine ⟨⟨State.reset, by decide, ?_⟩, ⟨{ State.reset with wrCnt := 6, wrByte := 0xFC }, rfl, ?_⟩,
    ⟨{ State.reset with wrCnt := 7, wrByte := 0xFE }, rfl, ?_⟩⟩ <;> (unfold writerOk; decide)

theorem witness_WritePatternAppendsItsBits :
    (∃ s : State, s.arg1.toNat ≤ 32 ∧ s.arg1.toNat = 0 ∧ writerOk s) ∧
    (∃ s : State, s.arg1.toNat ≤ 32 ∧ s.arg1.toNat = 32 ∧ writerOk s) ∧ (∃ s : State, 32 < s.arg1.toNat ∧ s.arg1.toNat = 33) := by
  refine ⟨⟨State.reset, by decide, by decide, ?_⟩, ⟨{ State.reset with arg1 := 32 }, by decide, by decide, ?_⟩,
    ⟨{ State.reset with arg1 := 33 }, by decide, by decide⟩⟩ <;> (unfold writerOk; decide)

theorem witness_FlushPadsToAByte :
    (∃ s : State, s.wrCnt = 0) ∧ (∃ s : State, s.wrCnt ≠ 0 ∧ s.wrCnt = 1 ∧ writerOk s) ∧
    (∃ s : State, s.wrCnt ≠ 0 ∧ s.wrCnt = 7 ∧ writerOk s) := by
  refine ⟨⟨State.reset, rfl⟩, ⟨{ State.reset with wrCnt := 1, wrByte := 0x80 }, by decide, rfl, ?_⟩,
    ⟨{ State.reset with wrCnt := 7, wrByte := 0xFE }, by decide, rfl, ?_⟩⟩ <;> (unfold writerOk; decide)

/-- TryReadBitNeverUsesRunout, too: the last cached bit of IN, and IN all read. -/
theorem witness_ReadBitDeliversTheNextBit :
    (∃ (s : State) (b : Bool) (rest : BitString), readerOk s ∧ unread s = b :: rest ∧ rest = []) ∧
    (∃ s : State, readerOk s ∧ unread s = [] ∧ s.runoutLeft ≠ 0) ∧
    (∃ s : State, readerOk s ∧ unread s = [] ∧ s.runoutLeft = 0) := by
  refine ⟨⟨{ fresh [0xA1] with inPos := 1, rdByte := 0xA1, rdMask := 0x01 }, true, [], ?_, by decide +kernel, rfl⟩,
    ⟨{ fresh [0xA0] with inPos := 1, runoutLeft := 1 }, ?_, by decide +kernel, by decide⟩,
    ⟨State.reset, ?_, by decide +kernel, rfl⟩⟩ <;> (unfold readerOk; decide +kernel)

/-- The register clauses of ReadBitDeliversTheNextBit and TryReadBitNeverUsesRunout: the last cached bit, and a byte to fetch. -/
theorem witness_ReadBitRegisters : (∃ s : State, s.rdMask ≠ 0 ∧ s.rdMask = 0x01) ∧ (∃ s : State, s.rdMask ≠ 0 ∧ s.rdMask = 0x80) ∧
    (∃ (s : State) (byte : Byte), s.rdMask = 0 ∧ s.inp[s.inPos.toNat]? = some byte) :=
  ⟨⟨{ fresh [0xA1] with rdMask := 0x01 }, by decide, rfl⟩, ⟨{ fresh [0xA1] with rdMask := 0x80 }, by decide, rfl⟩,
    ⟨fresh [0xA1], 0xA1, rfl, rfl⟩⟩

theorem witness_StrictReadsDeliverAllOfIn :
    ∃ s : State, s.inp.length < 2 ^ 32 ∧ s.inPos = 0 ∧ s.rdMask = 0 ∧ s.bitsRead = 0 ∧ s.inp ≠ [] :=
  ⟨fresh [0xA0], by decide, rfl, rfl, rfl, by decide⟩

theorem witness_FlushedStringFillsWholeBytes : ∃ s : State, s.wrByte = 0 ∧ s.wrCnt = 0 := ⟨State.reset, rfl, rfl⟩

theorem witness_FibEncodeWritesTheCode :
    (∃ (s : State) (str : BitString), fibCode s.rom.fib s.arg0.toNat = some str ∧ s.arg0.toNat = 1346267 ∧ writerOk s) ∧
    (∃ s : State, fibCode s.rom.fib s.arg0.toNat = none ∧ s.arg0.toNat = 1346268) := by
  refine ⟨⟨{ State.reset with arg0 := 1346267 }, bits 0x2AAAAAAB 30, by decide +kernel, by decide, ?_⟩,
    ⟨{ State.reset with arg0 := 1346268 }, by decide +kernel, by decide⟩⟩
  unfold writerOk
  decide

/-- EveryCodeEndsInItsOnlyPair, too: the smallest and the largest legal table, at the end of their domains. -/
theorem witness_EncodableDomainAndCodeLength :
    fibCode (fibRom 4) 0 = some [true, true] ∧ fibCode (fibRom 4) 1 = none ∧
    (fibCode (fibRom 47) ((fibRom 47).getD 46 0 - 2)).isSome = true := by decide +kernel

theorem witness_FibonacciRoundTrip : ∃ (s : State) (v : Nat) (str rest : BitString), romOk s ∧ readerOk s ∧
    fibCode s.rom.fib v = some str ∧ unread s = str ++ rest := by
  refine ⟨fresh [0xB0], 3, [true, false, true, true], [false, false, false, false], fresh_romOk _, ?_, by decide +kernel,
    by decide +kernel⟩
  unfold readerOk
  decide +kernel

theorem witness_SymbolBitBound : (∃ s : State, 2 ≤ s.rom.fib.length ∧ (decodeSym .strict s).code = .overrun) ∧
    (∃ s : State, 2 ≤ s.rom.fib.length ∧ (decodeSym .runout s).code = .exhausted) :=
  ⟨⟨fresh [0, 0, 0, 0], by decide, by decide +kernel⟩, ⟨{ State.reset with runoutLeft := 30 }, by decide, by decide +kernel⟩⟩

theorem witness_RunoutNeverCompletesASymbol :
    resultOf State.code (exec .fibDecode { fresh [0xB0] with runoutLeft := 5 }) = some .ok := by decide +kernel

theorem witness_DecodedValuesStayBelowTheTable :
    ∃ (m : ReadMode) (s : State) (v : Nat), romOk s ∧ (decodeSym m s).value = some v ∧ v = 2178307 :=
  ⟨.strict, fresh [0x55, 0x55, 0x55, 0x56], 2178307, fresh_romOk _, by decide +kernel, rfl⟩

theorem witness_DecodedStringsAreUnique : ∃ (s t : State) (x y r q : BitString) (v : Nat), romOk s ∧ t.rom = s.rom ∧
    readerOk s ∧ readerOk t ∧ unread s = x ++ r ∧ unread t = y ++ q ∧
    (decodeSym .strict s).value = some v ∧ (decodeSym .strict s).bitsUsed = x.length ∧
    (decodeSym .strict t).value = some v ∧ (decodeSym .strict t).bitsUsed = y.length := by
  refine ⟨fresh [0xB0], fresh [0xBF], [true, false, true, true], [true, false, true, true], [false, false, false, false],
    [true, true, true, true], 3, fresh_romOk _, rfl, ?_, ?_, by decide +kernel, by decide +kernel, by decide +kernel,
    by decide +kernel, by decide +kernel, by decide +kernel⟩ <;> (unfold readerOk; decide +kernel)

theorem witness_TblBackwardReadsTheBackwardMap :
    (∃ (s : State) (b : Byte), s.rom.back[s.arg0.toNat]? = some (some b) ∧ s.arg0 = 420) ∧
    (∃ s : State, s.rom.back[s.arg0.toNat]? = some none ∧ s.arg0 = 418) ∧
    (∃ s : State, s.rom.back.length ≤ s.arg0.toNat ∧ s.arg0 = 421) :=
  ⟨⟨{ State.reset with arg0 := 420 }, 0xFE, by decide +kernel, rfl⟩, ⟨{ State.reset with arg0 := 418 }, by decide +kernel, rfl⟩,
    ⟨{ State.reset with arg0 := 421 }, by decide +kernel, rfl⟩⟩

/-- A configuration, a codeword that stands next in IN, an assigned codepoint at either end of the map, and two ranks. -/
theorem witness_CodeTableInvariants :
    refCfg.wellFormed = true ∧ romOf refCfg = some refRom ∧
    (∃ (b : Byte) (s : State) (rest : BitString), s.rom = refRom ∧ readerOk s ∧
      unread s = codewordBits (forwardWord refRom b) ++ rest) ∧
    backwardByte refRom 0 = some 0x00 ∧ backwardByte refRom 420 = some 0xFE ∧
    refCfg.priority[0]? = some 0x00 ∧ refCfg.priority[255]? = some 0xFE := by
  refine ⟨refCfg_wellFormed, romOf_refCfg, ⟨0x65, fresh [0xB0], [false, false, false, false], rfl, ?_, by decide +kernel⟩,
    by decide +kernel, by decide +kernel, by decide +kernel, by decide +kernel⟩
  unfold readerOk
  decide +kernel

theorem witness_FrmEncodeWritesTheFrame :
    (∃ s : State, s.inp.length < 2 ^ 32 ∧ s.inPos.toNat ≤ s.inp.length ∧ s.rdMask = 0 ∧ writerOk s ∧ s.wrCnt = 3) ∧
    (∃ s : State, s.inp.length < 2 ^ 32 ∧ s.inPos.toNat ≤ s.inp.length ∧ s.rdMask ≠ 0) := by
  refine ⟨⟨{ fresh [0x48] with inPos := 1, wrByte := 0xE0, wrCnt := 3 }, by decide, by decide, rfl, ?_, rfl⟩,
    ⟨{ fresh [0x48] with inPos := 1, rdMask := 0x01 }, by decide, by decide, by decide⟩⟩
  unfold writerOk
  decide

theorem witness_FrmEncodeEqualsBitCommands : ∃ s : State, s.rdMask = 0 ∧ s.rom.head.length ≤ 32 ∧ s.rom.foot.length ≤ 32 ∧
    (∀ b, (forwardWord s.rom b).length ≤ 32) ∧ s.inp ≠ [] :=
  ⟨fresh [0x48], rfl, by decide, by decide, by decide +kernel, by decide⟩

theorem witness_FrmDecodeCompletesWithItsReport :
    (∃ s : State, s.inp.length < 2 ^ 32 ∧ s.wrCnt = 0) ∧ (∃ s : State, s.inp.length < 2 ^ 32 ∧ s.wrCnt ≠ 0) :=
  ⟨⟨fresh [0x14], by decide, rfl⟩, ⟨{ fresh [0x14] with wrCnt := 7 }, by decide, by decide⟩⟩

/-- The internal registers in a scan and in a message that has emitted `n` bytes. -/
def regsAt (st : FState) (n : Word) : FrameRegs :=
  ⟨st, 0b000010100100001, 20, n, st == .inMessage, false, false, true, .unset, 0⟩

/-- The end of IN; the last bits of the header; a bit that matches nothing, at the budget, below it, and without one. -/
theorem witness_LeadInRoundFollowsTheRules :
    (∃ s : State, s.frame = some (regsAt .leadIn 0) ∧ getBitTry s = none) ∧
    (∃ (s : State) (b : Bool) (v : State) (g : FrameRegs), s.frame = some { regsAt .leadIn 0 with win := 0x0A43 } ∧
      getBitTry s = some (b, v) ∧ g.win = (2 * 0x0A43 + b.toNat) % 2 ^ s.cfg.windowBits ∧
      g.win % 2 ^ (s.rom.head.length + 1) = 2 * s.rom.head.pattern) ∧
    (∀ lim ∈ [(21 : BitVec 16), 22, 0], ∃ (s : State) (b : Bool) (v : State), s.leadinLimit = lim ∧
      s.frame = some (regsAt .leadIn 0) ∧ getBitTry s = some (b, v) ∧
      (2 * (regsAt .leadIn 0).win + b.toNat) % 2 ^ s.cfg.windowBits % 2 ^ (s.rom.head.length + 1) ≠ 2 * s.rom.head.pattern) := by
  refine ⟨⟨{ State.reset with frame := some (regsAt .leadIn 0) }, rfl, rfl⟩, ?_, fun lim hl => ?_⟩
  · exact ⟨{ fresh [0x00] with frame := some { regsAt .leadIn 0 with win := 0x0A43 } }, _, _,
      { regsAt .leadIn 0 with win := 0x1486 }, rfl, rfl, by decide +kernel, by decide +kernel⟩
  · exact ⟨{ fresh [0x00] with frame := some (regsAt .leadIn 0), leadinLimit := lim }, _, _, rfl, rfl, rfl, by fin_cases hl <;> decide +kernel⟩

/-- Each case of a round with each pad bit: IN, the bytes emitted, the symbol, the pad bit. -/
theorem witness_MessageRoundFollowsTheRules :
    (∀ inp ∈ [([0x90] : List Byte), [0, 0, 0, 0]], (decodeSym .strict (fresh inp)).value = none) ∧
    ∀ row ∈ ([([0x14, 0x86], 0, 682, some false), ([0x14, 0x87], 0, 682, some true), ([0x14, 0x86], 1, 682, some false),
        ([0x14, 0x87], 1, 682, some true), ([0x54, 0x86], 0, 684, some false), ([0x54, 0x87], 1, 684, some true),
        ([0xC0], 0, 0, some false), ([0xE0], 0, 0, some true), ([0x43], 5, 22, none),
        ([0x0C], 0, 7, some false), ([0x0E], 0, 7, some true), ([0x29, 0x0C], 0, 421, some false)] :
        List (List Byte × Word × Nat × Option Bool)),
      let s : State := { fresh row.1 with frame := some (regsAt .inMessage row.2.1) }
      (decodeSym .strict s).value = some row.2.2.1 ∧
      (getBitTry (decodeSym .strict s).after).map Prod.fst = row.2.2.2 := by decide +kernel

/-- A frame, and an IN without a header. -/
theorem witness_FrmDecodeRunsItsRounds :
    (((loopUntil leadInRound 16 { fresh [0x14, 0x86, 0x54, 0x86] with frame := some (startRegs 0) }).bind
      (fun u => if (u.frame.map (·.fstate)) = some .inMessage then loopUntil messageRound 1 u else none)).bind
        State.frame).isSome = true ∧
    ((loopUntil leadInRound 9 { fresh [0xFF] with frame := some (startRegs 0) }).bind State.frame).map (·.fstate) =
      some .error := by decide +kernel

/-- A valid message and one without a header: what the clauses of the statement tell apart. -/
theorem witness_EndReasonAgreesWithTheFlags :
    resultOf (fun t => (t.msg.reason, t.msg.sawFooter, t.msg.isValid)) (exec .frmDecode (fresh [0x14, 0x86, 0x54, 0x86])) =
      some (.footer, true, true) ∧
    resultOf (fun t => (t.msg.reason, t.msg.sawHeader)) (exec .frmDecode (fresh [0x14, 0x86, 0xA9])) =
      some (.exhausted, true) ∧
    resultOf (fun t => (t.msg.reason, t.msg.sawHeader)) (exec .frmDecode (fresh [0xFF])) = some (.noheader, false) := by
  decide +kernel

/-- A budget of one bit, used up by the only bit read; and one that IN does not last for. -/
theorem witness_LeadInBudgetBoundsTheScan :
    resultOf (fun t => (t.msg.reason, t.msg.sawHeader, t.msgBits))
      (exec .frmDecode { fresh [0xFF] with leadinLimit := 1 }) = some (.deadline, false, 1) ∧
    resultOf (fun t => (t.msg.reason, t.msg.sawHeader, t.msgBits))
      (exec .frmDecode { fresh [0xFF] with leadinLimit := 9 }) = some (.noheader, false, 8) := by decide +kernel

theorem witness_FrmDecodeTakesBitsFromTheFront :
    (∃ s : State, readerOk s ∧ s.wrCnt = 0 ∧
      resultOf (fun t => t.msg.reason) (exec .frmDecode s) = some .exhausted) ∧
    (∃ s : State, readerOk s ∧ s.wrCnt = 0 ∧
      resultOf (fun t => t.msg.reason) (exec .frmDecode s) = some .noheader) := by
  refine ⟨⟨fresh [0x14, 0x86, 0xA9], ?_, rfl, by decide +kernel⟩, ⟨fresh [0xFF], ?_, rfl, by decide +kernel⟩⟩ <;>
    (unfold readerOk; decide +kernel)

theorem witness_EmptyInputHasNoHeader : ∃ s : State, readerOk s ∧ unread s = [] ∧ s.wrCnt = 0 := by
  refine ⟨State.reset, ?_, by decide +kernel, rfl⟩
  unfold readerOk
  decide +kernel

theorem witness_FramingRoundTrip : ∃ p : List Byte, p.length < 2 ^ 28 ∧ p ≠ [] := ⟨[0x00], by decide, by decide⟩

theorem witness_LineFillDoesNotDisturbTheFrame : ∃ (f : Byte) (n : Nat) (p suffix : List Byte),
    f ∈ [(0x00 : Byte), 0xFF, 0xAA, 0x55] ∧ p.length < 2 ^ 27 ∧ n < 2 ^ 27 ∧ suffix.length < 2 ^ 27 ∧ n = 16 ∧ p ≠ [] :=
  ⟨0x55, 16, [0x00], [0x55], by decide, by decide, by decide, by decide, rfl, by decide⟩

/-- The same at bit phase 1: one bit of fill, the empty frame, seven bits behind it. -/
theorem witness_LineFillAtAPhase : ∃ (inp : List Byte) (rest : BitString), inp.length < 2 ^ 32 ∧
    inp.flatMap byteBits = (List.range 1).map (fun k => (0xFF : Byte).getLsbD (7 - k % 8)) ++ frameString refRom [] ++ rest :=
  ⟨[0x8A, 0x43, 0x2A, 0x43, 0x00], List.replicate 7 false, by decide, by decide +kernel⟩

end Sys2Proof.Tests
end

/-! # Proofs: the launch (00_scope.md)

A launch needs two things: a configuration that passes W1 to W8, and the ROMs built from it. W2 and W4 already make the
construction of the ROMs succeed, so the check of the configuration alone decides. -/
section
namespace Sys2Proof.Proofs

open Sys2Proof Sys2Proof.Machine

/-- Well-formedness clause by clause (00_scope.md R9). -/
theorem wellFormed_iff (cfg : Config) : cfg.wellFormed = true ↔
    cfg.w1 = true ∧ cfg.w2 = true ∧ cfg.w3 = true ∧ cfg.w4 = true ∧
    cfg.w5 = true ∧ cfg.w6 = true ∧ cfg.w7 = true ∧ cfg.w8 = true := by
  simp only [Config.wellFormed, Bool.and_eq_true, and_assoc]

/-- What W2 says: the construction of the code table answers. -/
theorem buildTable_of_w2 {cfg : Config} (h : cfg.w2 = true) : ∃ a, buildTable cfg = some a :=
  Option.isSome_iff_exists.mp h

/-- The part of W4 the ROMs need: both sentinels have a Fibonacci code. -/
theorem sentinelCodes_of_w4 {cfg : Config} (h : cfg.w4 = true) :
    (∃ x, fibCode (fibRom cfg.fibLen) cfg.frameHead = some x) ∧
    (∃ y, fibCode (fibRom cfg.fibLen) cfg.frameFoot = some y) := by
  simp only [Config.w4, Bool.and_eq_true] at h
  obtain ⟨⟨⟨-, hhead⟩, hfoot⟩, -⟩ := h
  exact ⟨Option.isSome_iff_exists.mp hhead, Option.isSome_iff_exists.mp hfoot⟩

/-- The ROMs exist as soon as the code table and the two sentinel codes do. -/
theorem romOf_of_parts {cfg : Config} {a : Assigned} {x y : BitString} (ha : buildTable cfg = some a)
    (hx : fibCode (fibRom cfg.fibLen) cfg.frameHead = some x)
    (hy : fibCode (fibRom cfg.fibLen) cfg.frameFoot = some y) : ∃ rom, romOf cfg = some rom := by
  simp only [romOf, ha, hx, hy, Option.some.injEq, exists_eq']

/-- Every well-formed configuration has ROMs (10_state.md R43). -/
theorem romOf_of_wellFormed {cfg : Config} (h : cfg.wellFormed = true) : ∃ rom, romOf cfg = some rom := by
  obtain ⟨-, hw2, -, hw4, -⟩ := (wellFormed_iff cfg).mp h
  obtain ⟨a, ha⟩ := buildTable_of_w2 hw2
  obtain ⟨⟨x, hx⟩, y, hy⟩ := sentinelCodes_of_w4 hw4
  exact romOf_of_parts ha hx hy

/-- R8: an input of fewer than `2^32` bytes passes the check of a launch. -/
theorem inputFits_of_lt {inp : List Byte} (h : inp.length < 2 ^ 32) : inputFits inp = true :=
  decide_eq_true h

section
variable {cfg : Config} {inp : List Byte} (program : List HostAction)

theorem launch_of_wellFormed {rom : Rom} (hinp : inp.length < 2 ^ 32) (h : cfg.wellFormed = true)
    (hrom : romOf cfg = some rom) : launch cfg inp program = .next (launchState cfg rom inp program) := by
  simp only [launch, inputFits_of_lt hinp, h, hrom, if_true]

theorem launch_of_illFormed (hinp : inp.length < 2 ^ 32) (h : cfg.wellFormed = false) :
    launch cfg inp program = .refused .illFormedConfiguration := by
  simp only [launch, inputFits_of_lt hinp, h, if_true]

end

/-- Settles O14: a well-formed configuration has ROMs, so the check of W1 to W8 alone decides between the state of the launch
and the refusal. -/
theorem launchRefusesExactlyIllFormedConfigurations : Obligations.LaunchRefusesExactlyIllFormedConfigurations := by
  intro cfg inp program hinp
  refine ⟨fun h => ?accepted, launch_of_illFormed program hinp⟩
  case accepted =>
    obtain ⟨rom, hrom⟩ := romOf_of_wellFormed h
    exact ⟨launchState cfg rom inp program, launch_of_wellFormed program hinp h hrom⟩

end Sys2Proof.Proofs
end
/-! # Proofs: what a command leaves standing (10_state.md R25 to R45)

`Progress` is the one relation between the state a command finds and every state on its way: the registers and the queue of
the host stand, OUT only grows, and each clause of soundness that held still holds. It is a preorder, every shared operation
is a step in it, and so every command is one. `PlainProgress` adds what all commands but FRM_DECODE leave alone. -/
section
namespace Sys2Proof.Proofs

open Sys2Proof Sys2Proof.Machine

/-- What every command does on its way: nothing of the host's changes, and no clause of soundness is lost. -/
structure Progress (s t : State) : Prop where
  arg0 : t.arg0 = s.arg0
  arg1 : t.arg1 = s.arg1
  runoutCfg : t.runoutCfg = s.runoutCfg
  leadinLimit : t.leadinLimit = s.leadinLimit
  launch : sameLaunch s t
  out : s.out <+: t.out
  outPrior : t.outPrior = s.outPrior
  host : t.host = s.host
  hostReads : t.hostReads = s.hostReads
  freeIx : t.freeIx = s.freeIx
  reader : readerOk s → readerOk t
  writer : writerOk s → writerOk t
  count : s.outCount = BitVec.ofNat 32 s.out.length → t.outCount = BitVec.ofNat 32 t.out.length
  runout : s.runoutLeft.toNat ≤ s.runoutCfg.toNat → t.runoutLeft.toNat ≤ t.runoutCfg.toNat
  message : messageOk s → messageOk t

/-- Progress that writes neither the message registers nor the internal ones: all commands but FRM_DECODE. -/
structure PlainProgress (s t : State) : Prop extends Progress s t where
  frame : t.frame = s.frame
  msg : t.msg = s.msg
  msgBits : t.msgBits = s.msgBits

theorem sameLaunch_trans {s t u : State} (h : sameLaunch s t) (k : sameLaunch t u) : sameLaunch s u := by
  obtain ⟨hcfg, hrom, hinp⟩ := h
  obtain ⟨kcfg, krom, kinp⟩ := k
  exact ⟨kcfg.trans hcfg, krom.trans hrom, kinp.trans hinp⟩

theorem Progress.trans {s t u : State} (h : Progress s t) (k : Progress t u) : Progress s u where
  arg0 := k.arg0.trans h.arg0
  arg1 := k.arg1.trans h.arg1
  runoutCfg := k.runoutCfg.trans h.runoutCfg
  leadinLimit := k.leadinLimit.trans h.leadinLimit
  launch := sameLaunch_trans h.launch k.launch
  out := h.out.trans k.out
  outPrior := k.outPrior.trans h.outPrior
  host := k.host.trans h.host
  hostReads := k.hostReads.trans h.hostReads
  freeIx := k.freeIx.trans h.freeIx
  reader := k.reader ∘ h.reader
  writer := k.writer ∘ h.writer
  count := k.count ∘ h.count
  runout := k.runout ∘ h.runout
  message := k.message ∘ h.message

theorem PlainProgress.trans {s t u : State} (h : PlainProgress s t) (k : PlainProgress t u) : PlainProgress s u where
  toProgress := h.toProgress.trans k.toProgress
  frame := k.frame.trans h.frame
  msg := k.msg.trans h.msg
  msgBits := k.msgBits.trans h.msgBits

/-! ## From what an operation may change -/

/-- Nothing but the results and STATUS differs. -/
def onlyResults (s t : State) : Prop :=
  t = { s with res0 := t.res0, res1 := t.res1, busy := t.busy, code := t.code }

theorem PlainProgress.of_onlyResults {s t : State} (h : onlyResults s t) : PlainProgress s t := by
  unfold onlyResults at h
  rw [h]
  exact ⟨⟨rfl, rfl, rfl, rfl, ⟨rfl, rfl, rfl⟩, List.prefix_rfl, rfl, rfl, rfl, rfl, id, id, id, id, id⟩, rfl, rfl, rfl⟩

theorem PlainProgress.of_onlyWriter {s t : State} (h : onlyWriter s t) (hout : s.out <+: t.out)
    (hwriter : writerOk s → writerOk t)
    (hcount : s.outCount = BitVec.ofNat 32 s.out.length → t.outCount = BitVec.ofNat 32 t.out.length) :
    PlainProgress s t := by
  unfold onlyWriter at h
  rw [h] at hout hwriter hcount ⊢
  exact ⟨⟨rfl, rfl, rfl, rfl, ⟨rfl, rfl, rfl⟩, hout, rfl, rfl, rfl, rfl, id, hwriter, hcount, id, id⟩, rfl, rfl, rfl⟩

theorem PlainProgress.of_onlyReader {s t : State} (h : onlyReader s t) (hreader : readerOk s → readerOk t)
    (hrunout : s.runoutLeft.toNat ≤ s.runoutCfg.toNat → t.runoutLeft.toNat ≤ t.runoutCfg.toNat) : PlainProgress s t := by
  unfold onlyReader at h
  rw [h] at hreader hrunout ⊢
  exact ⟨⟨rfl, rfl, rfl, rfl, ⟨rfl, rfl, rfl⟩, List.prefix_rfl, rfl, rfl, rfl, rfl, hreader, id, id, hrunout, id⟩,
    rfl, rfl, rfl⟩

/-- What a frame decode works on: the writer's pending byte stands, and OUT grows only with OUT_COUNT. -/
theorem Progress.of_onlyDecoder {s t : State} (h : onlyDecoder s t) (hout : s.out <+: t.out)
    (hreader : readerOk s → readerOk t)
    (hcount : s.outCount = BitVec.ofNat 32 s.out.length → t.outCount = BitVec.ofNat 32 t.out.length) : Progress s t := by
  unfold onlyDecoder at h
  rw [h] at hout hreader hcount ⊢
  exact ⟨rfl, rfl, rfl, rfl, ⟨rfl, rfl, rfl⟩, hout, rfl, rfl, rfl, rfl, hreader, id, hcount, id, id⟩

/-! ## Completion and results -/

theorem PlainProgress.refl (s : State) : PlainProgress s s := .of_onlyResults rfl

theorem finish_plainProgress (c : Code) (s : State) : PlainProgress s (finish c s) := .of_onlyResults rfl

theorem setRes0_plainProgress (v : Word) (s : State) : PlainProgress s (setRes0 v s) := .of_onlyResults rfl

theorem setResults_plainProgress (v w : Word) (s : State) : PlainProgress s (setResults v w s) := .of_onlyResults rfl

theorem setBusy_plainProgress (s : State) : PlainProgress s (setBusy s) := .of_onlyResults rfl

/-! ## The bit writer -/

theorem putString_plainProgress (l : BitString) (s : State) : PlainProgress s (putString l s) :=
  .of_onlyWriter (putString_onlyWriter l s) (putString_out l s) (fun h => (putString_written h l).2)
    (fun h => putString_count h l)

theorem putBit_plainProgress (b : Bool) (s : State) : PlainProgress s (putBit b s) :=
  putString_plainProgress [b] s

theorem putBits_plainProgress (p l : Nat) (s : State) : PlainProgress s (putBits p l s) :=
  putString_plainProgress (bits p l) s

theorem putPadded_plainProgress (w : Codeword) (s : State) : PlainProgress s (putPadded w s) :=
  (putBits_plainProgress _ _ s).trans (putBit_plainProgress _ _)

theorem flushOut_writerOk {s : State} (h : writerOk s) : writerOk (flushOut s) := by
  obtain ⟨-, hcnt, hbyte⟩ := flushOut_written h
  simp [writerOk, hcnt, hbyte]

theorem flushOut_plainProgress (s : State) : PlainProgress s (flushOut s) :=
  .of_onlyWriter (flushOut_onlyWriter s) (flushOut_out s) flushOut_writerOk flushOut_count

/-! ## The bit reader -/

/-- A strict read that delivers a bit keeps a sound reader sound. -/
theorem getBitTry_readerOk {s t : State} {b : Bool} (h : getBitTry s = some (b, t)) (hs : readerOk s) : readerOk t := by
  cases hu : unread s with
  | nil => rw [getBitTry_nil hs hu] at h; cases h
  | cons c rest =>
    obtain ⟨t', ht', -, hok, -⟩ := getBitTry_cons hs hu
    rw [ht'] at h
    cases h
    exact hok

theorem getBitTry_plainProgress {s t : State} {b : Bool} (h : getBitTry s = some (b, t)) : PlainProgress s t := by
  have honly := getBitTry_onlyStrictReader h
  exact .of_onlyReader (onlyReader_of_strict honly) (getBitTry_readerOk h) (by rw [honly]; exact id)

/-- A run-out bit leaves the reader's position alone and takes one off RUNOUT_LEFT, which is not 0 (40_bitchannel.md R123). -/
theorem useRunout_plainProgress {s : State} (h : s.runoutLeft ≠ 0) : PlainProgress s (countBit (useRunout s)) := by
  refine .of_onlyReader rfl id fun hle => ?_
  have hlower : (s.runoutLeft - 1).toNat ≤ s.runoutLeft.toNat := by bv_omega
  exact hlower.trans hle

theorem getBitRO_plainProgress {s t : State} {b : Bool} (h : getBitRO s = some (b, t)) : PlainProgress s t := by
  unfold getBitRO at h
  split at h
  · next r hr =>
    cases h
    exact getBitTry_plainProgress hr
  · split at h
    · cases h
    · next hleft =>
      cases h
      exact useRunout_plainProgress hleft

theorem getBit_plainProgress {m : ReadMode} {s t : State} {b : Bool} (h : getBit m s = some (b, t)) :
    PlainProgress s t := by
  cases m with
  | runout => exact getBitRO_plainProgress h
  | strict => exact getBitTry_plainProgress h

theorem finishRead_plain {s : State} {r : Option (Bool × State)} (h : ∀ b t, r = some (b, t) → PlainProgress s t) :
    ∃ c u, finishRead s r = finish c u ∧ PlainProgress s u := by
  cases r with
  | none => exact ⟨_, _, rfl, setRes0_plainProgress _ s⟩
  | some r => exact ⟨_, _, rfl, (h r.1 r.2 rfl).trans (setRes0_plainProgress _ _)⟩

theorem rewindReader_plainProgress (s : State) : PlainProgress s (rewindReader s) :=
  .of_onlyReader rfl (fun ⟨hlen, _, _⟩ => ⟨hlen, Nat.zero_le _, List.mem_cons_self ..⟩) (fun _ => le_refl _)

theorem decodeTerms_plainProgress (m : ReadMode) (terms : List Nat) (acc : Nat) (prev : Bool) (k : Nat) (s : State) :
    PlainProgress s (decodeTerms m terms acc prev k s).after := by
  induction terms generalizing acc prev k s with
  | nil =>
    unfold decodeTerms
    split
    · exact .refl s
    · next r hr => split <;> exact getBit_plainProgress hr
  | cons f terms ih =>
    unfold decodeTerms
    split
    · exact .refl s
    · next r hr =>
      split
      · exact getBit_plainProgress hr
      · exact (getBit_plainProgress hr).trans (ih ..)

theorem decodeSym_plainProgress (m : ReadMode) (s : State) : PlainProgress s (decodeSym m s).after :=
  decodeTerms_plainProgress ..

theorem finishSymbol_plain (m : ReadMode) (s : State) :
    ∃ c u, finishSymbol (decodeSym m s) = finish c u ∧ PlainProgress s u :=
  ⟨_, _, rfl, (decodeSym_plainProgress m s).trans (setResults_plainProgress _ _ _)⟩

/-! ## The frame encoder -/

/-- A payload byte is taken only where IN holds one (43_framing.md R212). -/
theorem takeByte_plainProgress {s : State} (h : s.inPos.toNat < s.inp.length) : PlainProgress s (takeByte s) := by
  refine .of_onlyReader rfl (fun ⟨hlen, _, hmask⟩ => ⟨hlen, ?_, hmask⟩) id
  show (s.inPos + 1).toNat ≤ s.inp.length
  rw [inPos_succ hlen h]
  exact h

theorem putPayload_plainProgress (l : List Byte) (s : State) (h : l.length ≤ s.inp.length - s.inPos.toNat) :
    PlainProgress s (putPayload l s) := by
  induction l generalizing s with
  | nil => exact .refl s
  | cons b rest ih =>
    simp only [List.length_cons] at h
    have htake := takeByte_plainProgress (s := s) (by omega)
    have hput := htake.trans (putPadded_plainProgress (forwardWord s.rom b) _)
    refine hput.trans (ih _ ?_)
    have hpos : (putPadded (forwardWord s.rom b) (takeByte s)).inPos = s.inPos + 1 := by
      have honly : onlyWriter (takeByte s) (putPadded (forwardWord s.rom b) (takeByte s)) :=
        onlyWriter_trans (putBits_onlyWriter _ _ _) (putBit_onlyWriter _ _)
      rw [honly]
      rfl
    rw [hput.launch.2.2, hpos]
    bv_omega

theorem putFrame_plainProgress (s : State) : PlainProgress s (putFrame s) := by
  have hhead := putPadded_plainProgress s.rom.head s
  have honly : onlyWriter s (putPadded s.rom.head s) := onlyWriter_trans (putBits_onlyWriter _ _ _) (putBit_onlyWriter _ _)
  have hpayload := putPayload_plainProgress (payload s) (putPadded s.rom.head s) (by
    rw [honly]
    simp [payload])
  exact ((hhead.trans hpayload).trans (putPadded_plainProgress s.rom.foot _)).trans (flushOut_plainProgress _)

/-! ## The frame decoder -/

theorem setFrame_progress (f : FrameRegs) (s : State) : Progress s (setFrame f s) :=
  .of_onlyDecoder rfl List.prefix_rfl id id

theorem failFrame_progress (r : EndReason) (s : State) : Progress s (failFrame r s) :=
  setFrame_progress _ s

theorem outAppend_progress (b : Byte) (s : State) : Progress s (outAppend b s) :=
  .of_onlyDecoder rfl (List.prefix_append _ _) id (fun h => by simp [h, BitVec.ofNat_add])

theorem leadInRound_progress (s : State) : Progress s (leadInRound s).2 := by
  unfold leadInRound
  split
  · exact failFrame_progress _ s
  · next r hr =>
    have h : Progress s (shiftWindow r.1 r.2) := (getBitTry_plainProgress hr).toProgress.trans (setFrame_progress _ _)
    simp only
    split
    · exact h.trans (setFrame_progress _ _)
    · split
      · exact h.trans (failFrame_progress _ _)
      · exact h

theorem classify_progress (c : Nat) (s : State) : Progress s (classify c s).2 := by
  unfold classify
  split
  · split
    · exact setFrame_progress _ s
    · exact (PlainProgress.refl s).toProgress
  · split
    · exact setFrame_progress _ s
    · split
      · exact (outAppend_progress _ s).trans (setFrame_progress _ _)
      · exact setFrame_progress _ s

theorem readPad_progress (s : State) : Progress s (readPad s).2 := by
  unfold readPad
  split
  · exact (PlainProgress.refl s).toProgress
  · next r hr => exact (getBitTry_plainProgress hr).toProgress

theorem padDamage_progress (pad : Option Bool) (stopped : Bool) (s : State) : Progress s (padDamage pad stopped s) := by
  cases stopped with
  | true => exact setFrame_progress _ s
  | false => exact (setFrame_progress _ s).trans (failFrame_progress _ _)

theorem paddedSymbol_progress (c : Nat) (s : State) : Progress s (paddedSymbol c s).2 := by
  have h := (readPad_progress s).trans (classify_progress c _)
  unfold paddedSymbol
  simp only
  split
  · exact h
  · exact h.trans (padDamage_progress ..)

theorem messageRound_progress (s : State) : Progress s (messageRound s).2 := by
  have h := (decodeSym_plainProgress .strict s).toProgress
  unfold messageRound
  simp only
  split
  · exact h.trans (failFrame_progress _ _)
  · exact h.trans (paddedSymbol_progress ..)

theorem messagePhase_progress {s t : State} (h : messagePhase s = some t) : Progress s t := by
  unfold messagePhase at h
  split at h
  · exact loopUntil_relates (R := Progress) (fun _ _ _ => .trans) messageRound_progress _ _ _ h
  · cases h
    exact (PlainProgress.refl s).toProgress

theorem decodePhases_progress {s t : State} (h : decodePhases s = some t) : Progress s t := by
  obtain ⟨u, hlead, hmessage⟩ := Option.bind_eq_some_iff.mp h
  have hscan := loopUntil_relates (R := Progress) (fun _ _ _ => .trans) leadInRound_progress _ _ _ hlead
  exact ((setFrame_progress _ s).trans hscan).trans (messagePhase_progress hmessage)

/-- The Terminal phase writes the whole MessageResult, IS_VALID by the rule of 43_framing.md R232. -/
theorem terminal_progress (s : State) : Progress s (terminal s) :=
  ⟨rfl, rfl, rfl, rfl, ⟨rfl, rfl, rfl⟩, List.prefix_rfl, rfl, rfl, rfl, rfl, id, id, id, id, fun _ => rfl⟩

theorem releaseFrame_progress (s : State) : Progress s (releaseFrame s) :=
  .of_onlyDecoder rfl List.prefix_rfl id id

/-! ## The commands -/

/-- Every command but FRM_DECODE is plain progress up to its `finish` (00_scope.md R13). -/
theorem exec_plain {i : Instr} (hi : i ≠ .frmDecode) {s t : State} (h : exec i s = .next t) :
    ∃ c u, t = finish c u ∧ PlainProgress s u := by
  cases i with
  | nop =>
    cases h
    exact ⟨_, _, rfl, .refl s⟩
  | writeBit =>
    cases h
    exact ⟨_, _, rfl, putBit_plainProgress _ s⟩
  | writePattern =>
    change execWritePattern s = .next t at h
    unfold execWritePattern at h
    split at h
    · cases h
      exact ⟨_, _, rfl, .refl s⟩
    · cases h
      exact ⟨_, _, rfl, putBits_plainProgress _ _ s⟩
  | flush =>
    cases h
    exact ⟨_, _, rfl, (flushOut_plainProgress s).trans (setRes0_plainProgress _ _)⟩
  | readBit =>
    cases h
    exact finishRead_plain fun _ _ => getBitRO_plainProgress
  | tryReadBit =>
    cases h
    exact finishRead_plain fun _ _ => getBitTry_plainProgress
  | rewind =>
    cases h
    exact ⟨_, _, rfl, rewindReader_plainProgress s⟩
  | fibEncode =>
    cases h
    cases fibCode s.rom.fib (valueOperand s) with
    | none => exact ⟨_, _, rfl, setResults_plainProgress _ _ s⟩
    | some str => exact ⟨_, _, rfl, (putBits_plainProgress _ _ s).trans (setResults_plainProgress _ _ _)⟩
  | fibDecode =>
    cases h
    exact finishSymbol_plain .runout s
  | fibTryDecode =>
    cases h
    exact finishSymbol_plain .strict s
  | tblForward =>
    cases h
    exact ⟨_, _, rfl, setResults_plainProgress _ _ s⟩
  | tblBackward =>
    change execTblBackward s = .next t at h
    unfold execTblBackward at h
    split at h <;>
    · cases h
      exact ⟨_, _, rfl, setRes0_plainProgress _ s⟩
  | frmEncode =>
    change execFrmEncode s = .next t at h
    unfold execFrmEncode at h
    split at h
    · cases h
      exact ⟨_, _, rfl, .refl s⟩
    · cases h
      exact ⟨_, _, rfl, (putFrame_plainProgress s).trans (setResults_plainProgress _ _ _)⟩
  | frmDecode => exact absurd rfl hi

theorem exec_plainProgress {i : Instr} (hi : i ≠ .frmDecode) {s t : State} (h : exec i s = .next t) :
    PlainProgress s t := by
  obtain ⟨c, u, rfl, hu⟩ := exec_plain hi h
  exact hu.trans (finish_plainProgress c u)

/-- The two ends of FRM_DECODE (43_framing.md R220): ALIGN with nothing else changed, or the report of a whole decode. -/
theorem execFrmDecode_cases {s t : State} (h : exec .frmDecode s = .next t) :
    (s.wrCnt ≠ 0 ∧ t = finish .align s) ∨
    (s.wrCnt = 0 ∧ ∃ u, decodePhases s = some u ∧ t = finish .ok (releaseFrame (terminal u))) := by
  change execFrmDecode s = .next t at h
  unfold execFrmDecode at h
  split at h
  · next hcnt =>
    cases h
    exact .inl ⟨hcnt, rfl⟩
  · next hcnt =>
    split at h
    · next u hu =>
      cases h
      exact .inr ⟨not_not.mp hcnt, u, hu, rfl⟩
    · cases h

theorem exec_progress {i : Instr} {s t : State} (h : exec i s = .next t) : Progress s t := by
  by_cases hi : i = .frmDecode
  · subst hi
    obtain ⟨-, rfl⟩ | ⟨-, u, hu, rfl⟩ := execFrmDecode_cases h
    · exact (finish_plainProgress _ s).toProgress
    · exact (((decodePhases_progress hu).trans (terminal_progress u)).trans (releaseFrame_progress _)).trans
        (finish_plainProgress _ _).toProgress
  · exact (exec_plainProgress hi h).toProgress

/-- A command leaves the block idle, and no value in the internal registers that was not there before it (10_state.md R42). -/
theorem exec_ends {i : Instr} {s t : State} (h : exec i s = .next t) :
    t.busy = false ∧ (s.frame = none → t.frame = none) := by
  by_cases hi : i = .frmDecode
  · subst hi
    obtain ⟨-, rfl⟩ | ⟨-, u, -, rfl⟩ := execFrmDecode_cases h
    · exact ⟨rfl, id⟩
    · exact ⟨rfl, fun _ => rfl⟩
  · obtain ⟨c, u, rfl, hu⟩ := exec_plain hi h
    exact ⟨rfl, fun hs => hu.frame.trans hs⟩

/-- Settles O19: every command is progress, which leaves the host's registers alone and lets OUT only grow. -/
theorem noCommandWritesHostRegisters : Obligations.NoCommandWritesHostRegisters := by
  intro i s t h
  have p := exec_progress h
  exact ⟨p.arg0, p.arg1, p.runoutCfg, p.leadinLimit, p.launch, p.out, p.outPrior, p.host, p.hostReads, p.freeIx⟩

end Sys2Proof.Proofs
end

/-! # Proofs: what a step can do (70_reset_and_hazards.md R300, R310)

A step is a sequence of `HostEvent`s: one per load, store, command or reset that the host's action asks for. What every
event keeps, every step keeps. -/
section
namespace Sys2Proof.Proofs

open Sys2Proof Sys2Proof.Machine

/-- What a launched command finds of the state `s`: BUSY = 1, and the record of the host's loads made since (R300). -/
def underCommand (reads : List Word) (n : Nat) (s : State) : State :=
  { s with busy := true, hostReads := reads, freeIx := n }

/-- One thing that happens to the block in a step: an action leaves the queue, a load, a store, a command that runs to its
`finish`, the reset input while idle, or the reset input inside a command (R291). -/
inductive HostEvent : State → State → Prop where
  | take (s : State) (rest : List HostAction) : HostEvent s { s with host := rest }
  | load (r : Reg) (s : State) : HostEvent s (hostLoad r s)
  | write (r : Reg) (v : Word) (s : State) : HostEvent s (writeReg r v s)
  | command {s t : State} {w : Word} {reads : List Word} {n : Nat}
      (h : launchCommand w (underCommand reads n s) = .next t) : HostEvent s t
  | reset (s : State) : HostEvent s (hostReset s)
  | abandon {s t : State} {w : Word} {reads : List Word} {n : Nat} (k : Nat)
      (h : launchCommand w (underCommand reads n s) = .next t) : HostEvent s (abandonCommand k (underCommand reads n s) t)

/-- The events of a step, one after another. -/
abbrev HostEvents : State → State → Prop :=
  Relation.ReflTransGen HostEvent

/-! ## From the host's action to its events -/

/-- BUSY is 1 while a command runs, whatever it was before. -/
theorem launchCommand_underCommand (w : Word) (s : State) :
    launchCommand w (underCommand s.hostReads s.freeIx s) = launchCommand w s := rfl

theorem accessWindow_next {w : Width} {addr : Nat} {s t : State} {act : Reg → Host.Outcome State Fault Refusal}
    (h : accessWindow w addr s act = .next t) : ∃ r, act r = .next t := by
  unfold accessWindow at h
  split at h
  · cases h
  · split at h
    · exact ⟨_, h⟩
    · cases h

theorem hostStore_events {r : Reg} {v : Word} {s t : State} (h : hostStore r v s = .next t) : HostEvents s t := by
  cases hb : s.busy with
  | true =>
    rw [hostStore_busy hb] at h
    cases h
    exact .refl
  | false =>
    by_cases hr : r = .cmd
    · subst hr
      rw [hostStore_cmd hb, ← launchCommand_underCommand] at h
      exact .single (.command h)
    · rw [hostStore_reg hb hr] at h
      cases h
      exact .single (.write r v s)

theorem performAccess_events {a : Access} {s t : State} (h : performAccess a s = .next t) : HostEvents s t := by
  unfold performAccess at h
  cases a with
  | load w addr =>
    obtain ⟨r, hr⟩ := accessWindow_next h
    cases hr
    exact .single (.load r s)
  | store w addr v =>
    obtain ⟨r, hr⟩ := accessWindow_next h
    exact hostStore_events hr

theorem performAccesses_events {during : List Access} {s t : State} (h : performAccesses during s = .next t) :
    HostEvents s t := by
  induction during generalizing s with
  | nil =>
    cases h
    exact .refl
  | cons a rest ih =>
    unfold performAccesses at h
    split at h
    · next u hu => exact (performAccess_events hu).trans (ih h)
    · next o hne => exact absurd h (hne t)

/-- The accesses made under a command leave what the command finds: BUSY = 1 and a longer record. -/
theorem performAccesses_underCommand {during : List Access} {s t : State}
    (h : performAccesses during (setBusy s) = .next t) : t = underCommand t.hostReads t.freeIx s :=
  performAccesses_busy rfl h

theorem abandonStore_next {abandoned : Option Nat} {s t : State} {o : Host.Outcome State Fault Refusal}
    (h : abandonStore abandoned s o = .next t) :
    o = .next t ∨ ∃ n u, o = .next u ∧ t = abandonCommand n s u := by
  cases abandoned with
  | none => exact .inl h
  | some n =>
    cases o with
    | next u =>
      cases h
      exact .inr ⟨n, u, rfl, rfl⟩
    | fault f => cases h
    | refused f => cases h

/-- With no command running there is nothing to abandon: the reset input only resets. -/
theorem abandonCommand_self (n : Nat) (s : State) : abandonCommand n s s = hostReset s := by
  have hall : s.out.take (s.out.length + n) = s.out := List.take_of_length_le (by omega)
  unfold abandonCommand
  rw [hall]

theorem overlappedStore_events {r : Reg} {v : Word} {during : List Access} {abandoned : Option Nat} {s t : State}
    (h : overlappedStore r v during abandoned s = .next t) : HostEvents s t := by
  unfold overlappedStore at h
  split at h
  · split at h
    · next u hu =>
      rw [performAccesses_underCommand hu] at h
      obtain hrun | ⟨n, x, hrun, rfl⟩ := abandonStore_next h
      · exact .single (.command hrun)
      · exact .single (.abandon n hrun)
    · next o hne => exact absurd h (hne t)
  · split at h
    · next u hu =>
      split at h
      · next x hx =>
        have hevents := (hostStore_events hu).trans (performAccesses_events hx)
        obtain hrun | ⟨n, y, hrun, rfl⟩ := abandonStore_next h
        · cases hrun
          exact hevents
        · cases hrun
          rw [abandonCommand_self]
          exact hevents.tail (.reset _)
      · next o hne => exact absurd h (hne t)
    · next o hne => exact absurd h (hne t)

theorem perform_events {a : HostAction} {s t : State} (h : perform a s = .next t) : HostEvents s t := by
  unfold perform at h
  cases a with
  | load w addr => exact performAccess_events h
  | store w addr v => exact performAccess_events h
  | reset =>
    cases h
    exact .single (.reset s)
  | overlapped w addr v during abandoned =>
    obtain ⟨r, hr⟩ := accessWindow_next h
    exact overlappedStore_events hr

theorem step_events {s t : State} (h : step s = .next t) : HostEvents s t := by
  cases hq : s.host with
  | nil =>
    rw [step_idle hq] at h
    cases h
    exact .refl
  | cons a rest =>
    rw [step_perform hq] at h
    exact (perform_events h).head (.take s rest)

/-- A relation between a state and what comes of it, kept by every event, holds over every step. -/
theorem step_relates {R : State → State → Prop} (hrefl : ∀ s, R s s) (htrans : ∀ s t u, R s t → R t u → R s u)
    (hevent : ∀ s t, HostEvent s t → R s t) {s t : State} (h : step s = .next t) : R s t := by
  have hevents := step_events h
  clear h
  induction hevents with
  | refl => exact hrefl s
  | tail _ hlast ih => exact htrans _ _ _ ih (hevent _ _ hlast)

/-! ## A command as an event -/

/-- A store to CMD runs a command, or completes with ILLEGAL (30_encoding.md R95): progress either way, and the block is idle
after it. -/
theorem launchCommand_progress {w : Word} {s t : State} (h : launchCommand w s = .next t) :
    Progress s t ∧ t.busy = false ∧ (s.frame = none → t.frame = none) := by
  unfold launchCommand at h
  split at h
  · have hend := exec_ends h
    exact ⟨(setBusy_plainProgress s).toProgress.trans (exec_progress h), hend.1, hend.2⟩
  · cases h
    exact ⟨((setBusy_plainProgress s).trans (finish_plainProgress _ _)).toProgress, rfl, id⟩

/-! ## IN, the tables and OUT -/

/-- The input and the tables stand, and no byte given to the host is withdrawn (10_state.md R43, R44; 20_memory.md R63). -/
def keepsStreams (s t : State) : Prop :=
  sameLaunch s t ∧ delivered s <+: delivered t

theorem keepsStreams_refl (s : State) : keepsStreams s s :=
  ⟨⟨rfl, rfl, rfl⟩, List.prefix_rfl⟩

theorem keepsStreams_trans (s t u : State) (h : keepsStreams s t) (k : keepsStreams t u) : keepsStreams s u :=
  ⟨sameLaunch_trans h.1 k.1, h.2.trans k.2⟩

theorem Progress.keepsStreams {s t : State} (p : Progress s t) : keepsStreams s t := by
  refine ⟨p.launch, ?_⟩
  unfold delivered
  rw [p.outPrior]
  exact (List.prefix_append_right_inj _).mpr p.out

theorem hostLoad_keepsStreams (r : Reg) (s : State) : keepsStreams s (hostLoad r s) := by
  rw [hostLoad_frame]
  exact keepsStreams_refl s

theorem writeReg_keepsStreams (r : Reg) (v : Word) (s : State) : keepsStreams s (writeReg r v s) := by
  cases r <;> exact keepsStreams_refl s

theorem hostReset_delivered (s : State) : delivered (hostReset s) = delivered s :=
  List.append_nil _

/-- A reset inside a command keeps the bytes of OUT from before the command (70_reset_and_hazards.md R291). -/
theorem abandonCommand_keepsStreams {s t : State} (n : Nat) (h : s.out <+: t.out) :
    keepsStreams s (abandonCommand n s t) := by
  refine ⟨⟨rfl, rfl, rfl⟩, ?_⟩
  have hkept : s.out <+: t.out.take (s.out.length + n) := List.prefix_take_iff.mpr ⟨h, by omega⟩
  unfold abandonCommand
  rw [hostReset_delivered]
  exact (List.prefix_append_right_inj _).mpr hkept

theorem hostEvent_keepsStreams (s t : State) (h : HostEvent s t) : keepsStreams s t := by
  cases h with
  | take rest => exact keepsStreams_refl s
  | load r => exact hostLoad_keepsStreams r s
  | write r v => exact writeReg_keepsStreams r v s
  | command h => exact (launchCommand_progress h).1.keepsStreams
  | reset => exact ⟨⟨rfl, rfl, rfl⟩, by rw [hostReset_delivered]⟩
  | abandon k h => exact abandonCommand_keepsStreams k (launchCommand_progress h).1.out

/-- Settles O18: every event of a step keeps the input, the tables and the bytes delivered. -/
theorem stepNeverChangesInputOrTables : Obligations.StepNeverChangesInputOrTables :=
  fun _ _ => step_relates keepsStreams_refl keepsStreams_trans hostEvent_keepsStreams

/-! ## Soundness -/

/-- A command that finds the state of a sound launch leaves a sound state: each clause is carried by progress. -/
theorem launchCommand_inv {s t : State} {w : Word} {reads : List Word} {n : Nat} (hs : s.Inv)
    (h : launchCommand w (underCommand reads n s) = .next t) : t.Inv := by
  obtain ⟨p, hidle, hframe⟩ := launchCommand_progress h
  obtain ⟨hcfg, hrom, -⟩ := p.launch
  exact {
    rom := by
      unfold romOk
      rw [hcfg, hrom]
      exact hs.rom
    reader := p.reader hs.reader
    writer := p.writer hs.writer
    count := p.count hs.count
    runout := p.runout hs.runout
    message := p.message hs.message
    idle := hidle
    released := hframe hs.released }

/-- A reset asks nothing of the state but its ROMs and the length of its input. -/
theorem hostReset_inv {s : State} (hrom : romOk s) (hinp : s.inp.length < 2 ^ 32) : (hostReset s).Inv where
  rom := hrom
  reader := ⟨hinp, Nat.zero_le _, List.mem_cons_self ..⟩
  writer := by simp [writerOk, hostReset]
  count := rfl
  runout := le_refl _
  message := by simp [messageOk, hostReset, MsgResult.reset, isValidMessage]
  idle := rfl
  released := rfl

theorem hostLoad_inv {s : State} (r : Reg) (hs : s.Inv) : (hostLoad r s).Inv := by
  obtain ⟨hrom, hreader, hwriter, hcount, hrunout, hmessage, hidle, hreleased⟩ := hs
  rw [hostLoad_frame]
  exact ⟨hrom, hreader, hwriter, hcount, hrunout, hmessage, hidle, hreleased⟩

/-- A store to RUNOUT_CFG reloads RUNOUT_LEFT with the same value (10_state.md R30), so R31 still holds. -/
theorem writeReg_inv {s : State} (r : Reg) (v : Word) (hs : s.Inv) : (writeReg r v s).Inv := by
  obtain ⟨hrom, hreader, hwriter, hcount, hrunout, hmessage, hidle, hreleased⟩ := hs
  have hsound : ∀ x y : BitVec 16, y.toNat ≤ x.toNat →
      State.Inv { s with runoutCfg := x, runoutLeft := y } := fun _ _ hxy =>
    ⟨hrom, hreader, hwriter, hcount, hxy, hmessage, hidle, hreleased⟩
  by_cases hr : r ∈ [Reg.arg0, .arg1, .runoutCfg, .leadinLimit]
  · simp only [List.mem_cons, List.not_mem_nil, or_false] at hr
    obtain rfl | rfl | rfl | rfl := hr
    case inr.inr.inl => exact hsound _ _ (le_refl _)
    all_goals exact ⟨hrom, hreader, hwriter, hcount, hrunout, hmessage, hidle, hreleased⟩
  · rw [writeReg_ignored hr]
    exact hsound _ _ hrunout

theorem hostEvent_inv (s t : State) (h : HostEvent s t) (hs : s.Inv) : t.Inv := by
  cases h with
  | take rest =>
    exact ⟨hs.rom, hs.reader, hs.writer, hs.count, hs.runout, hs.message, hs.idle, hs.released⟩
  | load r => exact hostLoad_inv r hs
  | write r v => exact writeReg_inv r v hs
  | command h => exact launchCommand_inv hs h
  | reset => exact hostReset_inv hs.rom hs.reader.1
  | abandon k h => exact hostReset_inv hs.rom hs.reader.1

/-- Settles O16: every event of a step keeps soundness. -/
theorem stepKeepsSoundness : Obligations.StepKeepsSoundness := fun _ _ hs h =>
  step_relates (R := fun s t => s.Inv → t.Inv) (fun _ => id) (fun _ _ _ h k => k ∘ h) hostEvent_inv h hs

/-! ## The launch -/

/-- What a launch that is not refused answers (00_scope.md R8, R9; 70_reset_and_hazards.md R311). -/
theorem launch_next {cfg : Config} {inp : List Byte} {program : List HostAction} {s : State}
    (h : launch cfg inp program = .next s) : inp.length < 2 ^ 32 ∧ cfg.wellFormed = true ∧
      ∃ rom, romOf cfg = some rom ∧ s = launchState cfg rom inp program := by
  unfold launch at h
  split at h
  · next hfits =>
    split at h
    · next rom hwf hrom =>
      cases h
      exact ⟨of_decide_eq_true hfits, hwf, rom, hrom, rfl⟩
    · cases h
  · cases h

theorem launchState_inv {cfg : Config} {rom : Rom} {inp : List Byte} (program : List HostAction)
    (hinp : inp.length < 2 ^ 32) (hwf : cfg.wellFormed = true) (hrom : romOf cfg = some rom) :
    (launchState cfg rom inp program).Inv :=
  hostEvent_inv _ _ (.take _ program)
    (hostReset_inv (s := { State.reset with cfg := cfg, rom := rom, inp := inp }) ⟨hwf, hrom⟩ hinp)

/-- State.reset is the launch of REFCFG with an empty input and no host program. -/
theorem launchState_refCfg : launchState refCfg refRom [] [] = State.reset := rfl

/-- Settles O15: what a launch answers is a reset on the ROMs of a well-formed configuration. -/
theorem launchIsSound : Obligations.LaunchIsSound := by
  refine ⟨?reset, fun cfg inp program s h => ?launch⟩
  case reset =>
    rw [← launchState_refCfg]
    exact launchState_inv [] (by decide) refCfg_wellFormed romOf_refCfg
  case launch =>
    obtain ⟨hinp, hwf, rom, hrom, rfl⟩ := launch_next h
    exact launchState_inv program hinp hwf hrom

/-- Settles O10: the fields of the state that a launch answers, one by one. -/
theorem launchGivesTheResetValues : Obligations.LaunchGivesTheResetValues := by
  intro cfg inp program s h
  obtain ⟨-, -, rom, hrom, rfl⟩ := launch_next h
  exact ⟨rfl, rfl, rfl, rfl, rfl, rfl, rfl, rfl, rfl, rfl, rfl, rfl, rfl, rfl, rfl, rfl, rfl, rfl, rfl, rfl, rfl, hrom, rfl,
    rfl⟩

end Sys2Proof.Proofs
end

/-! # Proofs: what no command reads (10_state.md R45)

`retouch` gives CODE, BUSY and MSG_RESULT other values. Every shared operation commutes with it, and so does every command
up to what its `finish` and, in FRM_DECODE, its Terminal phase write. -/
section
namespace Sys2Proof.Proofs

open Sys2Proof Sys2Proof.Machine

/-- The state with other values of CODE, BUSY and MSG_RESULT. -/
def retouch (c : Code) (b : Bool) (m : MsgResult) (s : State) : State :=
  { s with code := c, busy := b, msg := m }

section
variable (c : Code) (b : Bool) (m : MsgResult)

/-! ## The bit writer -/

theorem putBit_retouch (x : Bool) (s : State) : putBit x (retouch c b m s) = retouch c b m (putBit x s) := by
  unfold putBit
  rw [apply_ite (retouch c b m)]
  rfl

theorem putString_retouch (l : BitString) (s : State) :
    putString l (retouch c b m s) = retouch c b m (putString l s) := by
  induction l generalizing s with
  | nil => rfl
  | cons x l ih => rw [putString, putBit_retouch, ih, putString]

theorem putBits_retouch (p l : Nat) (s : State) : putBits p l (retouch c b m s) = retouch c b m (putBits p l s) :=
  putString_retouch c b m _ s

theorem flushOut_retouch (s : State) : flushOut (retouch c b m s) = retouch c b m (flushOut s) := by
  unfold flushOut
  rw [apply_ite (retouch c b m)]
  rfl

theorem putPadded_retouch (w : Codeword) (s : State) :
    putPadded w (retouch c b m s) = retouch c b m (putPadded w s) := by
  unfold putPadded
  rw [putBits_retouch, putBit_retouch]

theorem putPayload_retouch (l : List Byte) (s : State) :
    putPayload l (retouch c b m s) = retouch c b m (putPayload l s) := by
  induction l generalizing s with
  | nil => rfl
  | cons x l ih =>
    have hput : putPadded (forwardWord s.rom x) (takeByte (retouch c b m s)) =
        retouch c b m (putPadded (forwardWord s.rom x) (takeByte s)) := putPadded_retouch c b m _ (takeByte s)
    exact (congrArg (putPayload l) hput).trans (ih _)

theorem putFrame_retouch (s : State) : putFrame (retouch c b m s) = retouch c b m (putFrame s) := by
  have hhead : putPadded (retouch c b m s).rom.head (retouch c b m s) =
      retouch c b m (putPadded s.rom.head s) := putPadded_retouch c b m _ s
  unfold putFrame
  rw [hhead, putPayload_retouch, putPadded_retouch, flushOut_retouch]
  rfl

/-! ## The bit reader -/

theorem getBitTry_retouch (s : State) :
    getBitTry (retouch c b m s) = (getBitTry s).map (Prod.map id (retouch c b m)) := by
  by_cases hmask : s.rdMask = 0
  · cases hbyte : s.inp[s.inPos.toNat]? with
    | none =>
      rw [getBitTry_none (s := retouch c b m s) hmask hbyte, getBitTry_none hmask hbyte]
      rfl
    | some x =>
      rw [getBitTry_fetch (s := retouch c b m s) hmask hbyte, getBitTry_fetch hmask hbyte]
      rfl
  · rw [getBitTry_cached (s := retouch c b m s) hmask, getBitTry_cached hmask]
    rfl

theorem getBitRO_retouch (s : State) :
    getBitRO (retouch c b m s) = (getBitRO s).map (Prod.map id (retouch c b m)) := by
  unfold getBitRO
  rw [getBitTry_retouch]
  cases getBitTry s with
  | some r => rfl
  | none =>
    show (if s.runoutLeft = 0 then _ else _) = Option.map _ (if s.runoutLeft = 0 then _ else _)
    split <;> rfl

theorem getBit_retouch (mode : ReadMode) (s : State) :
    getBit mode (retouch c b m s) = (getBit mode s).map (Prod.map id (retouch c b m)) := by
  cases mode with
  | runout => exact getBitRO_retouch c b m s
  | strict => exact getBitTry_retouch c b m s

theorem finishRead_retouch (s : State) (r : Option (Bool × State)) :
    finishRead (retouch c b m s) (r.map (Prod.map id (retouch c b m))) = { finishRead s r with msg := m } := by
  cases r <;> rfl

/-- A symbol read in a retouched state. -/
def retouchSymbol (y : Symbol) : Symbol :=
  { y with after := retouch c b m y.after }

theorem decodeTerms_retouch (mode : ReadMode) (terms : List Nat) (acc : Nat) (prev : Bool) (k : Nat) (s : State) :
    decodeTerms mode terms acc prev k (retouch c b m s) = retouchSymbol c b m (decodeTerms mode terms acc prev k s) := by
  induction terms generalizing acc prev k s with
  | nil =>
    unfold decodeTerms
    rw [getBit_retouch]
    cases getBit mode s with
    | none => rfl
    | some r =>
      show (if (r.1 && prev) = true then _ else _) = retouchSymbol c b m (if (r.1 && prev) = true then _ else _)
      split <;> rfl
  | cons f terms ih =>
    unfold decodeTerms
    rw [getBit_retouch]
    cases getBit mode s with
    | none => rfl
    | some r =>
      show (if (r.1 && prev) = true then _ else _) = retouchSymbol c b m (if (r.1 && prev) = true then _ else _)
      split
      · rfl
      · exact ih ..

theorem decodeSym_retouch (mode : ReadMode) (s : State) :
    decodeSym mode (retouch c b m s) = retouchSymbol c b m (decodeSym mode s) :=
  decodeTerms_retouch c b m ..

/-! ## The frame decoder -/

theorem leadInRound_retouch (s : State) :
    leadInRound (retouch c b m s) = ((leadInRound s).1, retouch c b m (leadInRound s).2) := by
  unfold leadInRound
  rw [getBitTry_retouch]
  cases getBitTry s with
  | none => rfl
  | some r =>
    obtain ⟨x, t⟩ := r
    have hmatch : windowMatches (shiftWindow x (retouch c b m t)) = windowMatches (shiftWindow x t) := rfl
    have hspent : budgetSpent (shiftWindow x (retouch c b m t)) = budgetSpent (shiftWindow x t) := rfl
    simp only [Option.map_some, Prod.map, id]
    rw [hmatch, hspent]
    split
    · rfl
    · split <;> rfl

theorem classify_retouch (n : Nat) (s : State) :
    classify n (retouch c b m s) = ((classify n s).1, retouch c b m (classify n s).2) := by
  have hcfg : (retouch c b m s).cfg = s.cfg := rfl
  have hrom : (retouch c b m s).rom = s.rom := rfl
  have hregs : frameRegs (retouch c b m s) = frameRegs s := rfl
  unfold classify
  rw [hcfg, hrom, hregs]
  split
  · split <;> rfl
  · split
    · rfl
    · cases backwardByte s.rom n <;> rfl

theorem readPad_retouch (s : State) :
    readPad (retouch c b m s) = ((readPad s).1, retouch c b m (readPad s).2) := by
  unfold readPad
  rw [getBitTry_retouch]
  cases getBitTry s <;> rfl

theorem padDamage_retouch (pad : Option Bool) (stopped : Bool) (s : State) :
    padDamage pad stopped (retouch c b m s) = retouch c b m (padDamage pad stopped s) := by
  cases stopped <;> rfl

theorem paddedSymbol_retouch (n : Nat) (s : State) :
    paddedSymbol n (retouch c b m s) = ((paddedSymbol n s).1, retouch c b m (paddedSymbol n s).2) := by
  unfold paddedSymbol
  simp only [readPad_retouch, classify_retouch, padDamage_retouch]
  split <;> rfl

theorem messageRound_retouch (s : State) :
    messageRound (retouch c b m s) = ((messageRound s).1, retouch c b m (messageRound s).2) := by
  unfold messageRound
  rw [decodeSym_retouch]
  obtain ⟨value, used, code, t⟩ := decodeSym .strict s
  cases value with
  | none => rfl
  | some n => exact paddedSymbol_retouch c b m n t

theorem messagePhase_retouch (s : State) :
    messagePhase (retouch c b m s) = (messagePhase s).map (retouch c b m) := by
  unfold messagePhase
  rw [apply_ite (Option.map (retouch c b m)), ← loopUntil_commutes (messageRound_retouch c b m)]
  rfl

theorem decodePhases_retouch (s : State) :
    decodePhases (retouch c b m s) = (decodePhases s).map (retouch c b m) := by
  have hlead : leadInPhase (setFrame (startRegs (retouch c b m s).bitsRead) (retouch c b m s)) =
      (leadInPhase (setFrame (startRegs s.bitsRead) s)).map (retouch c b m) :=
    loopUntil_commutes (leadInRound_retouch c b m) _ (setFrame (startRegs s.bitsRead) s)
  unfold decodePhases
  rw [hlead]
  cases leadInPhase (setFrame (startRegs s.bitsRead) s) with
  | none => rfl
  | some t => exact messagePhase_retouch c b m t

/-! ## The commands -/

variable {c b m} {s t : State}

theorem exec_retouch_of_ne {i : Instr} (hi : i ≠ .frmDecode) (h : exec i s = .next t) :
    exec i (retouch c b m s) = .next { t with msg := m } := by
  cases i with
  | nop | rewind | tblForward =>
    cases h
    rfl
  | writeBit =>
    cases h
    exact congrArg (fun u => Host.Outcome.next (finish .ok u)) (putBit_retouch c b m _ s)
  | writePattern =>
    change execWritePattern s = .next t at h
    show execWritePattern (retouch c b m s) = _
    unfold execWritePattern at h ⊢
    rw [show lengthOperand (retouch c b m s) = lengthOperand s from rfl,
      show patternOperand (retouch c b m s) = patternOperand s from rfl]
    split at h
    · next hlong =>
      cases h
      exact if_pos hlong
    · next hlong =>
      cases h
      rw [if_neg hlong, putBits_retouch]
      rfl
  | flush =>
    cases h
    exact congrArg (fun u => Host.Outcome.next (finish .ok (setRes0 (BitVec.ofNat 32 (padBits s)) u))) (flushOut_retouch c b m s)
  | readBit =>
    cases h
    show Host.Outcome.next (finishRead (retouch c b m s) (getBitRO (retouch c b m s))) = _
    rw [getBitRO_retouch, finishRead_retouch]
  | tryReadBit =>
    cases h
    show Host.Outcome.next (finishRead (retouch c b m s) (getBitTry (retouch c b m s))) = _
    rw [getBitTry_retouch, finishRead_retouch]
  | fibEncode =>
    cases h
    show Host.Outcome.next (finishEncode (retouch c b m s) (fibCode s.rom.fib (valueOperand s))) = _
    cases fibCode s.rom.fib (valueOperand s) with
    | none => rfl
    | some str =>
      unfold finishEncode
      simp only [putBits_retouch]
      rfl
  | fibDecode =>
    cases h
    exact congrArg (fun y => Host.Outcome.next (finishSymbol y)) (decodeSym_retouch c b m .runout s)
  | fibTryDecode =>
    cases h
    exact congrArg (fun y => Host.Outcome.next (finishSymbol y)) (decodeSym_retouch c b m .strict s)
  | tblBackward =>
    change execTblBackward s = .next t at h
    show execTblBackward (retouch c b m s) = _
    have hbyte : backwardByte (retouch c b m s).rom (codepointOperand (retouch c b m s)) =
        backwardByte s.rom (codepointOperand s) := rfl
    unfold execTblBackward at h ⊢
    rw [hbyte]
    split at h <;>
    · cases h
      rfl
  | frmEncode =>
    change execFrmEncode s = .next t at h
    show execFrmEncode (retouch c b m s) = _
    unfold execFrmEncode at h ⊢
    split at h
    · next hmask =>
      cases h
      exact if_pos hmask
    · next hmask =>
      cases h
      rw [if_neg (show ¬ (retouch c b m s).rdMask ≠ 0 from hmask), putFrame_retouch]
      rfl
  | frmDecode => exact absurd rfl hi

theorem execFrmDecode_align (h : s.wrCnt ≠ 0) : exec .frmDecode s = .next (finish .align s) :=
  if_pos h

theorem execFrmDecode_decoded (h : s.wrCnt = 0) {u : State} (hu : decodePhases s = some u) :
    exec .frmDecode s = .next (finish .ok (releaseFrame (terminal u))) := by
  show execFrmDecode s = _
  unfold execFrmDecode
  rw [if_neg (not_not.mpr h), hu]

/-- FRM_DECODE writes MSG_RESULT where it decodes, and keeps it, whatever it holds, where it completes with ALIGN. -/
theorem execFrmDecode_retouch (h : exec .frmDecode s = .next t) :
    exec .frmDecode (retouch c b m s) = .next { t with msg := if s.wrCnt = 0 then t.msg else m } := by
  obtain ⟨hcnt, rfl⟩ | ⟨hcnt, u, hu, rfl⟩ := execFrmDecode_cases h
  · rw [if_neg hcnt, execFrmDecode_align (s := retouch c b m s) hcnt]
    rfl
  · have hu' : decodePhases (retouch c b m s) = some (retouch c b m u) := by rw [decodePhases_retouch, hu]; rfl
    rw [if_pos hcnt, execFrmDecode_decoded (s := retouch c b m s) hcnt hu']
    rfl

end

/-- Settles O20: a command commutes with other values of CODE, BUSY and MSG_RESULT, and all but FRM_DECODE are plain progress,
which keeps the message. -/
theorem commandsIgnoreStatusAndMessage : Obligations.CommandsIgnoreStatusAndMessage := by
  intro i s t c b m h
  refine ⟨?same, fun hi => ?kept⟩
  case same =>
    show exec i (retouch c b m s) = _
    by_cases hi : i = .frmDecode
    · subst hi
      simpa using execFrmDecode_retouch h
    · simpa [hi] using exec_retouch_of_ne hi h
  case kept =>
    have p := exec_plainProgress hi h
    exact ⟨p.msg, p.msgBits⟩

end Sys2Proof.Proofs
end

/-! # Proofs: the register window (10_state.md section 2)

The words of the composed registers as concatenations of their fields, the reserved bits those leave 0, and what loads and
stores at the offsets of the map do. -/
section
namespace Sys2Proof.Proofs

open Sys2Proof Sys2Proof.Machine

/-! ## The composed registers -/

/-- A number composed by weights is the concatenation of its fields. -/
theorem ofNat_concat {n : Nat} (hi : BitVec n) (lo : Byte) :
    BitVec.ofNat 32 (lo.toNat + 256 * hi.toNat) = (hi ++ lo).setWidth 32 := by
  apply BitVec.eq_of_toNat_eq
  rw [BitVec.toNat_ofNat, BitVec.toNat_setWidth, BitVec.toNat_append, ← Nat.shiftLeft_add_eq_or_of_lt lo.isLt,
    Nat.shiftLeft_eq]
  congr 1
  omega

theorem readerWord_eq (s : State) : readerWord s = (s.rdMask ++ s.rdByte).setWidth 32 :=
  ofNat_concat s.rdMask s.rdByte

theorem writerWord_eq (s : State) : writerWord s = (s.wrCnt ++ s.wrByte).setWidth 32 :=
  ofNat_concat s.wrCnt s.wrByte

/-- END_REASON as the field of MSG_RESULT (43_framing.md R233). -/
theorem messageWord_eq (m : MsgResult) : messageWord m =
    ((BitVec.ofNat 3 (reasonNumber m.reason) ++ (0 : BitVec 3) ++ BitVec.ofBool m.isValid ++ BitVec.ofBool m.runOn ++
      BitVec.ofBool m.cleanData ++ BitVec.ofBool m.sawFooter ++ BitVec.ofBool m.sawHeader).setWidth 32) := by
  obtain ⟨header, footer, clean, runOn, valid, reason⟩ := m
  cases reason <;>
  · revert header footer clean runOn valid
    decide

theorem statusWord_idle {s : State} (h : s.busy = false) :
    statusWord s = BitVec.ofNat 32 (16 * codeNumber s.code) := by
  simp [statusWord, h]

/-! ## The reserved fields -/

/-- A register of `n` bits reads 0 above them. -/
theorem setWidth_and_high {n : Nat} (v : BitVec n) : v.setWidth 32 &&& BitVec.allOnes 32 <<< n = 0 := by
  ext i hi
  simp only [BitVec.getElem_and, BitVec.getElem_setWidth, BitVec.getElem_shiftLeft]
  by_cases hn : i < n
  · simp [hn]
  · simp [BitVec.getLsbD_of_ge v i (by omega)]

theorem idWord_reserved : idWord &&& 0x0000FF00 = 0 := by decide

theorem statusWord_reserved (s : State) : statusWord s &&& 0xFFFFFF0E = 0 := by
  unfold statusWord
  cases s.busy <;> cases s.code <;> decide

theorem messageWord_reserved (m : MsgResult) : messageWord m &&& 0xFFFFF8E0 = 0 := by
  obtain ⟨header, footer, clean, runOn, valid, reason⟩ := m
  cases reason <;>
  · revert header footer clean runOn valid
    decide

/-- A store keeps the low 16 bits of its value. -/
theorem low_half (v : Word) : (v.extractLsb' 0 16).setWidth 32 = v &&& 0x0000FFFF := by
  apply BitVec.eq_of_toNat_eq
  simp only [BitVec.toNat_setWidth, BitVec.extractLsb'_toNat, BitVec.toNat_and, Nat.shiftRight_zero]
  rw [show (0x0000FFFF : Word).toNat = 2 ^ 16 - 1 from by decide, Nat.and_two_pow_sub_one_eq_mod]
  omega

/-! ## Loads and stores at an offset -/

section
variable {s : State} {off : Nat} {v : Word} {rest : List HostAction}

theorem step_load_idle (hidle : s.busy = false) (h : s.host = .load .word (s.cfg.regBase + off) :: rest)
    (ho : off < 256) (ha : off % 4 = 0) :
    step s = .next { s with host := rest, hostReads := s.hostReads ++ [readReg (regAt off) s] } := by
  rw [step_load h ho ha, hostLoad_idle (s := { s with host := rest }) hidle]
  cases regAt off <;> rfl

theorem step_store_idle (hidle : s.busy = false) (h : s.host = .store .word (s.cfg.regBase + off) v :: rest)
    (ho : off < 256) (ha : off % 4 = 0) (hr : regAt off ≠ .cmd) :
    step s = .next (writeReg (regAt off) v { s with host := rest }) := by
  rw [step_store h ho ha, hostStore_reg (s := { s with host := rest }) hidle hr]

/-- A store that no register takes is taken from the queue, and nothing else happens (10_state.md R40, R41). -/
theorem step_store_ignored (h : s.host = .store .word (s.cfg.regBase + off) v :: rest) (ho : off < 256) (ha : off % 4 = 0)
    (hr : s.busy = true ∨ regAt off ∉ [Reg.cmd, .arg0, .arg1, .runoutCfg, .leadinLimit]) :
    step s = .next { s with host := rest } := by
  by_cases hbusy : s.busy = true
  · rw [step_store h ho ha, hostStore_busy (s := { s with host := rest }) hbusy]
  · have hne := hr.resolve_left hbusy
    rw [List.mem_cons, not_or] at hne
    obtain ⟨hcmd, hwritable⟩ := hne
    rw [step_store_idle (eq_false_of_ne_true hbusy) h ho ha hcmd, writeReg_ignored hwritable]

end

/-- The offsets that R41 calls read-only. -/
theorem regAt_readOnly : ∀ off ∈ [0x00, 0x10, 0x14, 0x18, 0x20, 0x28, 0x2C, 0x30, 0x34, 0x38, 0x3C, 0x40],
    regAt off ∉ [Reg.cmd, .arg0, .arg1, .runoutCfg, .leadinLimit] := by
  decide

theorem hostLoad_reads_length (r : Reg) (s : State) : (hostLoad r s).hostReads.length = s.hostReads.length + 1 := by
  unfold hostLoad
  split <;> simp

/-! ## The statements -/

/-- Settles O5: a store is ignored while BUSY or where no register takes it; a load only records. -/
theorem ignoredStoresAndHarmlessLoads : Obligations.IgnoredStoresAndHarmlessLoads := by
  intro s off v rest ho ha
  refine ⟨fun h hr => ?store, fun h => ?load⟩
  case store => exact step_store_ignored h ho ha (hr.imp_right (regAt_readOnly off))
  case load =>
    refine ⟨_, step_load h ho ha, ?_, hostLoad_reads_length _ _⟩
    exact hostLoad_frame (regAt off) { s with host := rest }

/-- Settles O7: the offsets from 0x44 on are no register, and no register reads a bit outside its fields. -/
theorem reservedOffsetsAndFieldsReadZero : Obligations.ReservedOffsetsAndFieldsReadZero := by
  refine ⟨fun s off v rest hlo hhi ha => ?offsets, fun s => ?fields, fun s v => ⟨low_half v, low_half v⟩⟩
  case offsets =>
    have hr : regAt off = .reserved := regAt_reserved hlo
    refine ⟨fun h => ?load, fun h => ?store⟩
    case load =>
      rw [step_load h (by omega) ha, hr, hostLoad_settled rfl]
      rfl
    case store =>
      refine step_store_ignored h (by omega) ha (.inr ?_)
      rw [hr]
      decide
  case fields =>
    refine ⟨idWord_reserved, statusWord_reserved s, setWidth_and_high s.runoutCfg, setWidth_and_high s.runoutLeft,
      setWidth_and_high s.leadinLimit, ?_, ?_, messageWord_reserved s.msg⟩
    · exact (congrArg (· &&& 0xFFFF0000) (readerWord_eq s)).trans (setWidth_and_high (s.rdMask ++ s.rdByte))
    · exact (congrArg (· &&& 0xFFFFF800) (writerWord_eq s)).trans (setWidth_and_high (s.wrCnt ++ s.wrByte))

/-- Settles O6: the four writable registers, each by its own equation of `writeReg`. -/
theorem storesToWritableRegisters : Obligations.StoresToWritableRegisters := by
  intro s v rest hidle
  have hlow : v.setWidth 16 = v.extractLsb' 0 16 := BitVec.setWidth_eq_extractLsb' (by decide)
  rw [hlow]
  exact ⟨fun h => step_store_idle hidle h (by decide) (by decide) (by decide),
    fun h => step_store_idle hidle h (by decide) (by decide) (by decide),
    fun h => step_store_idle hidle h (by decide) (by decide) (by decide),
    fun h => step_store_idle hidle h (by decide) (by decide) (by decide)⟩

/-- Settles O8: an idle block's load records the register's value, whose fields stand at the places of the map. -/
theorem loadsReturnTheRegisterMap : Obligations.LoadsReturnTheRegisterMap := by
  intro s off rest v hidle h hmap
  have hload : ∀ ho : off < 256, ∀ ha : off % 4 = 0, readReg (regAt off) s = v →
      step s = .next { s with host := rest, hostReads := s.hostReads ++ [v] } := fun ho ha hv =>
    hv ▸ step_load_idle hidle h ho ha
  simp only [List.mem_cons, Prod.mk.injEq, List.not_mem_nil, or_false] at hmap
  obtain ⟨rfl, rfl⟩ | ⟨rfl, rfl⟩ | ⟨rfl, rfl⟩ | ⟨rfl, rfl⟩ | ⟨rfl, rfl⟩ | ⟨rfl, rfl⟩ | ⟨rfl, hv⟩ | ⟨rfl, rfl⟩ | ⟨rfl, rfl⟩ |
    ⟨rfl, rfl⟩ | ⟨rfl, rfl⟩ | ⟨rfl, rfl⟩ | ⟨rfl, hv⟩ | ⟨rfl, hv⟩ | ⟨rfl, rfl⟩ | ⟨rfl, hv⟩ | ⟨rfl, rfl⟩ := hmap
  all_goals refine hload (by decide) (by decide) ?_
  iterate 6 next => rfl
  next =>
    rw [hv]
    refine (statusWord_idle hidle).trans ?_
    cases s.code <;> rfl
  iterate 5 next => rfl
  next => exact (readerWord_eq s).trans hv.symm
  next => exact (writerWord_eq s).trans hv.symm
  next => rfl
  next =>
    rw [hv]
    refine (messageWord_eq s.msg).trans ?_
    cases s.msg.reason <;> rfl
  next => rfl

end Sys2Proof.Proofs
end

/-! # Proofs: unsupported accesses (20_memory.md R64)

Each of the host's accesses goes through `accessWindow`, which refuses before the effect of the access is looked at. -/
section
namespace Sys2Proof.Proofs

open Sys2Proof Sys2Proof.Machine

/-- Whatever an access would do, its step is refused where the window does not support it. -/
theorem step_unsupported {s : State} {a : HostAction} {rest : List HostAction} {w : Width} {off : Nat}
    (act : State → Reg → Host.Outcome State Fault Refusal) (h : s.host = a :: rest)
    (haccess : ∀ t, perform a t = accessWindow w (s.cfg.regBase + off) t (act t))
    (ho : off < 256) (hw : w ≠ .word ∨ off % 4 ≠ 0) : step s = .refused .unsupportedAccess := by
  rw [step_perform h, haccess]
  exact accessWindow_unsupported { s with host := rest } ho hw _

/-- Settles O9: a load, a store and an overlapped store each are an access through the window, with an effect of its own. -/
theorem unsupportedAccessIsRefused : Obligations.UnsupportedAccessIsRefused := by
  intro s w off v during abandoned rest ho hw
  refine ⟨fun h => ?load, fun h => ?overlapped, fun h => ?store⟩
  case load => exact step_unsupported (fun t r => .next (hostLoad r t)) h (fun _ => rfl) ho hw
  case overlapped => exact step_unsupported (fun t r => overlappedStore r v during abandoned t) h (fun _ => rfl) ho hw
  case store => exact step_unsupported (fun t r => hostStore r v t) h (fun _ => rfl) ho hw

end Sys2Proof.Proofs
end

/-! # Proofs: the command words (30_encoding.md R90 to R96)

`decode_cases` is R96: a word is the word of a command, or a reserved opcode, or has a reserved bit set. The statements about
the decoder are read off from it, and those about the store to CMD off the decoder. -/
section
namespace Sys2Proof.Proofs

open Sys2Proof Sys2Proof.Machine

/-! ## The two fields of a word (30_encoding.md R91) -/

theorem opField_toNat (w : Word) : (w.extractLsb' 0 5).toNat = w.toNat % 32 := by
  simp [BitVec.extractLsb'_toNat]

theorem reservedField_eq_zero_iff (w : Word) : w.extractLsb' 5 27 = 0 ↔ w.toNat < 32 := by
  have hw : w.toNat < 2 ^ 32 := w.isLt
  rw [← BitVec.toNat_inj, BitVec.extractLsb'_toNat, Nat.shiftRight_eq_div_pow]
  show w.toNat / 2 ^ 5 % 2 ^ 27 = 0 ↔ w.toNat < 32
  omega

theorem decode_of_lt {w : Word} (h : w.toNat < 32) : decode w = decodeOpcode w.toNat := by
  rw [decode, if_pos ((reservedField_eq_zero_iff w).mpr h), opField_toNat, Nat.mod_eq_of_lt h]

theorem decode_of_ge {w : Word} (h : 32 ≤ w.toNat) : decode w = .error .reservedBits :=
  if_neg fun hzero => absurd ((reservedField_eq_zero_iff w).mp hzero) (Nat.not_lt.mpr h)

/-! ## The opcode map (30_encoding.md R92) -/

/-- Each OP below 0x0E is some command's. -/
theorem decodeOpcode_assigned {n : Nat} (h : n < 0x0E) : ∃ i, decodeOpcode n = .ok i ∧ n = (opcode i).toNat := by
  interval_cases n <;> exact ⟨_, rfl, rfl⟩

theorem decodeOpcode_reserved {n : Nat} (h : 0x0E ≤ n) : decodeOpcode n = .error .reservedOpcode := by
  obtain ⟨k, rfl⟩ := Nat.exists_eq_add_of_le' h
  rfl

theorem encode_toNat (i : Instr) : (encode i).toNat = (opcode i).toNat :=
  BitVec.toNat_setWidth_of_le (by decide)

theorem encode_toNat_lt (i : Instr) : (encode i).toNat < 0x0E := by
  cases i <;> decide

/-- What PerInstr.lean says of each command, for all of them. -/
theorem encodeDecode (i : Instr) : Laws.EncodeDecode.Statement i :=
  match i with
  | .nop => Laws.EncodeDecode.nop
  | .writeBit => Laws.EncodeDecode.writeBit
  | .writePattern => Laws.EncodeDecode.writePattern
  | .flush => Laws.EncodeDecode.flush
  | .readBit => Laws.EncodeDecode.readBit
  | .tryReadBit => Laws.EncodeDecode.tryReadBit
  | .rewind => Laws.EncodeDecode.rewind
  | .fibEncode => Laws.EncodeDecode.fibEncode
  | .fibDecode => Laws.EncodeDecode.fibDecode
  | .fibTryDecode => Laws.EncodeDecode.fibTryDecode
  | .tblForward => Laws.EncodeDecode.tblForward
  | .tblBackward => Laws.EncodeDecode.tblBackward
  | .frmEncode => Laws.EncodeDecode.frmEncode
  | .frmDecode => Laws.EncodeDecode.frmDecode

theorem decode_encode (i : Instr) : decode (encode i) = .ok i := by
  obtain ⟨-, -, hdecode⟩ := encodeDecode i
  exact hdecode

/-! ## The decoder -/

/-- 30_encoding.md R96: what a word can be, and how it decodes. -/
theorem decode_cases (w : Word) :
    (∃ i, w = encode i ∧ decode w = .ok i) ∨
    (0x0E ≤ w.toNat ∧ w.toNat ≤ 0x1F ∧ decode w = .error .reservedOpcode) ∨
    (32 ≤ w.toNat ∧ decode w = .error .reservedBits) := by
  rcases Nat.lt_or_ge w.toNat 32 with hlt | hge
  · rcases Nat.lt_or_ge w.toNat 0x0E with hassigned | hreserved
    · obtain ⟨i, hi, hop⟩ := decodeOpcode_assigned hassigned
      exact .inl ⟨i, BitVec.eq_of_toNat_eq (hop.trans (encode_toNat i).symm), (decode_of_lt hlt).trans hi⟩
    · exact .inr (.inl ⟨hreserved, by omega, (decode_of_lt hlt).trans (decodeOpcode_reserved hreserved)⟩)
  · exact .inr (.inr ⟨hge, decode_of_ge hge⟩)

/-- Every word beyond the opcode map is illegal (30_encoding.md R95). -/
theorem decode_unassigned {w : Word} (h : 0x0E ≤ w.toNat) : ∃ r, decode w = .error r := by
  obtain ⟨i, rfl, -⟩ | ⟨-, -, herr⟩ | ⟨-, herr⟩ := decode_cases w
  · exact absurd (encode_toNat_lt i) (Nat.not_lt.mpr h)
  · exact ⟨_, herr⟩
  · exact ⟨_, herr⟩

/-- The two causes of R95 that lie in the word, by its fields. -/
theorem decode_illegal {w : Word} (h : w.extractLsb' 5 27 ≠ 0 ∨ 0x0E ≤ (w.extractLsb' 0 5).toNat) :
    ∃ r, decode w = .error r := by
  refine decode_unassigned ?_
  rw [Ne, reservedField_eq_zero_iff, opField_toNat] at h
  omega

theorem decode_ok_iff (w : Word) (i : Instr) : decode w = .ok i ↔ w = encode i := by
  refine ⟨fun h => ?_, fun h => h ▸ decode_encode i⟩
  obtain ⟨j, hj, hok⟩ | ⟨-, -, herr⟩ | ⟨-, herr⟩ := decode_cases w
  · cases hok.symm.trans h
    exact hj
  · cases herr.symm.trans h
  · cases herr.symm.trans h

theorem decode_reservedBits_iff (w : Word) : decode w = .error .reservedBits ↔ 32 ≤ w.toNat := by
  refine ⟨fun h => ?_, decode_of_ge⟩
  obtain ⟨_, -, hok⟩ | ⟨-, -, herr⟩ | ⟨hge, -⟩ := decode_cases w
  · cases hok.symm.trans h
  · cases herr.symm.trans h
  · exact hge

theorem decode_reservedOpcode_iff (w : Word) :
    decode w = .error .reservedOpcode ↔ 0x0E ≤ w.toNat ∧ w.toNat ≤ 0x1F := by
  refine ⟨fun h => ?_, fun ⟨hlo, hhi⟩ => (decode_of_lt (by omega)).trans (decodeOpcode_reserved hlo)⟩
  obtain ⟨_, -, hok⟩ | ⟨hlo, hhi, -⟩ | ⟨-, herr⟩ := decode_cases w
  · cases hok.symm.trans h
  · exact ⟨hlo, hhi⟩
  · cases herr.symm.trans h

/-- Settles O1: the three outcomes of `decode_cases`, the command's word being `zext_32(OP)` row by row. -/
theorem decodeAcceptsExactlyTheOpcodeMap : Obligations.DecodeAcceptsExactlyTheOpcodeMap := by
  intro w
  refine ⟨fun i => (decode_ok_iff w i).trans ?opcodes, decode_reservedBits_iff w, decode_reservedOpcode_iff w⟩
  case opcodes => cases i <;> rfl

/-! ## Table words -/

theorem decodeTableWord_toNat (w : Word) : decodeTableWord 32 w.toNat = (decode w).toOption := by
  rw [decodeTableWord, if_pos (Nat.le_refl 32), Nat.mod_eq_of_lt w.isLt, BitVec.ofNat_toNat, BitVec.setWidth_eq]

theorem decodeTableWord_encode (i : Instr) : decodeTableWord 32 (encode i).toNat = some i := by
  rw [decodeTableWord_toNat, decode_encode]
  rfl

theorem decodeTableWord_unassigned {w : Word} (h : 0x0E ≤ w.toNat) : decodeTableWord 32 w.toNat = none := by
  obtain ⟨r, hr⟩ := decode_unassigned h
  rw [decodeTableWord_toNat, hr]
  rfl

/-- Settles O2: four words are those of commands, and two lie beyond the opcode map. -/
theorem tableWordsDecodeToTheirCommands : Obligations.TableWordsDecodeToTheirCommands :=
  ⟨decodeTableWord_encode .writePattern, decodeTableWord_encode .fibDecode, decodeTableWord_encode .tblBackward,
    decodeTableWord_encode .frmDecode, decodeTableWord_unassigned (w := 0b00000000000000000000000000001110) (by decide),
    decodeTableWord_unassigned (w := 0b10000000000000000000000000001100) (by decide)⟩

/-! ## The store to CMD (30_encoding.md R90, R95) -/

section
variable {s : State} {w : Word} {i : Instr} {rest : List HostAction}

theorem launchCommand_of_ok (h : decode w = .ok i) : launchCommand w s = exec i (setBusy s) := by
  rw [launchCommand, h]

/-- BUSY is back at 0 at the `finish` of an illegal word. -/
theorem launchCommand_of_error {r : Reject} (h : decode w = .error r) :
    launchCommand w s = .next (finish .illegal s) := by
  rw [launchCommand, h]
  rfl

theorem exec_writePattern_long (h : 32 < s.arg1.toNat) : exec .writePattern s = .next (finish .illegal s) :=
  if_pos h

theorem launchCommand_writePattern_long (h : 32 < s.arg1.toNat) :
    launchCommand 0x02 s = .next (finish .illegal s) :=
  (launchCommand_of_ok (decode_encode .writePattern)).trans (exec_writePattern_long (s := setBusy s) h)

theorem step_store_cmd (hidle : s.busy = false) (h : s.host = .store .word (s.cfg.regBase + 0x04) w :: rest) :
    step s = launchCommand w { s with host := rest } :=
  (step_store h (by decide) (by decide)).trans (hostStore_cmd (s := { s with host := rest }) hidle w)

end

/-- Settles O3: the store reaches CMD, and the word it carries is that of `i`. -/
theorem stepRunsTheDecodedCommand : Obligations.StepRunsTheDecodedCommand := by
  intro s w i rest hidle h hi
  obtain ⟨hwf, -, -⟩ := encodeDecode i
  exact ⟨hwf, (step_store_cmd hidle h).trans (launchCommand_of_ok hi)⟩

/-- Settles O4: a word the decoder rejects goes straight to `finish(ILLEGAL)`, and WRITE_PATTERN checks ARG1 before it
writes. -/
theorem illegalCommandOnlySetsItsCode : Obligations.IllegalCommandOnlySetsItsCode := by
  intro s w rest hidle h hillegal
  refine (step_store_cmd hidle h).trans ?_
  obtain hword | ⟨rfl, hlong⟩ := or_assoc.mpr hillegal
  · obtain ⟨r, hr⟩ := decode_illegal hword
    exact launchCommand_of_error hr
  · exact launchCommand_writePattern_long (s := { s with host := rest }) hlong

end Sys2Proof.Proofs
end

/-! # Proofs: the writing commands (40_bitchannel.md R120, R121, R125 to R129, R134)

`putBit_room` and `putBit_full` say what PutBit does to the writer's registers, and `putString_written` and `flushOut_written`
what it and FlushOut do to the string written. Each writing command is one of these operations and its `finish`. -/
section
namespace Sys2Proof.Proofs

open Sys2Proof Sys2Proof.Machine

/-! ## The commands by their operations -/

theorem exec_nop (s : State) : exec .nop s = .next (finish .ok s) := rfl

theorem exec_writeBit (s : State) : exec .writeBit s = .next (finish .ok (putBit (s.arg0.getLsbD 0) s)) := rfl

theorem exec_writePattern {s : State} (h : s.arg1.toNat ≤ 32) :
    exec .writePattern s = .next (finish .ok (putBits s.arg0.toNat s.arg1.toNat s)) :=
  if_neg (Nat.not_lt.mpr h)

theorem exec_flush (s : State) :
    exec .flush s = .next (finish .ok (setRes0 (BitVec.ofNat 32 (padBits s)) (flushOut s))) := rfl

/-! ## The registers of the writer -/

section
variable {s : State}

/-- PutBit with room for a further bit behind it (40_bitchannel.md R120). -/
theorem putBit_room (h : s.wrCnt ≠ 7) (b : Bool) :
    putBit b s = { s with wrByte := pendingWith b s, wrCnt := s.wrCnt + 1 } := by
  have hroom : ¬ s.wrCnt.toNat + 1 = 8 := by bv_omega
  have hcnt : BitVec.ofNat 3 (s.wrCnt.toNat + 1) = s.wrCnt + 1 := by simp [BitVec.ofNat_add]
  rw [putBit, if_neg hroom, hcnt]
  rfl

/-- PutBit of the eighth bit of a byte (40_bitchannel.md R120). -/
theorem putBit_full (h : s.wrCnt = 7) (b : Bool) :
    putBit b s =
      { s with wrByte := 0, wrCnt := 0, out := s.out ++ [pendingWith b s], outCount := s.outCount + 1 } := by
  have hfull : s.wrCnt.toNat + 1 = 8 := by bv_omega
  exact if_pos hfull

theorem flushOut_empty (h : s.wrCnt = 0) : flushOut s = s := if_pos h

theorem flushOut_partial (h : s.wrCnt ≠ 0) :
    flushOut s = { s with wrByte := 0, wrCnt := 0, out := s.out ++ [s.wrByte], outCount := s.outCount + 1 } :=
  if_neg h

theorem padBits_empty (h : s.wrCnt = 0) : padBits s = 0 := if_pos h

theorem padBits_partial (h : s.wrCnt ≠ 0) : padBits s = 8 - s.wrCnt.toNat := if_neg h

theorem padBits_lt : padBits s < 8 := by
  by_cases h : s.wrCnt = 0
  · rw [padBits_empty h]
    decide
  · rw [padBits_partial h]
    bv_omega

end

/-! ## The statements -/

/-- Settles O22: the word is that of NOP, which is its `finish` alone. -/
theorem nopOnlyFinishes : Obligations.NopOnlyFinishes :=
  ⟨decode_encode .nop, exec_nop⟩

/-- Settles O23: PutBit by whether the bit fills the byte, and `putBit_written` for the string. -/
theorem writeBitAppendsOneBit : Obligations.WriteBitAppendsOneBit := by
  intro s
  refine ⟨_, exec_writeBit s, ?frame, fun hroom => ?room, fun hfull => ?full, putBit_written (b := s.arg0.getLsbD 0)⟩
  case frame =>
    by_cases hcnt : s.wrCnt = 7
    · have hwrap : (0 : BitVec 3) = s.wrCnt + 1 := by rw [hcnt]; rfl
      rw [putBit_full hcnt, ← hwrap]
      rfl
    · rw [putBit_room hcnt]
      rfl
  case room =>
    rw [putBit_room hroom]
    exact ⟨rfl, rfl⟩
  case full =>
    rw [putBit_full hfull]
    exact ⟨⟨_, rfl⟩, rfl, rfl⟩

/-- The bits of a register from bit `l - 1` down to bit 0 (00_scope.md R12). -/
theorem bits_toNat_eq_map_getLsbD (w : Word) (l : Nat) :
    bits w.toNat l = (List.range l).map (fun k => w.getLsbD (l - 1 - k)) := by
  induction l with
  | zero => rfl
  | succ l ih =>
    rw [bits_succ, ih, List.range_succ_eq_map, List.map_cons, List.map_map]
    refine congrArg₂ List.cons rfl (List.map_congr_left fun k _ => ?_)
    exact congrArg w.getLsbD (by omega)

/-- Settles O24: PutBits is PutBit of each bit of `bits(ARG0, ARG1)`, and a length above 32 is checked before it. -/
theorem writePatternAppendsItsBits : Obligations.WritePatternAppendsItsBits := by
  intro s
  refine ⟨fun hlen => ⟨_, exec_writePattern hlen, ?frame, putString_out _ s, fun hs => ?string⟩, exec_writePattern_long⟩
  case frame => exact congrArg (finish .ok) (putBits_onlyWriter s.arg0.toNat s.arg1.toNat s)
  case string =>
    obtain ⟨hwritten, hok⟩ := putBits_written hs s.arg0.toNat s.arg1.toNat
    exact ⟨hok, bits_toNat_eq_map_getLsbD s.arg0 s.arg1.toNat ▸ hwritten⟩

/-- Settles O25: FlushOut by whether bits are pending, and `flushOut_written` for the string. -/
theorem flushPadsToAByte : Obligations.FlushPadsToAByte := by
  intro s
  refine ⟨fun hempty => ?empty, fun hpending => ⟨_, exec_flush s, ?frame, fun hs => ?string⟩⟩
  case empty =>
    rw [exec_flush, flushOut_empty hempty, padBits_empty hempty]
    rfl
  case frame =>
    rw [flushOut_partial hpending, padBits_partial hpending]
    rfl
  case string =>
    obtain ⟨hwritten, -, -⟩ := flushOut_written hs
    rw [padBits_partial hpending] at hwritten
    exact hwritten

/-! ## Whole bytes (40_bitchannel.md R134) -/

theorem flatMap_byteBits_length (l : List Byte) : (l.flatMap byteBits).length = 8 * l.length := by
  induction l with
  | nil => rfl
  | cons b l ih =>
    rw [List.flatMap_cons, List.length_append, byteBits_length, ih, List.length_cons]
    omega

/-- Settles O30: the flushed string stands in OUT, and since its length is a number of whole bytes, the fewer than eight zeros
behind it are those that fill the last byte. -/
theorem flushedStringFillsWholeBytes : Obligations.FlushedStringFillsWholeBytes := by
  intro s l hbyte hcnt
  have hs : writerOk s := by simp [writerOk, hbyte]
  obtain ⟨hput, hok⟩ := putString_written hs l
  obtain ⟨hflush, hcnt', -⟩ := flushOut_written hok
  rw [hput, written_of_flushed hcnt', written_of_flushed hcnt] at hflush
  have hpad : padBits (putString l s) < 8 := padBits_lt
  have hlength := congrArg List.length hflush
  simp only [List.length_append, List.length_replicate, flatMap_byteBits_length] at hlength
  refine ⟨hcnt', by omega, ?string⟩
  case string =>
    have hfill : padBits (putString l s) = (8 - l.length % 8) % 8 := by omega
    rw [hflush, fillZeros, hfill]

end Sys2Proof.Proofs
end

/-! # Proofs: the reading commands (40_bitchannel.md R122 to R124, R130 to R133)

READ_BIT and TRY_READ_BIT differ only where no real bit is left. What they do with a real bit is therefore said once, of the
reading command of either mode. -/
section
namespace Sys2Proof.Proofs

open Sys2Proof Sys2Proof.Machine

/-- The command that reads one bit in a mode. -/
def readInstr : ReadMode → Instr
  | .runout => .readBit
  | .strict => .tryReadBit

theorem exec_readInstr (m : ReadMode) (s : State) : exec (readInstr m) s = .next (finishRead s (getBit m s)) := by
  cases m <;> rfl

/-- A real bit is read the same in both modes. -/
theorem getBit_of_getBitTry (m : ReadMode) {s : State} {r : Bool × State} (h : getBitTry s = some r) :
    getBit m s = some r := by
  cases m with
  | runout =>
    show getBitRO s = some r
    rw [getBitRO, h]
  | strict => exact h

/-- The bit under RD_MASK right after a fetch is bit 7. -/
theorem and_0x80_ne_zero (b : Byte) : ((b &&& 0x80) != 0) = b.getLsbD 7 := by
  obtain ⟨hbits, -⟩ := mask_step b 0x80 (by decide) (by decide)
  obtain ⟨hhead, -⟩ := List.cons.inj hbits
  exact hhead.symm

/-! ## A real bit -/

section
variable (m : ReadMode) {s : State}

theorem exec_readInstr_cached (h : s.rdMask ≠ 0) : exec (readInstr m) s = .next { s with
    rdMask := s.rdMask >>> 1, bitsRead := s.bitsRead + 1
    res0 := BitVec.ofNat 32 (s.rdByte &&& s.rdMask != 0).toNat, code := .ok, busy := false } := by
  rw [exec_readInstr, getBit_of_getBitTry m (getBitTry_cached h)]
  rfl

theorem exec_readInstr_fetch {byte : Byte} (h : s.rdMask = 0) (hbyte : s.inp[s.inPos.toNat]? = some byte) :
    exec (readInstr m) s = .next { s with
      inPos := s.inPos + 1, rdByte := byte, rdMask := 0x40, bitsRead := s.bitsRead + 1
      res0 := BitVec.ofNat 32 (byte.getLsbD 7).toNat, code := .ok, busy := false } := by
  rw [exec_readInstr, getBit_of_getBitTry m (getBitTry_fetch h hbyte), and_0x80_ne_zero]
  rfl

theorem exec_readInstr_cons (hs : readerOk s) {b : Bool} {rest : BitString} (hu : unread s = b :: rest) :
    ∃ t, exec (readInstr m) s = .next t ∧
      t = { s with inPos := t.inPos, rdByte := t.rdByte, rdMask := t.rdMask, bitsRead := s.bitsRead + 1,
                   res0 := BitVec.ofNat 32 b.toNat, code := .ok, busy := false } ∧
      unread t = rest ∧ readerOk t := by
  obtain ⟨u, hget, hrest, hok, hcount, honly⟩ := getBitTry_cons hs hu
  refine ⟨finish .ok (setRes0 (bitWord b) u), ?next, ?frame, hrest, hok⟩
  case next => rw [exec_readInstr, getBit_of_getBitTry m hget]; rfl
  case frame =>
    unfold onlyStrictReader at honly
    rw [hcount] at honly
    exact congrArg (fun v => finish .ok (setRes0 (bitWord b) v)) honly

end

/-! ## No real bit -/

section
variable {s : State}

theorem getBitRO_of_getBitTry_none (h : getBitTry s = none) :
    getBitRO s = if s.runoutLeft = 0 then none else some (false, countBit (useRunout s)) := by
  rw [getBitRO, h]

theorem exec_readBit_runout (h : getBitTry s = none) (hleft : s.runoutLeft ≠ 0) :
    exec .readBit s = .next { s with
      runoutLeft := s.runoutLeft - 1, bitsRead := s.bitsRead + 1, res0 := 0, code := .ok, busy := false } := by
  refine (exec_readInstr .runout s).trans ?_
  rw [getBit, getBitRO_of_getBitTry_none h, if_neg hleft]
  rfl

theorem exec_readBit_exhausted (h : getBitTry s = none) (hleft : s.runoutLeft = 0) :
    exec .readBit s = .next { s with res0 := 0xFFFFFFFF, code := .exhausted, busy := false } := by
  refine (exec_readInstr .runout s).trans ?_
  rw [getBit, getBitRO_of_getBitTry_none h, if_pos hleft]
  rfl

theorem exec_tryReadBit_exhausted (h : getBitTry s = none) :
    exec .tryReadBit s = .next { s with res0 := 0xFFFFFFFF, code := .exhausted, busy := false } := by
  refine (exec_readInstr .strict s).trans ?_
  rw [getBit, h]
  rfl

end

/-! ## The statements -/

/-- Settles O26: a real bit as in both modes, and none in a sound reader with nothing left. -/
theorem readBitDeliversTheNextBit : Obligations.ReadBitDeliversTheNextBit := by
  intro s
  refine ⟨exec_readInstr_cached .runout, fun _ => exec_readInstr_fetch .runout, fun hs => ⟨?bit, ?runout, ?exhausted⟩⟩
  case bit => exact fun _ _ => exec_readInstr_cons .runout hs
  case runout => exact fun hu => exec_readBit_runout (getBitTry_nil hs hu)
  case exhausted => exact fun hu => exec_readBit_exhausted (getBitTry_nil hs hu)

/-- Settles O27: as O26, where the want of a real bit is the end. -/
theorem tryReadBitNeverUsesRunout : Obligations.TryReadBitNeverUsesRunout := by
  intro s
  refine ⟨exec_readInstr_cached .strict, fun _ => exec_readInstr_fetch .strict, fun hs => ⟨?bit, ?exhausted⟩⟩
  case bit => exact fun _ _ => exec_readInstr_cons .strict hs
  case exhausted => exact fun hu => exec_tryReadBit_exhausted (getBitTry_nil hs hu)

/-! ## All of IN -/

/-- The reader at the start of IN, nothing cached: all of IN is to be read. -/
theorem unread_of_start {s : State} (hpos : s.inPos = 0) (hmask : s.rdMask = 0) :
    unread s = s.inp.flatMap byteBits := by
  rw [unread, cachedBits, if_pos hmask, hpos]
  rfl

theorem readerOk_of_start {s : State} (hlen : s.inp.length < 2 ^ 32) (hpos : s.inPos = 0) (hmask : s.rdMask = 0) :
    readerOk s := by
  refine ⟨hlen, ?_, ?_⟩
  · rw [hpos]
    exact Nat.zero_le _
  · rw [hmask]
    exact List.mem_cons_self

/-- Settles O28: REWIND is `rewindReader`, which leaves the reader at the start of IN. -/
theorem rewindRestartsTheReader : Obligations.RewindRestartsTheReader :=
  fun _ => ⟨_, rfl, rfl, unread_of_start rfl rfl⟩

/-- As many TRY_READ_BIT commands as there are bits in front of what is left deliver those bits, in order. -/
theorem tryReads_append {s : State} {l rest : BitString} (hs : readerOk s) (hu : unread s = l ++ rest) :
    ∃ t, tryReads l.length s = some (l.map bitWord, t) ∧ unread t = rest ∧ readerOk t ∧
      t.bitsRead = s.bitsRead + BitVec.ofNat 32 l.length := by
  induction l generalizing s with
  | nil => exact ⟨s, rfl, hu, hs, (BitVec.add_zero _).symm⟩
  | cons b l ih =>
    obtain ⟨t, hexec, hframe, hleft, hok⟩ := exec_readInstr_cons .strict hs hu
    obtain ⟨u, hreads, hrest, hok', hcount⟩ := ih hok hleft
    have hres : t.res0 = bitWord b := by rw [hframe]; rfl
    have hbits : t.bitsRead = s.bitsRead + 1 := by rw [hframe]
    refine ⟨u, ?reads, hrest, hok', ?count⟩
    case reads =>
      rw [List.length_cons, tryReads, show exec .tryReadBit s = .next t from hexec]
      simp only [hreads, Option.map_some, hres, List.map_cons]
    case count =>
      rw [hcount, hbits, List.length_cons, BitVec.ofNat_add, add_assoc, add_comm 1]
      rfl

/-- Settles O29: at the start of IN its bytes' bits are what is left, and nothing behind them. -/
theorem strictReadsDeliverAllOfIn : Obligations.StrictReadsDeliverAllOfIn := by
  intro s hlen hpos hmask hbits
  have hs := readerOk_of_start hlen hpos hmask
  have hu : unread s = s.inp.flatMap byteBits ++ [] := by rw [unread_of_start hpos hmask, List.append_nil]
  obtain ⟨t, hreads, hnil, hok, hcount⟩ := tryReads_append hs hu
  rw [flatMap_byteBits_length] at hreads hcount
  rw [hbits, zero_add] at hcount
  exact ⟨t, hreads, hcount, exec_tryReadBit_exhausted (getBitTry_nil hok hnil)⟩

end Sys2Proof.Proofs
end

/-! # Proofs: the two sides of the channel (40_bitchannel.md R135)

A BitChannel command works on one side of the channel and then writes RES0 and STATUS. -/
section
namespace Sys2Proof.Proofs

open Sys2Proof Sys2Proof.Machine

section
variable {i : Instr} {s t : State}

/-- NOP and the writing commands: the writer's side, then RES0 and STATUS. -/
theorem exec_onlyWriter (hi : i ∈ [Instr.nop, .writeBit, .writePattern, .flush]) (h : exec i s = .next t) :
    ∃ c v u, t = finish c (setRes0 v u) ∧ onlyWriter s u := by
  simp only [List.mem_cons, List.not_mem_nil, or_false] at hi
  obtain rfl | rfl | rfl | rfl := hi
  case inl =>
    cases h
    exact ⟨.ok, s.res0, s, rfl, onlyWriter_refl s⟩
  case inr.inl =>
    cases h
    exact ⟨.ok, _, _, rfl, putBit_onlyWriter (bitOperand s) s⟩
  case inr.inr.inl =>
    rcases Nat.lt_or_ge 32 s.arg1.toNat with hlong | hlen
    · cases (exec_writePattern_long hlong).symm.trans h
      exact ⟨.illegal, s.res0, s, rfl, onlyWriter_refl s⟩
    · cases (exec_writePattern hlen).symm.trans h
      exact ⟨.ok, _, _, rfl, putBits_onlyWriter s.arg0.toNat s.arg1.toNat s⟩
  case inr.inr.inr =>
    cases h
    exact ⟨.ok, _, _, rfl, flushOut_onlyWriter s⟩

theorem exec_readInstr_onlyReader {m : ReadMode} (h : exec (readInstr m) s = .next t) :
    ∃ c v u, t = finish c (setRes0 v u) ∧ onlyReader s u := by
  cases (exec_readInstr m s).symm.trans h
  cases hget : getBit m s with
  | none => exact ⟨_, _, _, rfl, onlyReader_refl s⟩
  | some r => exact ⟨_, _, _, rfl, getBit_onlyReader hget⟩

/-- NOP and the reading commands: the reader's side, then RES0 and STATUS. -/
theorem exec_onlyReader (hi : i ∈ [Instr.nop, .readBit, .tryReadBit, .rewind]) (h : exec i s = .next t) :
    ∃ c v u, t = finish c (setRes0 v u) ∧ onlyReader s u := by
  simp only [List.mem_cons, List.not_mem_nil, or_false] at hi
  obtain rfl | rfl | rfl | rfl := hi
  case inl =>
    cases h
    exact ⟨.ok, s.res0, s, rfl, onlyReader_refl s⟩
  case inr.inl => exact exec_readInstr_onlyReader (m := .runout) h
  case inr.inr.inl => exact exec_readInstr_onlyReader (m := .strict) h
  case inr.inr.inr =>
    cases h
    exact ⟨.ok, s.res0, rewindReader s, rfl, rfl⟩

end

/-- Settles O31: what only the one side's registers, RES0 and STATUS differ in agrees on the other side and in RES1. -/
theorem readerAndWriterAreIndependent : Obligations.ReaderAndWriterAreIndependent := by
  intro s t
  refine ⟨fun i hi h => ?writing, fun i hi h => ?reading⟩
  case writing =>
    obtain ⟨c, v, u, rfl, honly⟩ := exec_onlyWriter hi h
    unfold onlyWriter at honly
    rw [honly]
    exact ⟨rfl, rfl, rfl, rfl, rfl, rfl, rfl⟩
  case reading =>
    obtain ⟨c, v, u, rfl, honly⟩ := exec_onlyReader hi h
    unfold onlyReader at honly
    rw [honly]
    exact ⟨rfl, rfl, rfl, rfl, rfl⟩

end Sys2Proof.Proofs
end

/-! # Proofs: the digits of a Fibonacci code (41_fibonacci.md R151 to R154)

`CodeDigits` names the digit strings a terminator may follow. `fibCode_spec` says that every code is one of them and its
terminator; here is the converse, that each of them is the code of the value it adds up to. -/
section
namespace Sys2Proof.Proofs

open Sys2Proof Sys2Proof.Machine

/-- The digits in front of a terminator (41_fibonacci.md R154): no two ones side by side, and the last digit a one. -/
structure CodeDigits (ds : BitString) : Prop where
  pair : noPair ds
  last : ds.getLast? = some true

theorem codeDigits_iff (ds : BitString) : CodeDigits ds ↔ noPair ds ∧ ds.getLast? = some true :=
  ⟨fun ⟨hpair, hlast⟩ => ⟨hpair, hlast⟩, fun ⟨hpair, hlast⟩ => ⟨hpair, hlast⟩⟩

theorem codeDigits_singleton (b : Bool) : CodeDigits [b] ↔ b = true := by
  simp [codeDigits_iff, noPair]

theorem codeDigits_cons_cons (a b : Bool) (ds : BitString) :
    CodeDigits (a :: b :: ds) ↔ ¬ (a = true ∧ b = true) ∧ CodeDigits (b :: ds) := by
  simp only [codeDigits_iff, noPair, List.getLast?_cons_cons, and_assoc]

theorem codeDigits_false_cons (ds : BitString) : CodeDigits (false :: ds) ↔ CodeDigits ds := by
  cases ds with
  | nil => simp [codeDigits_iff]
  | cons d ds => simp [codeDigits_cons_cons]

/-- The last digit of a code, split off. -/
theorem codeDigits_append {ds : BitString} (h : CodeDigits ds) : ∃ init, ds = init ++ [true] :=
  List.getLast?_eq_some_iff.mp h.last

theorem codeDigits_length_pos {ds : BitString} (h : CodeDigits ds) : 1 ≤ ds.length := by
  obtain ⟨init, rfl⟩ := codeDigits_append h
  simp

/-! ## Pairs of ones by their places -/

theorem noPair_cons {a : Bool} {ds : BitString} :
    noPair (a :: ds) ↔ ¬ (a = true ∧ ds.head? = some true) ∧ noPair ds := by
  cases ds with
  | nil => simp [noPair]
  | cons b ds => simp [noPair]

theorem noPair_getElem? {ds : BitString} (h : noPair ds) (k : Nat) :
    ¬ (ds[k]? = some true ∧ ds[k + 1]? = some true) := by
  induction ds generalizing k with
  | nil => simp
  | cons a ds ih =>
    cases ds with
    | nil => simp
    | cons b ds =>
      obtain ⟨hab, htail⟩ := h
      cases k with
      | zero => simpa using hab
      | succ k => simpa using ih htail k

/-- The terminator makes the only pair of ones: the last one. -/
theorem pair_of_terminated {ds : BitString} (h : noPair ds) {k : Nat} (hk : (ds ++ [true])[k]? = some true)
    (hk' : (ds ++ [true])[k + 1]? = some true) : k + 2 = (ds ++ [true]).length := by
  have hin : k + 1 < (ds ++ [true]).length := (List.getElem?_eq_some_iff.mp hk').1
  rw [List.length_append, List.length_singleton] at hin ⊢
  by_contra hne
  rw [List.getElem?_append_left (by omega)] at hk hk'
  exact noPair_getElem? h k ⟨hk, hk'⟩

/-! ## The sum of the digits -/

/-- Terms beyond the last digit add nothing. -/
theorem digitSum_fibFrom {ds : BitString} {k a b : Nat} (h : ds.length ≤ k) :
    digitSum (fibFrom k a b) ds = digitSum (fibFrom ds.length a b) ds := by
  induction ds generalizing k a b with
  | nil => cases k <;> rfl
  | cons d ds ih =>
    obtain ⟨k, rfl⟩ : ∃ j, k = j + 1 := ⟨k - 1, by simp only [List.length_cons] at h; omega⟩
    exact congrArg (d.toNat * a + ·) (ih (Nat.le_of_succ_le_succ h))

/-- A highest digit that is one brings in the highest term. -/
theorem fibNext_le_digitSum (init : BitString) (a b : Nat) :
    fibNext init.length a b ≤ digitSum (fibFrom (init ++ [true]).length a b) (init ++ [true]) := by
  induction init generalizing a b with
  | nil => simp [fibNext, fibFrom, digitSum]
  | cons d init ih => exact (ih b (a + b)).trans (Nat.le_add_left _ _)

/-- Digits without neighbours stay below the term after the last, by as much as the digit `prev` in front of them leaves: the
lowest term behind a one, the term below it behind a zero. -/
theorem digitSum_lt {prev : Bool} {ds : BitString} (h : noPair (prev :: ds)) {a b : Nat} (hab : a ≤ b) (hba : b ≤ 2 * a) :
    digitSum (fibFrom ds.length a b) ds + (if prev then a else b - a) ≤ fibNext ds.length a b := by
  induction ds generalizing prev a b with
  | nil =>
    show 0 + (if prev then a else b - a) ≤ a
    split <;> omega
  | cons d ds ih =>
    obtain ⟨hpair, htail⟩ := h
    have hrest := ih htail (a := b) (b := a + b) (by omega) (by omega)
    rw [List.length_cons, fibFrom, digitSum, fibNext]
    cases d with
    | false =>
      simp only [Bool.false_eq_true, if_false, Bool.toNat_false] at hrest ⊢
      split <;> omega
    | true =>
      have hprev : prev = false := by simpa using hpair
      subst hprev
      simp only [Bool.false_eq_true, if_false, if_true, Bool.toNat_true] at hrest ⊢
      omega

/-- The greedy walk finds the digits again: from their sum and a residue too small for the lowest digit it takes exactly these
and leaves the residue. -/
theorem greedyDigits_digitSum {ds : BitString} (h : noPair ds) {a b r : Nat} (hab : a ≤ b) (hr : r < a)
    (hr' : ds.head? = some true → r < b - a) :
    greedyDigits (fibFrom ds.length a b) (digitSum (fibFrom ds.length a b) ds + r) = (r, ds) := by
  induction ds generalizing a b r with
  | nil => exact congrArg (·, []) (Nat.zero_add r)
  | cons d ds ih =>
    obtain ⟨hpair, htail⟩ := noPair_cons.mp h
    have hsum : digitSum (a :: fibFrom ds.length b (a + b)) (d :: ds) + r =
        digitSum (fibFrom ds.length b (a + b)) ds + (r + d.toNat * a) := by
      rw [digitSum]
      omega
    rw [List.length_cons, fibFrom, hsum, greedyDigits_cons]
    cases d with
    | false =>
      rw [ih htail (by omega) (by simp; omega) (fun _ => by simp; omega)]
      simp [hr]
    | true =>
      have hlow := hr' rfl
      rw [ih htail (by omega) (by simp; omega) (fun hd => absurd ⟨rfl, hd⟩ hpair)]
      simp

/-! ## The code of a value -/

theorem fibRom_length (n : Nat) : (fibRom n).length = n := fibFrom_length n 0 1

/-- The converse of `fibCode_spec`: digits that fit the table are the code of what they add up to, less one. -/
theorem fibCode_of_codeDigits {n v : Nat} {ds : BitString} (h : CodeDigits ds) (hn : ds.length + 3 ≤ n)
    (hv : digitSum (fibFrom ds.length 1 2) ds = v + 1) : fibCode (fibRom n) v = some (ds ++ [true]) := by
  have hup : v + 1 < fibNext ds.length 1 2 := by
    have := digitSum_lt (prev := false) (noPair_cons.mpr ⟨by simp, h.pair⟩) (a := 1) (b := 2) (by omega) (by omega)
    simp only [Bool.false_eq_true, if_false] at this
    omega
  obtain ⟨init, hinit⟩ := codeDigits_append h
  have hlow : fibNext init.length 1 2 ≤ v + 1 := by
    have := fibNext_le_digitSum init 1 2
    rwa [← hinit, hv] at this
  have hlen : ds.length = init.length + 1 := by rw [hinit]; simp
  obtain ⟨j, hj, hterms, hnext, hterm⟩ := fibFrom_takeWhile (a := 1) (b := 2) (by omega) (n - 2) (v + 1)
  have hjlen : j = ds.length := by
    rcases Nat.lt_trichotomy j ds.length with hlt | heq | hgt
    · have := fibNext_mono (a := 1) (b := 2) (by omega) (show j ≤ init.length by omega)
      have := hnext (by omega)
      omega
    · exact heq
    · have := hterm ds.length hgt
      omega
  have hdomain : v + 1 < (fibRom n).getD ((fibRom n).length - 1) 0 := by
    rw [fibRom_length, fibRom_getD (by omega)]
    exact hup.trans_le (fibNext_mono (a := 0) (b := 1) (by omega) (show ds.length + 2 ≤ n - 1 by omega))
  have hdigits : greedyDigits (fibFrom ds.length 1 2) (v + 1) = (0, ds) := by
    rw [← hv]
    exact greedyDigits_digitSum h.pair (r := 0) (by omega) (by omega) (fun _ => by omega)
  rw [fibCode, if_pos hdomain, fibRom_drop_two, hterms, hjlen, hdigits]

/-- The encodable domain (41_fibonacci.md R153). -/
theorem fibCode_isSome_iff (n v : Nat) :
    (fibCode (fibRom n) v).isSome ↔ v + 2 ≤ (fibRom n).getD (n - 1) 0 := by
  rw [fibCode, fibRom_length]
  split
  · next h => exact iff_of_true rfl h
  · next h => exact iff_of_false Bool.false_ne_true h

/-- A code by its digits and its length (41_fibonacci.md R152, R153). -/
theorem fibCode_digits {n v : Nat} {str : BitString} (hn : 4 ≤ n) (h : fibCode (fibRom n) v = some str) :
    ∃ ds, str = ds ++ [true] ∧ CodeDigits ds ∧ ds.length + 3 ≤ n ∧ digitSum (fibFrom ds.length 1 2) ds = v + 1 ∧
      fibNext str.length 0 1 ≤ v + 1 ∧ v + 1 < fibNext (str.length + 1) 0 1 := by
  obtain ⟨ds, rfl, hsum, hpair, hlast, hlen, hlow, hup⟩ := fibCode_spec hn h
  rw [List.length_append, List.length_singleton]
  exact ⟨ds, rfl, ⟨hpair, hlast⟩, hlen, hsum, hlow, hup⟩

/-! ## The statements -/

/-- Settles O33: the domain is `fibCode`'s own test, and the length is one more than the number of digits. -/
theorem encodableDomainAndCodeLength : Obligations.EncodableDomainAndCodeLength := by
  intro n hn _
  refine ⟨fibCode_isSome_iff n, fun v str h => ?length⟩
  case length =>
    obtain ⟨ds, hstr, hdigits, hlen, -, hlow, hup⟩ := fibCode_digits hn h
    have hpos := codeDigits_length_pos hdigits
    have hcode : str.length = ds.length + 1 := by rw [hstr, List.length_append, List.length_singleton]
    rw [fibRom_getD (by omega), fibRom_getD (by omega)]
    exact ⟨by omega, by omega, hlow, hup⟩

/-- Settles O34: the last digit and the terminator are the pair, and a `111` would hold a pair before it. -/
theorem everyCodeEndsInItsOnlyPair : Obligations.EveryCodeEndsInItsOnlyPair := by
  intro n hn _
  refine ⟨fibCode_of_codeDigits (ds := [true]) ((codeDigits_singleton true).mpr rfl) hn rfl, fun v str h => ?shape⟩
  case shape =>
    obtain ⟨ds, rfl, hdigits, -⟩ := fibCode_digits hn h
    have hpos := codeDigits_length_pos hdigits
    obtain ⟨init, hinit⟩ := codeDigits_append hdigits
    refine ⟨?two, ⟨init, ?suffix⟩, fun k => pair_of_terminated hdigits.pair, fun ⟨l, r, hlr⟩ => ?three⟩
    case two =>
      rw [List.length_append, List.length_singleton]
      omega
    case suffix => rw [hinit, List.append_assoc, List.singleton_append]
    case three =>
      have hend := pair_of_terminated hdigits.pair (k := l.length) (by simp [← hlr]) (by simp [← hlr])
      simp only [← hlr, List.length_append, List.length_cons] at hend
      omega

end Sys2Proof.Proofs
end

/-! # Proofs: reading a symbol (41_fibonacci.md R155, R156, R161)

`Reads m s x t` says that the reads of a mode deliver the string `x`. `decodeTerms_cases` is the inversion of `DecodeSym`'s
loop: the string it read and how it ended; `decodeTerms_of_reads` is the way back where it ended in a value. -/
section
namespace Sys2Proof.Proofs

open Sys2Proof Sys2Proof.Machine

/-! ## Strings read bit by bit -/

/-- The reads of a mode deliver the string `x` from `s` on and leave `t`. -/
inductive Reads (m : ReadMode) : State → BitString → State → Prop
  | nil (s : State) : Reads m s [] s
  | cons {s t u : State} {b : Bool} {x : BitString} (hbit : getBit m s = some (b, u)) (hrest : Reads m u x t) :
      Reads m s (b :: x) t

section
variable {m : ReadMode} {s t : State} {x : BitString}

theorem Reads.single {b : Bool} (h : getBit m s = some (b, t)) : Reads m s [b] t := .cons h (.nil t)

theorem getBitTry_bitsRead {b : Bool} (h : getBitTry s = some (b, t)) : t.bitsRead = s.bitsRead + 1 := by
  by_cases hmask : s.rdMask = 0
  · cases hbyte : s.inp[s.inPos.toNat]? with
    | none => cases (getBitTry_none hmask hbyte).symm.trans h
    | some byte =>
      cases (getBitTry_fetch hmask hbyte).symm.trans h
      rfl
  · cases (getBitTry_cached hmask).symm.trans h
    rfl

/-- What a bit of the run-out mode is: a real bit, or a zero of the run-out (40_bitchannel.md R123). -/
theorem getBitRO_cases {b : Bool} (h : getBitRO s = some (b, t)) :
    getBitTry s = some (b, t) ∨ (getBitTry s = none ∧ b = false ∧ t = countBit (useRunout s)) := by
  unfold getBitRO at h
  split at h
  · next r hr =>
    cases h
    exact .inl hr
  · next hnone =>
    split at h
    · cases h
    · cases h
      exact .inr ⟨hnone, rfl, rfl⟩

theorem getBit_bitsRead {b : Bool} (h : getBit m s = some (b, t)) : t.bitsRead = s.bitsRead + 1 := by
  cases m with
  | strict => exact getBitTry_bitsRead h
  | runout =>
    obtain hreal | ⟨-, -, rfl⟩ := getBitRO_cases h
    · exact getBitTry_bitsRead hreal
    · rfl

/-- BITS_READ counts every bit read, modulo 2^32 (10_state.md R33). -/
theorem Reads.bitsRead (h : Reads m s x t) : t.bitsRead = s.bitsRead + BitVec.ofNat 32 x.length := by
  induction h with
  | nil s => exact (BitVec.add_zero _).symm
  | @cons s t u b x hbit _ ih =>
    rw [ih, getBit_bitsRead hbit, List.length_cons, BitVec.ofNat_add, add_assoc, add_comm 1]
    rfl

theorem Reads.onlyStrictReader (h : Reads .strict s x t) : onlyStrictReader s t := by
  induction h with
  | nil s => exact onlyStrictReader_refl s
  | cons hbit _ ih => exact onlyStrictReader_trans (getBitTry_onlyStrictReader hbit) ih

/-- What strict reads deliver is delivered in both modes: no read of it needs the run-out. -/
theorem Reads.of_strict (m : ReadMode) (h : Reads .strict s x t) : Reads m s x t := by
  induction h with
  | nil s => exact .nil s
  | cons hbit _ ih => exact .cons (getBit_of_getBitTry m hbit) ih

/-! ## The run-out -/

/-- Using the run-out brings back no real bit. -/
theorem getBitTry_useRunout (h : getBitTry s = none) : getBitTry (countBit (useRunout s)) = none := by
  by_cases hmask : s.rdMask = 0
  · cases hbyte : s.inp[s.inPos.toNat]? with
    | none => exact getBitTry_none (s := countBit (useRunout s)) hmask hbyte
    | some byte => cases (getBitTry_fetch hmask hbyte).symm.trans h
  · cases (getBitTry_cached hmask).symm.trans h

/-- Once no real bit is left, every further bit is a zero. -/
theorem Reads.zeros (h : Reads .runout s x t) (hnone : getBitTry s = none) : true ∉ x := by
  induction h with
  | nil s => exact List.not_mem_nil
  | cons hbit _ ih =>
    obtain hreal | ⟨-, rfl, rfl⟩ := getBitRO_cases hbit
    · cases hnone.symm.trans hreal
    · simpa using ih (getBitTry_useRunout hnone)

/-- A string that ends in a one was read without run-out (41_fibonacci.md R161). -/
theorem Reads.strict_of_last_one (h : Reads m s x t) (hlast : x.getLast? = some true) : Reads .strict s x t := by
  cases m with
  | strict => exact h
  | runout =>
    induction h with
    | nil s => exact .nil s
    | @cons s t u b x hbit hrest ih =>
      obtain hreal | ⟨hnone, -, -⟩ := getBitRO_cases hbit
      · refine .cons hreal ?_
        cases x with
        | nil =>
          cases hrest
          exact .nil _
        | cons c x => exact ih (by rwa [List.getLast?_cons_cons] at hlast)
      · exact absurd (List.mem_of_getLast? hlast) ((Reads.cons hbit hrest).zeros hnone)

/-! ## Sound readers -/

/-- A sound reader delivers what stands next in IN (40_bitchannel.md R133). -/
theorem reads_of_unread {rest : BitString} (hs : readerOk s) (hu : unread s = x ++ rest) :
    ∃ t, Reads .strict s x t ∧ unread t = rest := by
  induction x generalizing s with
  | nil => exact ⟨s, .nil s, hu⟩
  | cons b x ih =>
    obtain ⟨u, hbit, hleft, hok, -⟩ := getBitTry_cons hs hu
    obtain ⟨t, hreads, hrest⟩ := ih hok hleft
    exact ⟨t, .cons hbit hreads, hrest⟩

/-- What strict reads of a sound reader delivered stood next in IN. -/
theorem Reads.unread (h : Reads .strict s x t) (hs : readerOk s) : unread s = x ++ unread t := by
  induction h with
  | nil s => rfl
  | @cons s t u b x hbit _ ih =>
    have hbit' : getBitTry s = some (b, u) := hbit
    cases hu : Machine.unread s with
    | nil => cases (getBitTry_nil hs hu).symm.trans hbit'
    | cons c rest =>
      obtain ⟨u', hget, hleft, hok, -⟩ := getBitTry_cons hs hu
      cases hget.symm.trans hbit'
      rw [← hleft, ih hok, List.cons_append]

end

/-! ## The loop of DecodeSym -/

/-- Everything the loop of `DecodeSym` can do behind a digit `prev` (41_fibonacci.md R155): it reads the digits of a code and
the terminator, or comes to the end of the data before it has a bit for each term and one more, or reads so many without a
terminator. -/
theorem decodeTerms_cases (m : ReadMode) (terms : List Nat) (acc : Nat) (prev : Bool) (k : Nat) (s : State) :
    ∃ x t, Reads m s x t ∧
      ((∃ ds, x = ds ++ [true] ∧ CodeDigits (prev :: ds) ∧ ds.length ≤ terms.length ∧
          decodeTerms m terms acc prev k s = ⟨some (acc + digitSum terms ds - 1), k + x.length, .ok, t⟩) ∨
        (x.length ≤ terms.length ∧ decodeTerms m terms acc prev k s = ⟨none, k + x.length, .exhausted, t⟩) ∨
        (x.length = terms.length + 1 ∧ decodeTerms m terms acc prev k s = ⟨none, k + x.length, .overrun, t⟩)) := by
  induction terms generalizing acc prev k s with
  | nil =>
    cases hbit : getBit m s with
    | none => exact ⟨[], s, .nil s, .inr (.inl ⟨le_refl _, by simp [decodeTerms, hbit]⟩)⟩
    | some r =>
      obtain ⟨b, t⟩ := r
      refine ⟨[b], t, .single hbit, ?_⟩
      by_cases hpair : (b && prev) = true
      · obtain ⟨rfl, rfl⟩ := Bool.and_eq_true_iff.mp hpair
        exact .inl ⟨[], rfl, (codeDigits_singleton true).mpr rfl, le_refl _, by simp [decodeTerms, hbit, digitSum]⟩
      · exact .inr (.inr ⟨rfl, by simp [decodeTerms, hbit, hpair]⟩)
  | cons f terms ih =>
    cases hbit : getBit m s with
    | none => exact ⟨[], s, .nil s, .inr (.inl ⟨Nat.zero_le _, by simp [decodeTerms, hbit]⟩)⟩
    | some r =>
      obtain ⟨b, u⟩ := r
      by_cases hpair : (b && prev) = true
      · obtain ⟨rfl, rfl⟩ := Bool.and_eq_true_iff.mp hpair
        exact ⟨[true], u, .single hbit, .inl ⟨[], rfl, (codeDigits_singleton true).mpr rfl, Nat.zero_le _,
          by simp [decodeTerms, hbit, digitSum]⟩⟩
      · have hgo : decodeTerms m (f :: terms) acc prev k s = decodeTerms m terms (acc + b.toNat * f) b (k + 1) u := by
          simp [decodeTerms, hbit, hpair]
        obtain ⟨x, t, hreads, hend⟩ := ih (acc + b.toNat * f) b (k + 1) u
        refine ⟨b :: x, t, .cons hbit hreads, ?_⟩
        rw [hgo, List.length_cons, List.length_cons, show k + (x.length + 1) = k + 1 + x.length by omega]
        obtain ⟨ds, rfl, hdigits, hlen, heq⟩ | ⟨hlen, heq⟩ | ⟨hlen, heq⟩ := hend
        · have hnext : CodeDigits (prev :: b :: ds) :=
            (codeDigits_cons_cons prev b ds).mpr ⟨fun ⟨hprev, hb⟩ => hpair (by simp [hprev, hb]), hdigits⟩
          exact .inl ⟨b :: ds, rfl, hnext, Nat.succ_le_succ hlen, by rw [heq, digitSum, Nat.add_assoc]⟩
        · exact .inr (.inl ⟨Nat.succ_le_succ hlen, heq⟩)
        · exact .inr (.inr ⟨congrArg (· + 1) hlen, heq⟩)

/-- Reads that deliver the digits of a code and the terminator make the loop end there with their value. -/
theorem decodeTerms_of_reads {m : ReadMode} {terms : List Nat} {acc : Nat} {prev : Bool} {k : Nat} {s t : State}
    {ds : BitString} (h : Reads m s (ds ++ [true]) t) (hdigits : CodeDigits (prev :: ds)) (hlen : ds.length ≤ terms.length) :
    decodeTerms m terms acc prev k s =
      ⟨some (acc + digitSum terms ds - 1), k + (ds ++ [true]).length, .ok, t⟩ := by
  induction ds generalizing terms acc prev k s with
  | nil =>
    obtain rfl := (codeDigits_singleton prev).mp hdigits
    cases h with
    | cons hbit hrest =>
      cases hrest
      cases terms <;> simp [decodeTerms, hbit, digitSum]
  | cons d ds ih =>
    obtain ⟨hpair, hnext⟩ := (codeDigits_cons_cons prev d ds).mp hdigits
    cases terms with
    | nil => cases hlen
    | cons f terms =>
      cases h with
      | @cons _ _ u _ _ hbit hrest =>
        have hgo : decodeTerms m (f :: terms) acc prev k s = decodeTerms m terms (acc + d.toNat * f) d (k + 1) u := by
          simp only [decodeTerms, hbit]
          exact if_neg fun hand => hpair (Bool.and_eq_true_iff.mp hand).symm
        rw [hgo, ih hrest hnext (Nat.le_of_succ_le_succ hlen), digitSum, Nat.add_assoc, List.cons_append, List.length_cons]
        congr 1
        omega

end Sys2Proof.Proofs
end

/-! # Proofs: the Fibonacci commands (41_fibonacci.md R160 to R162, R170 to R173)

What a symbol reads is the code of its value in the table one term longer (R173), which bounds the value and makes the string
unique; and a code that stands next in IN is read back, since its digits are those the loop of `DecodeSym` asks for. -/
section
namespace Sys2Proof.Proofs

open Sys2Proof Sys2Proof.Machine

/-! ## The Fibonacci ROM of a sound state -/

theorem romOf_fib {cfg : Config} {rom : Rom} (h : romOf cfg = some rom) : rom.fib = fibRom cfg.fibLen := by
  unfold romOf at h
  split at h
  · cases h
    rfl
  · cases h

/-- The ROM of a sound state is that of a legal FIB_LEN (00_scope.md R9 W1). -/
theorem romOk_fib {s : State} (h : romOk s) :
    s.rom.fib = fibRom s.cfg.fibLen ∧ 4 ≤ s.cfg.fibLen ∧ s.cfg.fibLen ≤ 47 := by
  obtain ⟨hwf, hrom⟩ := h
  obtain ⟨hw1, -⟩ := (wellFormed_iff s.cfg).mp hwf
  rw [Config.w1, Bool.and_eq_true, decide_eq_true_iff, decide_eq_true_iff] at hw1
  exact ⟨romOf_fib hrom, hw1⟩

/-- `Fib[47]` is below `2^32` (00_scope.md R9 W1). -/
theorem fibNext_lt_word {n : Nat} (h : n ≤ 47) : fibNext n 0 1 < 2 ^ 32 - 1 :=
  (fibNext_mono (by omega) h).trans_lt (by decide)

/-- A value with a code fits a register. -/
theorem fibCode_lt_word {n v : Nat} {str : BitString} (hn : 1 ≤ n) (hn' : n ≤ 48) (h : fibCode (fibRom n) v = some str) :
    v + 2 ≤ fibNext (n - 1) 0 1 ∧ v < 2 ^ 32 - 1 := by
  have hdomain := (fibCode_isSome_iff n v).mp (by rw [h]; rfl)
  rw [fibRom_getD (by omega)] at hdomain
  have := fibNext_lt_word (show n - 1 ≤ 47 by omega)
  exact ⟨hdomain, by omega⟩

/-! ## DecodeSym -/

/-- Everything `DecodeSym` can do (41_fibonacci.md R155): `decodeTerms_cases` at the start of a symbol. -/
theorem decodeSym_cases (m : ReadMode) (s : State) :
    ∃ x t, Reads m s x t ∧
      ((∃ ds, x = ds ++ [true] ∧ CodeDigits ds ∧ ds.length ≤ s.rom.fib.length - 2 ∧
          decodeSym m s = ⟨some (digitSum (s.rom.fib.drop 2) ds - 1), x.length, .ok, t⟩) ∨
        (x.length ≤ s.rom.fib.length - 2 ∧ decodeSym m s = ⟨none, x.length, .exhausted, t⟩) ∨
        (x.length = s.rom.fib.length - 2 + 1 ∧ decodeSym m s = ⟨none, x.length, .overrun, t⟩)) := by
  have h := decodeTerms_cases m (s.rom.fib.drop 2) 0 false 0 s
  simp only [codeDigits_false_cons, List.length_drop, Nat.zero_add] at h
  exact h

theorem decodeSym_of_reads {m : ReadMode} {s t : State} {ds : BitString} (h : Reads m s (ds ++ [true]) t)
    (hdigits : CodeDigits ds) (hlen : ds.length ≤ s.rom.fib.length - 2) :
    decodeSym m s = ⟨some (digitSum (s.rom.fib.drop 2) ds - 1), (ds ++ [true]).length, .ok, t⟩ := by
  have hterms : ds.length ≤ (s.rom.fib.drop 2).length := by rwa [List.length_drop]
  have hdecode := decodeTerms_of_reads (acc := 0) (k := 0) h ((codeDigits_false_cons ds).mpr hdigits) hterms
  rwa [Nat.zero_add, Nat.zero_add] at hdecode

theorem onlyStrictReader_runoutLeft {s t : State} (h : onlyStrictReader s t) : t.runoutLeft = s.runoutLeft := by
  unfold onlyStrictReader at h
  rw [h]

/-- The bits a symbol takes, read and counted. -/
theorem decodeSym_reads (m : ReadMode) (s : State) :
    ∃ x, Reads m s x (decodeSym m s).after ∧ (decodeSym m s).bitsUsed = x.length := by
  obtain ⟨x, t, hreads, ⟨_, -, -, -, heq⟩ | ⟨-, heq⟩ | ⟨-, heq⟩⟩ := decodeSym_cases m s <;>
  · rw [heq]
    exact ⟨x, hreads, rfl⟩

/-- A symbol that decodes has read the code of its value in the table one term longer (41_fibonacci.md R171, R173). -/
theorem decodeSym_value {m : ReadMode} {s : State} {n v : Nat} (hfib : s.rom.fib = fibRom n) (hn : 2 ≤ n)
    (h : (decodeSym m s).value = some v) :
    ∃ x, Reads m s x (decodeSym m s).after ∧ (decodeSym m s).bitsUsed = x.length ∧
      fibCode (fibRom (n + 1)) v = some x := by
  obtain ⟨x, t, hreads, ⟨ds, rfl, hdigits, hlen, heq⟩ | ⟨-, heq⟩ | ⟨-, heq⟩⟩ := decodeSym_cases m s
  case inr.inl => simp [heq] at h
  case inr.inr => simp [heq] at h
  case inl =>
    rw [heq] at h ⊢
    rw [hfib, fibRom_length] at hlen
    obtain ⟨init, hinit⟩ := codeDigits_append hdigits
    have hpos : 1 ≤ digitSum (fibFrom ds.length 1 2) ds := by
      have hhigh := fibNext_le_digitSum init 1 2
      rw [← hinit] at hhigh
      exact (fibNext_mono (a := 1) (b := 2) (by omega) (Nat.zero_le init.length)).trans hhigh
    have hv : digitSum (fibFrom ds.length 1 2) ds - 1 = v := by
      rw [← digitSum_fibFrom hlen, ← fibRom_drop_two, ← hfib]
      exact Option.some.inj h
    exact ⟨ds ++ [true], hreads, rfl, fibCode_of_codeDigits hdigits (by omega) (by omega)⟩

/-- A code that is read decodes to the value it encodes. -/
theorem decodeSym_of_code {m : ReadMode} {s t : State} {n v : Nat} {str : BitString} (hfib : s.rom.fib = fibRom n)
    (hn : 4 ≤ n) (hcode : fibCode s.rom.fib v = some str) (h : Reads m s str t) :
    decodeSym m s = ⟨some v, str.length, .ok, t⟩ := by
  obtain ⟨ds, rfl, hdigits, hlen, hsum, -⟩ := fibCode_digits hn (hfib ▸ hcode)
  have hlen' : ds.length ≤ n - 2 := by omega
  have hvalue : digitSum (s.rom.fib.drop 2) ds - 1 = v := by
    rw [hfib, fibRom_drop_two, digitSum_fibFrom hlen', hsum]
    rfl
  rw [decodeSym_of_reads h hdigits (by rwa [hfib, fibRom_length]), hvalue]

/-- A symbol that decodes has read real bits only, so the strict mode reads it as well (41_fibonacci.md R161). -/
theorem decodeSym_strict_of_ok {m : ReadMode} {s : State} (h : (decodeSym m s).code = .ok) :
    decodeSym .strict s = decodeSym m s := by
  obtain ⟨x, t, hreads, ⟨ds, rfl, hdigits, hlen, heq⟩ | ⟨-, heq⟩ | ⟨-, heq⟩⟩ := decodeSym_cases m s
  case inr.inl => simp [heq] at h
  case inr.inr => simp [heq] at h
  case inl => rw [heq, decodeSym_of_reads (hreads.strict_of_last_one List.getLast?_concat) hdigits hlen]

/-! ## The commands by their operations -/

/-- The command that decodes a symbol in a mode. -/
def decodeInstr : ReadMode → Instr
  | .runout => .fibDecode
  | .strict => .fibTryDecode

theorem exec_decodeInstr (m : ReadMode) (s : State) : exec (decodeInstr m) s = .next (finishSymbol (decodeSym m s)) := by
  cases m <;> rfl

theorem exec_fibEncode_code {s : State} {str : BitString} (h : fibCode s.rom.fib s.arg0.toNat = some str) :
    exec .fibEncode s = .next (finish .ok (setResults (BitVec.ofNat 32 (stringValue str)) (BitVec.ofNat 32 str.length)
      (putString str s))) := by
  have hbits : putString str s = putBits (stringValue str) str.length s := by rw [putBits, bits_stringValue]
  rw [hbits]
  exact congrArg (fun c => Host.Outcome.next (finishEncode s c)) h

theorem exec_fibEncode_range {s : State} (h : fibCode s.rom.fib s.arg0.toNat = none) :
    exec .fibEncode s = .next (finish .range (setResults noValue 0 s)) :=
  congrArg (fun c => Host.Outcome.next (finishEncode s c)) h

/-! ## The statements -/

/-- Settles O35: strict reads of a sound reader deliver the code, which both modes decode to the value encoded. -/
theorem fibonacciRoundTrip : Obligations.FibonacciRoundTrip := by
  intro s v str rest hrom hs hcode hu i hi
  obtain ⟨hfib, hn, hn'⟩ := romOk_fib hrom
  obtain ⟨m, rfl⟩ : ∃ m, i = decodeInstr m := by
    simp only [List.mem_cons, List.not_mem_nil, or_false] at hi
    obtain rfl | rfl := hi
    · exact ⟨.runout, rfl⟩
    · exact ⟨.strict, rfl⟩
  obtain ⟨t, hreads, hleft⟩ := reads_of_unread hs hu
  have hdecode := decodeSym_of_code hfib hn hcode (hreads.of_strict m)
  obtain ⟨-, hfits⟩ := fibCode_lt_word (by omega) (by omega) (hfib ▸ hcode)
  refine ⟨finishSymbol ⟨some v, str.length, .ok, t⟩, ?next, ?frame, ?value, hleft⟩
  case next => rw [exec_decodeInstr, hdecode]
  case frame =>
    have honly := hreads.onlyStrictReader
    unfold onlyStrictReader at honly
    rw [hreads.bitsRead] at honly
    exact congrArg (fun u => finishSymbol ⟨some v, str.length, .ok, u⟩) honly
  case value => exact Nat.mod_eq_of_lt (by omega)

/-- Settles O32: PutBits of the pattern is PutBit of each bit of the code. -/
theorem fibEncodeWritesTheCode : Obligations.FibEncodeWritesTheCode := by
  intro s
  refine ⟨fun str hcode => ⟨_, exec_fibEncode_code hcode, ?frame, putString_out str s, fun hs => putString_written hs str⟩,
    exec_fibEncode_range⟩
  case frame =>
    exact congrArg
      (fun t => finish .ok (setResults (BitVec.ofNat 32 (stringValue str)) (BitVec.ofNat 32 str.length) t))
      (putString_onlyWriter str s)

/-- What a decode leaves as it was, its code, and the bits it counts (41_fibonacci.md R161, R162). -/
theorem exec_decodeInstr_frame (m : ReadMode) (s : State) : ∃ t, exec (decodeInstr m) s = .next t ∧
    t = { s with inPos := t.inPos, rdByte := t.rdByte, rdMask := t.rdMask, bitsRead := s.bitsRead + t.res1,
                 runoutLeft := t.runoutLeft, res0 := t.res0, res1 := t.res1, code := t.code, busy := false } ∧
    (t.code = .ok ∨ (t.res0 = 0xFFFFFFFF ∧ (t.code = .exhausted ∨ t.code = .overrun))) := by
  refine ⟨_, exec_decodeInstr m s, ?frame, ?code⟩
  case frame =>
    obtain ⟨x, hreads, hused⟩ := decodeSym_reads m s
    have honly := decodeSym_onlyReader m s
    unfold onlyReader at honly
    rw [hreads.bitsRead, ← hused] at honly
    exact congrArg (fun u => finishSymbol { decodeSym m s with after := u }) honly
  case code =>
    obtain ⟨-, hok⟩ | ⟨hnone, hfail⟩ := decodeTerms_code m (s.rom.fib.drop 2) 0 false 0 s
    · exact .inl hok
    · exact .inr ⟨congrArg valueWord hnone, hfail⟩

/-- Settles O36: both decodes change the reader only, and the strict one's reader has no run-out. -/
theorem fibDecodesCompleteAndKeepTheRest : Obligations.FibDecodesCompleteAndKeepTheRest := by
  intro s
  refine ⟨exec_decodeInstr_frame .runout s, ?strict⟩
  case strict =>
    obtain ⟨t, hexec, hframe, hcode⟩ := exec_decodeInstr_frame .strict s
    have hrunout : t.runoutLeft = s.runoutLeft := by
      cases (exec_decodeInstr .strict s).symm.trans hexec
      have hleft := onlyStrictReader_runoutLeft (decodeSym_onlyStrictReader s)
      exact hleft
    rw [hrunout] at hframe
    exact ⟨t, hexec, hframe, hcode⟩

/-- Settles O37: the three ends of `DecodeSym` with the bits each has read. -/
theorem symbolBitBound : Obligations.SymbolBitBound := by
  intro m s hlen
  obtain ⟨x, t, -, ⟨ds, rfl, -, hds, heq⟩ | ⟨hx, heq⟩ | ⟨hx, heq⟩⟩ := decodeSym_cases m s <;> rw [heq]
  case inl =>
    have hx : (ds ++ [true]).length ≤ s.rom.fib.length - 1 := by
      rw [List.length_append, List.length_singleton]
      omega
    exact ⟨hx, nofun, nofun⟩
  case inr.inl =>
    have hx' : x.length + 2 ≤ s.rom.fib.length := by omega
    exact ⟨Nat.le_sub_one_of_lt (Nat.lt_of_succ_lt hx'), nofun, fun _ => hx'⟩
  case inr.inr =>
    have hx' : x.length = s.rom.fib.length - 1 := by omega
    exact ⟨hx'.le, fun _ => hx', nofun⟩

/-- Settles O38: a symbol that decodes is read the same strictly, and strict reads leave RUNOUT_LEFT alone. -/
theorem runoutNeverCompletesASymbol : Obligations.RunoutNeverCompletesASymbol := by
  intro s
  refine ⟨_, exec_decodeInstr .runout s, fun hok => ?_⟩
  have hsame := decodeSym_strict_of_ok (m := .runout) hok
  have hleft := onlyStrictReader_runoutLeft (decodeSym_onlyStrictReader s)
  rw [hsame] at hleft
  exact ⟨hleft, hsame ▸ exec_decodeInstr .strict s⟩

/-- Settles O39: a decoded value has a code in the table one term longer, so it lies in that table's domain. -/
theorem decodedValuesStayBelowTheTable : Obligations.DecodedValuesStayBelowTheTable := by
  intro m s v hrom h
  obtain ⟨hfib, hn, hn'⟩ := romOk_fib hrom
  obtain ⟨x, -, -, hcode⟩ := decodeSym_value hfib (by omega) h
  rw [fibRom_getD (by omega)]
  exact fibCode_lt_word (by omega) (by omega) hcode

/-- The string that a strict symbol used up is the code of its value in the table one term longer. -/
theorem fibCode_of_usedUp {s : State} {n v : Nat} {x rest : BitString} (hfib : s.rom.fib = fibRom n) (hn : 2 ≤ n)
    (hs : readerOk s) (hu : unread s = x ++ rest) (hv : (decodeSym .strict s).value = some v)
    (hused : (decodeSym .strict s).bitsUsed = x.length) : fibCode (fibRom (n + 1)) v = some x := by
  obtain ⟨y, hreads, hlen, hcode⟩ := decodeSym_value hfib hn hv
  obtain ⟨rfl, -⟩ := List.append_inj ((hreads.unread hs).symm.trans hu) (hlen.symm.trans hused)
  exact hcode

/-- Settles O40: both strings are the code of the one value. -/
theorem decodedStringsAreUnique : Obligations.DecodedStringsAreUnique := by
  intro s t x y r q v hrom hsame hs ht hux huy hvs hxs hvt hyt
  obtain ⟨hfib, hn, -⟩ := romOk_fib hrom
  have hx := fibCode_of_usedUp hfib (by omega) hs hux hvs hxs
  have hy := fibCode_of_usedUp (hsame ▸ hfib) (by omega) ht huy hvt hyt
  exact Option.some.inj (hx.symm.trans hy)

end Sys2Proof.Proofs
end

/-! # Proofs: the code table (42_codetable.md R180 to R191)

`assignFrom_spec` says what the construction answers. Here it is carried over to the ROMs: every entry of BACK stands at a
codepoint that has a code, an assigned entry's byte has that code in the forward arrays, and the assigned entries in order are
PRIORITY, which holds each byte once. The invariants of R185 follow from these three. -/
section
namespace Sys2Proof.Proofs

open Sys2Proof Sys2Proof.Machine

/-! ## The commands by their operations -/

theorem exec_tblForward (s : State) : exec .tblForward s =
    .next (finish .ok (setResults (BitVec.ofNat 32 (forwardWord s.rom (byteOperand s)).pattern)
      (BitVec.ofNat 32 (forwardWord s.rom (byteOperand s)).length) s)) := rfl

theorem exec_tblBackward_some {s : State} {b : Byte} (h : backwardByte s.rom s.arg0.toNat = some b) :
    exec .tblBackward s = .next (finish .ok (setRes0 (b.setWidth 32) s)) := by
  show execTblBackward s = _
  rw [execTblBackward, codepointOperand, h]

theorem exec_tblBackward_none {s : State} (h : backwardByte s.rom s.arg0.toNat = none) :
    exec .tblBackward s = .next (finish .invalid (setRes0 noValue s)) := by
  show execTblBackward s = _
  rw [execTblBackward, codepointOperand, h]

theorem byteOperand_toNat (s : State) : (byteOperand s).toNat = s.arg0.toNat % 256 :=
  BitVec.extractLsb'_toNat 0 8 s.arg0

/-! ## The backward map -/

theorem backwardByte_eq_some_iff {r : Rom} {c : Nat} {b : Byte} :
    backwardByte r c = some b ↔ r.back[c]? = some (some b) := by
  rw [backwardByte, List.getD_eq_getElem?_getD, Option.getD_eq_iff]
  simp

theorem backwardByte_eq_none_iff {r : Rom} {c : Nat} :
    backwardByte r c = none ↔ r.back[c]? = some none ∨ r.back.length ≤ c := by
  rw [backwardByte, List.getD_eq_getElem?_getD, Option.getD_eq_iff]
  simp

/-! ## The commands -/

/-- Settles O41: the word of the forward arrays at ARG0[7:0], each half widened to a register. -/
theorem tblForwardReadsTheForwardArrays : Obligations.TblForwardReadsTheForwardArrays := by
  intro s
  rw [exec_tblForward, forwardWord, byteOperand_toNat, BitVec.ofNat_toNat, BitVec.ofNat_toNat, BitVec.setWidth_eq]
  rfl

/-- Settles O42: INVALID and beyond the map are the two ways in which the backward map has no byte. -/
theorem tblBackwardReadsTheBackwardMap : Obligations.TblBackwardReadsTheBackwardMap := by
  intro s
  exact ⟨fun b h => exec_tblBackward_some (backwardByte_eq_some_iff.mpr h),
    fun h => exec_tblBackward_none (backwardByte_eq_none_iff.mpr h)⟩

/-! ## PRIORITY is a permutation of the byte values (00_scope.md R9 W3) -/

theorem mem_allBytes (b : Byte) : b ∈ allBytes :=
  List.mem_map.mpr ⟨b.toNat, List.mem_range.mpr b.isLt, by rw [BitVec.ofNat_toNat, BitVec.setWidth_eq]⟩

theorem allBytes_nodup : allBytes.Nodup := by
  refine List.nodup_range.map_on fun i hi j hj h => ?_
  have hmod := congrArg BitVec.toNat h
  rwa [BitVec.toNat_ofNat, BitVec.toNat_ofNat, Nat.mod_eq_of_lt (List.mem_range.mp hi),
    Nat.mod_eq_of_lt (List.mem_range.mp hj)] at hmod

theorem allBytes_length : allBytes.length = 256 := by
  rw [allBytes, List.length_map, List.length_range]

/-- 256 entries among which every byte value stands are the byte values in some order. -/
theorem priority_perm_of_w3 {cfg : Config} (h : cfg.w3 = true) : allBytes.Perm cfg.priority := by
  simp only [Config.w3, Bool.and_eq_true, beq_iff_eq, List.all_eq_true, List.contains_iff_mem] at h
  obtain ⟨hlen, hall⟩ := h
  exact (List.subperm_of_subset allBytes_nodup hall).perm_of_length_le (by rw [hlen, allBytes_length])

/-! ## The words of a construction -/

/-- Where no byte has two words, the word found for a byte is the one it was given. -/
theorem assignedWord_of_mem {a : Assigned} (hnodup : (a.words.map Prod.fst).Nodup) {b : Byte} {w : Codeword}
    (h : (b, w) ∈ a.words) : assignedWord a b = w := by
  have hfound : (a.words.find? (fun p => p.1 == b)).isSome := List.find?_isSome.mpr ⟨(b, w), h, beq_self_eq_true b⟩
  obtain ⟨p, hp⟩ := Option.isSome_iff_exists.mp hfound
  have hkey : p.1 = b := by simpa using List.find?_some hp
  have hpair : p = (b, w) := List.inj_on_of_nodup_map hnodup (List.mem_of_find?_eq_some hp) h hkey
  rw [assignedWord, hp, hpair]
  rfl

/-- A codeword of at most 32 bits keeps all of them in the forward arrays (10_state.md R43). -/
theorem codewordOf_fits {s : BitString} (h : s.length ≤ 32) :
    (⟨(codewordOf s).pattern % 2 ^ 32, (codewordOf s).length % 2 ^ 6⟩ : Codeword) = codewordOf s := by
  have hpattern : stringValue s < 2 ^ 32 := (stringValue_lt s).trans_le (Nat.pow_le_pow_right (by decide) h)
  rw [codewordOf, Nat.mod_eq_of_lt hpattern, Nat.mod_eq_of_lt (show s.length < 2 ^ 6 by omega)]

/-- Codes do not get shorter as their values grow (41_fibonacci.md R153). -/
theorem fibCode_length_mono {n v w : Nat} {s t : BitString} (hn : 4 ≤ n) (hs : fibCode (fibRom n) v = some s)
    (ht : fibCode (fibRom n) w = some t) (h : v ≤ w) : s.length ≤ t.length := by
  obtain ⟨-, -, -, -, -, hlow, -⟩ := fibCode_digits hn hs
  obtain ⟨-, -, -, -, -, -, hup⟩ := fibCode_digits hn ht
  by_contra hlt
  have := fibNext_mono (a := 0) (b := 1) (by omega) (show t.length + 1 ≤ s.length by omega)
  omega

theorem two_le_fibCode_length {n v : Nat} {s : BitString} (hn : 4 ≤ n) (h : fibCode (fibRom n) v = some s) :
    2 ≤ s.length := by
  obtain ⟨ds, rfl, hdigits, -⟩ := fibCode_digits hn h
  rw [List.length_append, List.length_singleton]
  exact Nat.succ_le_succ (codeDigits_length_pos hdigits)

/-! ## The ROMs of a well-formed configuration -/

/-- What ties the ROMs to each other and to the configuration (42_codetable.md R184): `R185` follows from these fields. -/
structure TableOf (cfg : Config) (r : Rom) : Prop where
  fib : r.fib = fibRom cfg.fibLen
  fibLen : 4 ≤ cfg.fibLen
  perm : allBytes.Perm cfg.priority
  assigned : r.back.filterMap id = cfg.priority
  entry : ∀ {c : Nat} {b : Byte}, backwardByte r c = some b →
    ∃ s, fibCode (fibRom cfg.fibLen) c = some s ∧ runLengthOk cfg s = true ∧ forwardWord r b = codewordOf s

theorem tableOf_romOf {cfg : Config} {r : Rom} (hwf : cfg.wellFormed = true) (hr : romOf cfg = some r) : TableOf cfg r := by
  obtain ⟨hw1, -, hw3, -⟩ := (wellFormed_iff cfg).mp hwf
  rw [Config.w1, Bool.and_eq_true, decide_eq_true_iff, decide_eq_true_iff] at hw1
  obtain ⟨hlo, hhi⟩ := hw1
  have hperm := priority_perm_of_w3 hw3
  obtain ⟨a, _, _, hbuild, -, -, hfib, hback, -, -, hforward⟩ := romOf_parts hr
  obtain ⟨hassigned, hwords, -, hentry⟩ := assignFrom_spec hbuild
  have hnodup : (a.words.map Prod.fst).Nodup := by
    rw [hwords, wordsOf_fst, hassigned]
    exact hperm.nodup allBytes_nodup
  refine ⟨hfib, hlo, hperm, hback ▸ hassigned, fun {c b} h => ?entry⟩
  case entry =>
    rw [backwardByte_eq_some_iff, hback] at h
    obtain ⟨s, hs, hrl⟩ := hentry c (some b) h
    have hword := wordsOf_mem (fib := fibRom cfg.fibLen) (c := 0) h
    rw [Nat.zero_add] at hs hword
    rw [hs, Option.getD_some, ← hwords] at hword
    have hshort := assigned_short hlo hhi hbuild (by rw [← hperm.length_eq, allBytes_length]) h hs
    refine ⟨s, hs, hrl.symm, ?_⟩
    rw [hforward, assignedWord_of_mem hnodup hword, codewordOf_fits (by omega)]

section
variable {cfg : Config} {r : Rom}

theorem TableOf.nodup (h : TableOf cfg r) : cfg.priority.Nodup :=
  h.perm.nodup allBytes_nodup

/-- Every byte value is assigned to a codepoint, whose code is the byte's codeword. -/
theorem TableOf.codepoint (h : TableOf cfg r) (b : Byte) : ∃ c s, backwardByte r c = some b ∧
    fibCode (fibRom cfg.fibLen) c = some s ∧ runLengthOk cfg s = true ∧ forwardWord r b = codewordOf s := by
  have hmem : b ∈ r.back.filterMap id := h.assigned ▸ h.perm.mem_iff.mp (mem_allBytes b)
  obtain ⟨o, ho, rfl⟩ := List.mem_filterMap.mp hmem
  obtain ⟨c, hc⟩ := List.getElem?_of_mem ho
  obtain ⟨s, hs⟩ := h.entry (backwardByte_eq_some_iff.mpr hc)
  exact ⟨c, s, backwardByte_eq_some_iff.mpr hc, hs⟩

/-- (i) of 42_codetable.md R185: the codeword is the code of the byte's codepoint, and a code is read back. -/
theorem TableOf.forward_backward (h : TableOf cfg r) {b : Byte} {s : State} {rest : BitString} (hrom : s.rom = r)
    (hs : readerOk s) (hu : unread s = codewordBits (forwardWord r b) ++ rest) :
    ∃ c, (decodeSym .strict s).value = some c ∧ backwardByte r c = some b := by
  obtain ⟨c, str, hback, hcode, -, hword⟩ := h.codepoint b
  rw [hword, codewordBits_codewordOf] at hu
  obtain ⟨t, hreads, -⟩ := reads_of_unread hs hu
  have hfib : s.rom.fib = fibRom cfg.fibLen := hrom ▸ h.fib
  have hdecode := decodeSym_of_code hfib h.fibLen (hfib ▸ hcode) hreads
  exact ⟨c, by rw [hdecode], hback⟩

/-- (ii) of 42_codetable.md R185. -/
theorem TableOf.backward_forward (h : TableOf cfg r) {c : Nat} {b : Byte} (hb : backwardByte r c = some b) :
    fibCode r.fib c = some (codewordBits (forwardWord r b)) := by
  obtain ⟨s, hcode, -, hword⟩ := h.entry hb
  rw [h.fib, hcode, hword, codewordBits_codewordOf]

/-- (v) of 42_codetable.md R185: as many entries are assigned as PRIORITY has ranks. -/
theorem TableOf.assigned_count (h : TableOf cfg r) : (r.back.filter Option.isSome).length = 256 := by
  rw [← List.reduceOption_length_eq, List.reduceOption, h.assigned, ← h.perm.length_eq, allBytes_length]

/-- (v) of 42_codetable.md R185: PRIORITY holds each byte value once. -/
theorem TableOf.byte_count (h : TableOf cfg r) (b : Byte) : (r.back.filter (· = some b)).length = 1 := by
  have hcount : (r.back.filterMap id).count b = 1 := by
    rw [h.assigned]
    exact List.count_eq_one_of_mem h.nodup (h.perm.mem_iff.mp (mem_allBytes b))
  rw [List.count_filterMap, List.countP_eq_length_filter] at hcount
  simpa only [id, beq_eq_decide] using hcount

/-- (vi) of 42_codetable.md R185: later ranks stand at larger codepoints, whose codes are no shorter. -/
theorem TableOf.priority_monotone (h : TableOf cfg r) :
    cfg.priority.Pairwise fun b c => (forwardWord r b).length ≤ (forwardWord r c).length := by
  rw [← h.assigned, List.pairwise_filterMap, List.pairwise_iff_getElem]
  intro j k hj hk hlt b hb c hc
  obtain ⟨s, hs, -, hbs⟩ := h.entry (backwardByte_eq_some_iff.mpr (List.getElem?_eq_some_iff.mpr ⟨hj, hb⟩))
  obtain ⟨t, ht, -, hct⟩ := h.entry (backwardByte_eq_some_iff.mpr (List.getElem?_eq_some_iff.mpr ⟨hk, hc⟩))
  rw [hbs, hct, codewordOf_length, codewordOf_length]
  exact fibCode_length_mono h.fibLen hs ht hlt.le

end

/-! ## The statements -/

/-- Settles O43: the invariants of R185 one by one, from `TableOf`. -/
theorem codeTableInvariants : Obligations.CodeTableInvariants := by
  intro cfg r hwf hr
  have h := tableOf_romOf hwf hr
  refine ⟨fun b s rest => h.forward_backward, fun c b => h.backward_forward, fun b => ?length, fun b => ?runs,
    h.assigned_count, h.byte_count, fun j k b c hb hc hjk => ?monotone⟩
  case length =>
    obtain ⟨_, s, -, hcode, -, hword⟩ := h.codepoint b
    rw [hword]
    exact two_le_fibCode_length h.fibLen hcode
  case runs =>
    obtain ⟨_, s, -, -, hrl, hword⟩ := h.codepoint b
    rwa [hword, codewordBits_codewordOf]
  case monotone =>
    obtain ⟨hj, rfl⟩ := List.getElem?_eq_some_iff.mp hb
    obtain ⟨hk, rfl⟩ := List.getElem?_eq_some_iff.mp hc
    exact h.priority_monotone.rel_get_of_le (a := ⟨j, hj⟩) (b := ⟨k, hk⟩) hjk

/-! ## The figures at REFCFG (42_codetable.md R187) -/

theorem refBack_length : refRom.back.length = 421 := by decide +kernel

/-- 42_codetable.md R185 (v) at REFCFG. -/
theorem refBack_assigned : (refRom.back.filter Option.isSome).length = 256 :=
  (tableOf_romOf refCfg_wellFormed romOf_refCfg).assigned_count

/-- The entries that are not assigned. -/
theorem refBack_invalid : (refRom.back.filter Option.isNone).length = 165 := by
  have hsplit := List.length_eq_reduceOption_length_add_filter_none (l := refRom.back)
  rw [List.reduceOption_length_eq, refBack_length, refBack_assigned] at hsplit
  omega

/-- Settles O44: 165 is what 256 assigned entries leave of 421; the candidates and the table of lengths are evaluated. -/
theorem referenceTableFigures : Obligations.ReferenceTableFigures := by
  refine ⟨?valid, ?last, refBack_length, refBack_assigned, refBack_invalid, ?lengths⟩
  case valid => decide +kernel
  case last => decide +kernel
  case lengths => decide +kernel

end Sys2Proof.Proofs
end

/-! # Proofs: the rounds of the frame decoder (43_framing.md R221 to R229)

With the internal registers written out, each operation of the decoder is one change of the state. A LeadIn round is its bit and
the window's verdict; an InMessage round is its symbol, its pad bit and what the symbol is classified as, and a symbol that ends
the message does so with either pad. -/
section
namespace Sys2Proof.Proofs

open Sys2Proof Sys2Proof.Machine

/-! ## The operations, with the internal registers written out -/

section
variable {s : State} {f : FrameRegs}

theorem frameRegs_of_frame (hf : s.frame = some f) : frameRegs s = f := by
  rw [frameRegs, hf, Option.getD_some]

theorem failFrame_of_frame (hf : s.frame = some f) (r : EndReason) :
    failFrame r s = { s with frame := some { f with reason := r, fstate := .error } } := by
  rw [failFrame, frameRegs_of_frame hf]
  rfl

theorem shiftWindow_of_frame (hf : s.frame = some f) (b : Bool) :
    shiftWindow b s = { s with frame := some { f with
      leadn := f.leadn + 1, win := (2 * f.win + b.toNat) % 2 ^ s.cfg.windowBits } } := by
  rw [shiftWindow, frameRegs_of_frame hf]
  rfl

theorem windowMatches_iff (hf : s.frame = some f) :
    windowMatches s = true ↔ f.win % 2 ^ (s.rom.head.length + 1) = 2 * s.rom.head.pattern := by
  rw [windowMatches, frameRegs_of_frame hf, beq_iff_eq]

theorem budgetSpent_iff (hf : s.frame = some f) :
    budgetSpent s = true ↔ s.leadinLimit ≠ 0 ∧ s.leadinLimit.toNat ≤ f.leadn.toNat := by
  rw [budgetSpent, frameRegs_of_frame hf, Bool.and_eq_true, bne_iff_ne, decide_eq_true_iff]

end

/-! ## LeadIn -/

theorem leadInRound_none {s : State} (h : getBitTry s = none) : leadInRound s = (false, failFrame .noheader s) := by
  rw [leadInRound, h]

theorem leadInRound_some {s v : State} {b : Bool} (h : getBitTry s = some (b, v)) : leadInRound s =
    if windowMatches (shiftWindow b v) then
      (false, setFrame { frameRegs (shiftWindow b v) with sawHeader := true, fstate := .inMessage } (shiftWindow b v))
    else if budgetSpent (shiftWindow b v) then (false, failFrame .deadline (shiftWindow b v))
    else (true, shiftWindow b v) := by
  rw [leadInRound, h]

/-- Settles O56: a strict bit keeps the internal registers, the configuration and the limit, so the window, the match and the
budget are those of the state the round finds. -/
theorem leadInRoundFollowsTheRules : Obligations.LeadInRoundFollowsTheRules := by
  intro s f hf
  refine ⟨fun hnone => by rw [leadInRound_none hnone, failFrame_of_frame hf], fun b v g hbit hg => ?bit⟩
  case bit =>
    have hkeep := getBitTry_plainProgress hbit
    obtain ⟨hcfg, hrom, -⟩ := hkeep.launch
    have hshift : shiftWindow b v = { v with frame := some g } := by
      rw [shiftWindow_of_frame (hkeep.frame.trans hf), hg, hcfg]
    have hmatch := windowMatches_iff (s := { v with frame := some g }) rfl
    have hspent := budgetSpent_iff (s := { v with frame := some g }) rfl
    rw [leadInRound_some hbit, hshift, ← hrom, ← hkeep.leadinLimit]
    refine ⟨fun hm => ?header, fun hm => ⟨fun hb => ?deadline, fun hb => ?goOn⟩⟩
    case header =>
      rw [if_pos (hmatch.mpr hm)]
      rfl
    case deadline =>
      rw [if_neg (mt hmatch.mp hm), if_pos (hspent.mpr hb)]
      rfl
    case goOn =>
      have hopen : ¬ budgetSpent { v with frame := some g } = true := fun h => by
        obtain ⟨hne, hle⟩ := hspent.mp h
        exact hb.elim hne fun hlt => absurd hlt (Nat.not_lt.mpr hle)
      rw [if_neg (mt hmatch.mp hm), if_neg hopen]

/-! ## Classify (43_framing.md R225) -/

section
variable {s : State} {f : FrameRegs} {c : Nat} (hf : s.frame = some f)
include hf

theorem classify_header_first (hc : c = s.cfg.frameHead) (h0 : f.emitted = 0) : classify c s = (false, s) := by
  rw [classify, if_pos hc, frameRegs_of_frame hf, if_neg (not_not.mpr h0)]

theorem classify_header_again (hc : c = s.cfg.frameHead) (h0 : f.emitted ≠ 0) : classify c s =
    (true, { s with frame := some { f with runOn := true, reason := .runon, fstate := .error } }) := by
  rw [classify, if_pos hc, frameRegs_of_frame hf, if_pos h0]
  rfl

theorem classify_footer (hc : c ≠ s.cfg.frameHead) (hc' : c = s.cfg.frameFoot) : classify c s =
    (true, { s with frame := some { f with sawFooter := true, reason := .footer, fstate := .footer } }) := by
  rw [classify, if_neg hc, if_pos hc', frameRegs_of_frame hf]
  rfl

theorem classify_byte (hc : c ≠ s.cfg.frameHead) (hc' : c ≠ s.cfg.frameFoot) {b : Byte} (hb : backwardByte s.rom c = some b) :
    classify c s = (false, { s with
      out := s.out ++ [b], outCount := s.outCount + 1, frame := some { f with emitted := f.emitted + 1 } }) := by
  rw [classify, if_neg hc, if_neg hc', hb, frameRegs_of_frame hf]
  rfl

theorem classify_invalid (hc : c ≠ s.cfg.frameHead) (hc' : c ≠ s.cfg.frameFoot) (hb : backwardByte s.rom c = none) :
    classify c s = (false, { s with frame := some { f with clean := false } }) := by
  rw [classify, if_neg hc, if_neg hc', hb, frameRegs_of_frame hf]
  rfl

/-! ## The pad bit (43_framing.md R226) -/

theorem padDamage_stopped (pad : Option Bool) : padDamage pad true s = { s with frame := some { f with clean := false } } := by
  rw [padDamage, frameRegs_of_frame hf]
  rfl

theorem padDamage_open (pad : Option Bool) : padDamage pad false s = { s with frame := some { f with
    clean := false, reason := if pad = some true then .pad else .exhausted, fstate := .error } } := by
  rw [padDamage, frameRegs_of_frame hf]
  rfl

end

theorem readPad_eq {y v : State} {pad : Option Bool} (hpad : getBitTry y = pad.map (fun b => (b, v)))
    (hnone : pad = none → v = y) : readPad y = (pad, v) := by
  cases pad with
  | none =>
    obtain rfl := hnone rfl
    rw [readPad, hpad, Option.map_none]
  | some b => rw [readPad, hpad, Option.map_some]

/-! ## InMessage -/

theorem messageRound_failed {s : State} (h : (decodeSym .strict s).value = none) : messageRound s =
    (false, failFrame (symbolReason (decodeSym .strict s).code) (decodeSym .strict s).after) := by
  simp only [messageRound, h]

section
variable {s v w : State} {c : Nat} {pad : Option Bool} {g : FrameRegs} (hc : (decodeSym .strict s).value = some c)
  (hpad : readPad (decodeSym .strict s).after = (pad, v))
include hc hpad

theorem messageRound_some : messageRound s =
    if pad = some false then (! (classify c v).1, (classify c v).2)
    else (false, padDamage pad (classify c v).1 (classify c v).2) := by
  simp only [messageRound, hc, paddedSymbol, hpad]

/-- Behind a symbol that ends the message, a pad bit other than 0 only clears C. -/
theorem messageRound_stopped (hk : classify c v = (true, w)) (hg : w.frame = some g) : messageRound s =
    (false, { w with frame := some { g with clean := g.clean && pad == some false } }) := by
  rw [messageRound_some hc hpad, hk]
  by_cases hp : pad = some false
  · rw [if_pos hp, beq_iff_eq.mpr hp, Bool.and_true, ← hg]
    rfl
  · rw [if_neg hp, padDamage_stopped hg, beq_eq_false_iff_ne.mpr hp, Bool.and_false]

/-- Behind any other symbol a pad bit of 0 lets the message go on, and the want of one ends it. -/
theorem messageRound_open (hk : classify c v = (false, w)) (hg : w.frame = some g) :
    (pad = some false → messageRound s = (true, w)) ∧
    (pad ≠ some false → messageRound s = (false, { w with frame := some { g with
      clean := false, reason := if pad = some true then .pad else .exhausted, fstate := .error } })) := by
  rw [messageRound_some hc hpad, hk]
  refine ⟨fun hp => ?_, fun hp => ?_⟩
  · rw [if_pos hp]
    rfl
  · rw [if_neg hp, padDamage_open hg]

end

/-- A symbol that fails to decode fails for the want of a bit or of a terminator. -/
theorem symbolReason_eq (c : Code) : symbolReason c = if c = .overrun then .overrun else .exhausted := by
  cases c <;> rfl

/-- Settles O57: the symbol and its pad bit keep the internal registers, and each class of symbol is one equation of
`classify`. -/
theorem messageRoundFollowsTheRules : Obligations.MessageRoundFollowsTheRules := by
  intro s f hf
  have hsym := decodeSym_plainProgress .strict s
  refine ⟨fun hnone => ?failed, fun c pad v bad hc hget hnone hbad => ?symbol⟩
  case failed => rw [messageRound_failed hnone, failFrame_of_frame (hsym.frame.trans hf), symbolReason_eq]
  case symbol =>
    have hpad := readPad_eq hget hnone
    have hkeep : PlainProgress s v := by
      cases pad with
      | none => exact hnone rfl ▸ hsym
      | some b => exact hsym.trans (getBitTry_plainProgress hget)
    have hv := hkeep.frame.trans hf
    obtain ⟨hcfg, hrom, -⟩ := hkeep.launch
    rw [hbad, ← hcfg, ← hrom]
    refine ⟨?first, ?again, ?footer, fun b => ?byte, ?invalid⟩
    case first =>
      rintro ⟨hhead, h0⟩
      exact messageRound_open hc hpad (classify_header_first hv hhead h0) hv
    case again =>
      rintro ⟨hhead, h0⟩
      exact messageRound_stopped hc hpad (classify_header_again hv hhead h0) rfl
    case footer =>
      rintro ⟨hhead, hfoot⟩
      exact messageRound_stopped hc hpad (classify_footer hv hhead hfoot) rfl
    case byte =>
      rintro ⟨hhead, hfoot, hb⟩
      exact messageRound_open hc hpad (classify_byte hv hhead hfoot (backwardByte_eq_some_iff.mpr hb)) rfl
    case invalid =>
      rintro ⟨hhead, hfoot, hb⟩
      exact messageRound_open (g := { f with clean := false }) hc hpad
        (classify_invalid hv hhead hfoot (backwardByte_eq_none_iff.mpr hb)) rfl

end Sys2Proof.Proofs
end

/-! # Proofs: the run of a frame decode (43_framing.md R220, R227 to R233, R239)

`Decodes s t f` is the relation between the state that FRM_DECODE finds and every state on its way, with the internal registers
`f`: the bits read are the first of IN, the bytes emitted are counted. `Ending` lists the flags and the reason a decode can end
with. `decodePhases_ends` says that every decode comes to one of these, and the statements follow from it. -/
section
namespace Sys2Proof.Proofs

open Sys2Proof Sys2Proof.Machine

/-! ## Bytes appended and bits taken -/

/-- OUT has grown, and OUT_COUNT with it. -/
def Appends (s t : State) : Prop :=
  s.out <+: t.out ∧ t.outCount = s.outCount + BitVec.ofNat 32 (t.out.length - s.out.length)

/-- A sound reader has taken the bits `x` from the front of IN. -/
def Takes (s t : State) : Prop :=
  readerOk s → readerOk t ∧ ∃ x, unread s = x ++ unread t ∧ t.bitsRead = s.bitsRead + BitVec.ofNat 32 x.length

theorem Appends.of_eq {s t : State} (hout : t.out = s.out) (hcount : t.outCount = s.outCount) : Appends s t := by
  rw [Appends, hout, hcount, Nat.sub_self]
  exact ⟨List.prefix_rfl, (BitVec.add_zero _).symm⟩

theorem Appends.trans {s t u : State} (h : Appends s t) (k : Appends t u) : Appends s u := by
  obtain ⟨hout, hcount⟩ := h
  obtain ⟨kout, kcount⟩ := k
  refine ⟨hout.trans kout, ?_⟩
  rw [kcount, hcount, add_assoc, ← BitVec.ofNat_add]
  have := hout.length_le
  have := kout.length_le
  congr 2
  omega

theorem outAppend_appends (b : Byte) (s : State) : Appends s (outAppend b s) :=
  ⟨List.prefix_append _ _, by simp⟩

theorem Takes.refl (s : State) : Takes s s :=
  fun hs => ⟨hs, [], rfl, (BitVec.add_zero _).symm⟩

theorem Takes.trans {s t u : State} (h : Takes s t) (k : Takes t u) : Takes s u := by
  intro hs
  obtain ⟨ht, x, hx, hcount⟩ := h hs
  obtain ⟨hu, y, hy, hcount'⟩ := k ht
  refine ⟨hu, x ++ y, by rw [hx, hy, List.append_assoc], ?_⟩
  rw [hcount', hcount, List.length_append, BitVec.ofNat_add, add_assoc]

theorem Reads.takes {s t : State} {x : BitString} (h : Reads .strict s x t) (hok : readerOk s → readerOk t) : Takes s t :=
  fun hs => ⟨hok hs, x, h.unread hs, h.bitsRead⟩

theorem getBitTry_takes {s t : State} {b : Bool} (h : getBitTry s = some (b, t)) : Takes s t :=
  (Reads.single (m := .strict) h).takes (getBitTry_readerOk h)

theorem decodeSym_takes (s : State) : Takes s (decodeSym .strict s).after := by
  obtain ⟨x, hreads, -⟩ := decodeSym_reads .strict s
  exact hreads.takes (decodeSym_plainProgress .strict s).reader

/-- Nothing is left to read. -/
def Drained (s : State) : Prop :=
  readerOk s → unread s = []

theorem drained_of_getBitTry_none {s : State} (h : getBitTry s = none) : Drained s := by
  intro hs
  cases hu : unread s with
  | nil => rfl
  | cons b rest =>
    obtain ⟨t, ht, -⟩ := getBitTry_cons hs hu
    cases h.symm.trans ht

/-- A strict symbol that fails for the want of a bit leaves no bit to read. -/
theorem decodeTerms_exhausted (terms : List Nat) (acc : Nat) (prev : Bool) (k : Nat) (s : State)
    (h : (decodeTerms .strict terms acc prev k s).code = .exhausted) :
    getBitTry (decodeTerms .strict terms acc prev k s).after = none := by
  induction terms generalizing acc prev k s with
  | nil =>
    unfold decodeTerms at h ⊢
    split at h
    · next hnone => exact hnone
    · split at h <;> cases h
  | cons f terms ih =>
    unfold decodeTerms at h ⊢
    split at h
    · next hnone => exact hnone
    · split at h
      · cases h
      · next hpair =>
        simp only [hpair]
        exact ih _ _ _ _ h

theorem decodeSym_drained {s : State} (h : (decodeSym .strict s).code = .exhausted) : Drained (decodeSym .strict s).after :=
  drained_of_getBitTry_none (decodeTerms_exhausted _ _ _ _ _ h)

theorem decodeSym_failed {m : ReadMode} {s : State} (h : (decodeSym m s).value = none) :
    (decodeSym m s).code = .exhausted ∨ (decodeSym m s).code = .overrun := by
  obtain ⟨hsome, -⟩ | ⟨-, hcode⟩ := decodeTerms_code m (s.rom.fib.drop 2) 0 false 0 s
  · exact absurd h (Option.ne_none_iff_isSome.mpr hsome)
  · exact hcode

/-- What reading a pad bit does: it is a strict read, and where there is none nothing is left. -/
theorem readPad_reads {s v : State} {pad : Option Bool} (h : readPad s = (pad, v)) :
    onlyStrictReader s v ∧ Takes s v ∧ (pad = none → Drained v) := by
  unfold readPad at h
  split at h
  · next hnone =>
    cases h
    exact ⟨onlyStrictReader_refl s, Takes.refl s, fun _ => drained_of_getBitTry_none hnone⟩
  · next r hr =>
    cases h
    exact ⟨getBitTry_onlyStrictReader hr, getBitTry_takes hr, fun h => by cases h⟩

/-! ## On the way of a decode -/

/-- `t` with the internal registers `f` is a state on the way of a frame decode of `s`. -/
structure Decodes (s t : State) (f : FrameRegs) : Prop where
  frame : t.frame = some f
  start : f.startBits = s.bitsRead
  only : onlyDecoder s t
  appends : Appends s t
  emitted : f.emitted = BitVec.ofNat 32 (t.out.length - s.out.length)
  takes : Takes s t

section
variable {s t u : State} {f g : FrameRegs}

theorem Decodes.read (h : Decodes s t f) (hread : onlyStrictReader t u) (htake : Takes t u) : Decodes s u f where
  frame := by rw [hread]; exact h.frame
  start := h.start
  only := onlyDecoder_trans h.only (onlyDecoder_of_strict hread)
  appends := h.appends.trans (.of_eq (by rw [hread]) (by rw [hread]))
  emitted := by rw [h.emitted, hread]
  takes := h.takes.trans htake

/-- A change of the other internal registers. -/
theorem Decodes.regs (h : Decodes s t f) (hstart : g.startBits = f.startBits) (hemitted : g.emitted = f.emitted) :
    Decodes s { t with frame := some g } g where
  frame := rfl
  start := hstart.trans h.start
  only := onlyDecoder_trans h.only rfl
  appends := h.appends
  emitted := hemitted.trans h.emitted
  takes := h.takes

/-- A byte emitted and counted. -/
theorem Decodes.emit (h : Decodes s t f) (b : Byte) : Decodes s { t with
    out := t.out ++ [b], outCount := t.outCount + 1, frame := some { f with emitted := f.emitted + 1 } }
    { f with emitted := f.emitted + 1 } where
  frame := rfl
  start := h.start
  only := onlyDecoder_trans h.only rfl
  appends := h.appends.trans (outAppend_appends b t)
  emitted := by
    have hlen := h.appends.1.length_le
    show f.emitted + 1 = BitVec.ofNat 32 ((t.out ++ [b]).length - s.out.length)
    rw [h.emitted, List.length_append, List.length_singleton, Nat.sub_add_comm hlen, BitVec.ofNat_add]
    rfl
  takes := h.takes

theorem Decodes.launch (h : Decodes s t f) : t.cfg = s.cfg ∧ t.rom = s.rom ∧ t.leadinLimit = s.leadinLimit := by
  rw [h.only]
  exact ⟨rfl, rfl, rfl⟩

end

/-- The flags H, F, R and C and the end reason, as the internal registers hold them. -/
def flags (f : FrameRegs) : Bool × Bool × Bool × Bool × EndReason :=
  (f.sawHeader, f.sawFooter, f.runOn, f.clean, f.reason)

theorem flags_iff {f : FrameRegs} {h t r c : Bool} {e : EndReason} : flags f = (h, t, r, c, e) ↔
    f.sawHeader = h ∧ f.sawFooter = t ∧ f.runOn = r ∧ f.clean = c ∧ f.reason = e := by
  simp only [flags, Prod.mk.injEq]

section
variable {f : FrameRegs} {h t r c : Bool} {e : EndReason} (hf : flags f = (h, t, r, c, e)) (st : FState)
include hf

theorem flags_fail (e' : EndReason) : flags { f with reason := e', fstate := st } = (h, t, r, c, e') := by
  cases hf
  rfl

theorem flags_header : flags { f with sawHeader := true, fstate := st } = (true, t, r, c, e) := by
  cases hf
  rfl

theorem flags_footer (c' : Bool) (e' : EndReason) :
    flags { f with sawFooter := true, reason := e', fstate := st, clean := c' } = (h, true, r, c', e') := by
  cases hf
  rfl

theorem flags_runOn (c' : Bool) (e' : EndReason) :
    flags { f with runOn := true, reason := e', fstate := st, clean := c' } = (h, t, true, c', e') := by
  cases hf
  rfl

theorem flags_clean (c' : Bool) : flags { f with clean := c' } = (h, t, r, c', e) := by
  cases hf
  rfl

end

/-- A state of the scan (43_framing.md R221, R223): no flag is touched, and LEADN has moved with BITS_READ, up to the
budget. -/
structure Scanned (s t : State) (f : FrameRegs) : Prop extends Decodes s t f where
  untouched : flags f = (false, false, false, true, .unset)
  out : t.out = s.out
  leadn : t.bitsRead - s.bitsRead = f.leadn
  budget : s.leadinLimit ≠ 0 → f.leadn.toNat ≤ s.leadinLimit.toNat

/-- A scan that goes on: the budget is not used up. -/
def Scans (s t : State) : Prop :=
  ∃ f, Scanned s t f ∧ (s.leadinLimit ≠ 0 → f.leadn.toNat < s.leadinLimit.toNat)

/-- A message that goes on (43_framing.md R224): the header is all it has met. -/
def Receives (f : FrameRegs) : Prop :=
  flags f = (true, false, false, f.clean, .unset)

theorem receives_of_flags {f : FrameRegs} {c : Bool} (h : flags f = (true, false, false, c, .unset)) : Receives f := by
  obtain ⟨-, -, -, hclean, -⟩ := flags_iff.mp h
  rw [Receives, hclean, h]

/-- How a frame decode can end (43_framing.md R233). -/
inductive Ending (s t : State) (f : FrameRegs) : Prop
  | noHeader (hflags : flags f = (false, false, false, true, .noheader)) (hout : t.out = s.out) (hend : Drained t)
      (hbudget : s.leadinLimit ≠ 0 → (t.bitsRead - s.bitsRead).toNat < s.leadinLimit.toNat)
  | deadline (hflags : flags f = (false, false, false, true, .deadline)) (hout : t.out = s.out)
      (hbudget : s.leadinLimit ≠ 0 → (t.bitsRead - s.bitsRead).toNat = s.leadinLimit.toNat)
  | footer (hflags : flags f = (true, true, false, f.clean, .footer))
  | runOn (hflags : flags f = (true, false, true, f.clean, .runon))
  | damaged {r : EndReason} (hflags : flags f = (true, false, false, f.clean, r))
      (hreason : r = .overrun ∨ (r = .pad ∧ f.clean = false) ∨ (r = .exhausted ∧ Drained t))

/-! ## The rounds on the way -/

/-- A loop whose rounds keep `P` while they go on and come to `Q` where they end, ends in `Q`. -/
theorem loopUntil_ends_in {body : State → Bool × State} {P Q : State → Prop}
    (hround : ∀ s, P s → ((body s).1 = true ∧ P (body s).2) ∨ ((body s).1 = false ∧ Q (body s).2))
    {n : Nat} {s t : State} (hs : P s) (h : loopUntil body n s = some t) : Q t := by
  have hkeep : ∀ s, P s → (body s).1 = true → P (body s).2 := fun s hP hmore => by
    obtain ⟨-, hP'⟩ | ⟨hstop, -⟩ := hround s hP
    · exact hP'
    · cases hstop.symm.trans hmore
  obtain ⟨u, hP, hlast⟩ := loopUntil_last hkeep n s t hs h
  obtain ⟨hmore, -⟩ | ⟨-, hQ⟩ := hround u hP
  · rw [hlast] at hmore
    cases hmore
  · rwa [hlast] at hQ

/-- A bit shifted into the window. -/
theorem Scanned.shift {s t v : State} {f g : FrameRegs} {b : Bool} (h : Scanned s t f)
    (hopen : s.leadinLimit ≠ 0 → f.leadn.toNat < s.leadinLimit.toNat) (hbit : getBitTry t = some (b, v))
    (hg : g = { f with leadn := f.leadn + 1, win := (2 * f.win + b.toNat) % 2 ^ t.cfg.windowBits }) :
    Scanned s { v with frame := some g } g where
  toDecodes := (h.read (getBitTry_onlyStrictReader hbit) (getBitTry_takes hbit)).regs (by rw [hg]) (by rw [hg])
  untouched := by rw [hg]; exact h.untouched
  out := by rw [← h.out, getBitTry_onlyStrictReader hbit]
  leadn := by
    show v.bitsRead - s.bitsRead = g.leadn
    rw [getBitTry_bitsRead hbit, hg, ← h.leadn]
    bv_omega
  budget hne := by
    have hlt := hopen hne
    have hnext : g.leadn = f.leadn + 1 := by rw [hg]
    rw [hnext]
    bv_omega

/-- What a LeadIn round that ends the scan comes to: the end of the decode, or the header. -/
def ScanEnds (s t : State) : Prop :=
  ∃ f, Decodes s t f ∧ ((f.fstate ≠ .inMessage ∧ Ending s t f) ∨ (f.fstate = .inMessage ∧ Receives f))

theorem leadInRound_scans {s t : State} (h : Scans s t) :
    ((leadInRound t).1 = true ∧ Scans s (leadInRound t).2) ∨ ((leadInRound t).1 = false ∧ ScanEnds s (leadInRound t).2) := by
  obtain ⟨f, hscan, hopen⟩ := h
  obtain ⟨-, -, hlimit⟩ := hscan.launch
  obtain ⟨hnone, hsome⟩ := leadInRoundFollowsTheRules t f hscan.frame
  cases hbit : getBitTry t with
  | none =>
    rw [hnone hbit]
    have hend : Drained t := drained_of_getBitTry_none hbit
    refine .inr ⟨rfl, _, hscan.toDecodes.regs rfl rfl, .inl ⟨by simp, .noHeader ?flags hscan.out hend ?budget⟩⟩
    case flags => exact flags_fail hscan.untouched _ _
    case budget => exact fun hne => hscan.leadn ▸ hopen hne
  | some r =>
    obtain ⟨b, v⟩ := r
    obtain ⟨hmatch, hgo⟩ := hsome b v _ hbit rfl
    have hshift := hscan.shift hopen hbit rfl
    generalize hg : { f with leadn := f.leadn + 1, win := (2 * f.win + b.toNat) % 2 ^ t.cfg.windowBits } = g at *
    by_cases hm : g.win % 2 ^ (t.rom.head.length + 1) = 2 * t.rom.head.pattern
    case pos =>
      rw [hmatch hm]
      have hreceives := receives_of_flags (flags_header hshift.untouched .inMessage)
      exact .inr ⟨rfl, _, hshift.toDecodes.regs rfl rfl, .inr ⟨rfl, hreceives⟩⟩
    case neg =>
      obtain ⟨hspent, hleft⟩ := hgo hm
      by_cases hb : t.leadinLimit ≠ 0 ∧ t.leadinLimit.toNat ≤ g.leadn.toNat
      case pos =>
        rw [hspent hb]
        refine .inr ⟨rfl, _, hshift.toDecodes.regs rfl rfl, .inl ⟨by simp, .deadline ?flags hshift.out ?budget⟩⟩
        case flags => exact flags_fail hshift.untouched _ _
        case budget =>
          intro hne
          rw [hlimit] at hb
          rw [show _ = g.leadn from hshift.leadn]
          exact le_antisymm (hshift.budget hne) hb.2
      case neg =>
        have hlt : t.leadinLimit = 0 ∨ g.leadn.toNat < t.leadinLimit.toNat :=
          (not_and_or.mp hb).imp not_not.mp Nat.lt_of_not_le
        rw [hleft hlt]
        exact .inl ⟨rfl, g, hshift, (hlimit ▸ hlt).resolve_left⟩

/-- Classifying a symbol of a message: the message goes on, or has met its footer or a second header. -/
theorem classify_receives {s v : State} {f : FrameRegs} (h : Decodes s v f) (hf : Receives f) (c : Nat) :
    ∃ stop w g, classify c v = (stop, w) ∧ Decodes s w g ∧ (Drained v → Drained w) ∧
      ((stop = false ∧ Receives g) ∨
        (stop = true ∧ ∀ C, flags { g with clean := C } = (true, true, false, C, .footer)) ∨
        (stop = true ∧ ∀ C, flags { g with clean := C } = (true, false, true, C, .runon))) := by
  have hv := h.frame
  by_cases hhead : c = v.cfg.frameHead
  · by_cases h0 : f.emitted = 0
    · exact ⟨_, _, _, classify_header_first hv hhead h0, h, id, .inl ⟨rfl, hf⟩⟩
    · refine ⟨_, _, _, classify_header_again hv hhead h0, h.regs rfl rfl, id, .inr (.inr ⟨rfl, fun C => flags_runOn hf _ C _⟩)⟩
  · by_cases hfoot : c = v.cfg.frameFoot
    · refine ⟨_, _, _, classify_footer hv hhead hfoot, h.regs rfl rfl, id, .inr (.inl ⟨rfl, fun C => flags_footer hf _ C _⟩)⟩
    · cases hb : backwardByte v.rom c with
      | some b => exact ⟨_, _, _, classify_byte hv hhead hfoot hb, h.emit b, id, .inl ⟨rfl, hf⟩⟩
      | none =>
        refine ⟨_, _, _, classify_invalid hv hhead hfoot hb, h.regs rfl rfl, id, .inl ⟨rfl, flags_clean hf false⟩⟩

/-- A message that goes on, on the way of a decode. -/
def MessageGoesOn (s t : State) : Prop :=
  ∃ f, Decodes s t f ∧ Receives f

/-- The state in which the phases of a decode end. -/
def PhasesEnd (s t : State) : Prop :=
  ∃ f, Decodes s t f ∧ Ending s t f

theorem messageRound_receives {s t : State} (h : MessageGoesOn s t) :
    ((messageRound t).1 = true ∧ MessageGoesOn s (messageRound t).2) ∨
    ((messageRound t).1 = false ∧ PhasesEnd s (messageRound t).2) := by
  obtain ⟨f, hdec, hf⟩ := h
  have hsym := hdec.read (decodeSym_onlyStrictReader t) (decodeSym_takes t)
  cases hval : (decodeSym .strict t).value with
  | none =>
    rw [messageRound_failed hval, failFrame_of_frame hsym.frame]
    refine .inr ⟨rfl, _, hsym.regs rfl rfl, .damaged (r := symbolReason (decodeSym .strict t).code) ?flags ?reason⟩
    case flags => exact flags_fail hf _ _
    case reason =>
      obtain hcode | hcode := decodeSym_failed hval
      · exact .inr (.inr ⟨congrArg symbolReason hcode, decodeSym_drained hcode⟩)
      · exact .inl (congrArg symbolReason hcode)
  | some c =>
    obtain ⟨⟨pad, v⟩, hpad⟩ : ∃ p, readPad (decodeSym .strict t).after = p := ⟨_, rfl⟩
    obtain ⟨honly, htakes, hend⟩ := readPad_reads hpad
    obtain ⟨_, w, g, hk, hw, hdrained, ⟨rfl, hg⟩ | ⟨rfl, hg⟩ | ⟨rfl, hg⟩⟩ := classify_receives (hsym.read honly htakes) hf c
    · obtain ⟨hzero, hdamage⟩ := messageRound_open hval hpad hk hw.frame
      by_cases hp : pad = some false
      · rw [hzero hp]
        exact .inl ⟨rfl, g, hw, hg⟩
      · rw [hdamage hp]
        refine .inr ⟨rfl, _, hw.regs rfl rfl, .damaged (r := if pad = some true then .pad else .exhausted) ?flags ?reason⟩
        case flags => exact flags_fail (flags_clean hg false) _ _
        case reason =>
          by_cases hone : pad = some true
          · exact .inr (.inl ⟨if_pos hone, rfl⟩)
          · have hnone : pad = none := by
              cases pad with
              | none => rfl
              | some b => cases b <;> simp_all
            exact .inr (.inr ⟨if_neg hone, hdrained (hend hnone)⟩)
    · rw [messageRound_stopped hval hpad hk hw.frame]
      exact .inr ⟨rfl, _, hw.regs rfl rfl, .footer (hg _)⟩
    · rw [messageRound_stopped hval hpad hk hw.frame]
      exact .inr ⟨rfl, _, hw.regs rfl rfl, .runOn (hg _)⟩

/-! ## The phases -/

/-- The internal registers at the start, as a state on the way. -/
theorem scans_start (s : State) : Scans s (setFrame (startRegs s.bitsRead) s) := by
  refine ⟨startRegs s.bitsRead, ⟨⟨rfl, rfl, rfl, .of_eq rfl rfl, ?emitted, Takes.refl s⟩, rfl, rfl, ?leadn, ?budget⟩, ?hopen⟩
  case emitted =>
    show (0 : Word) = BitVec.ofNat 32 (s.out.length - s.out.length)
    rw [Nat.sub_self]
    rfl
  case leadn => exact BitVec.sub_self _
  case budget => exact fun _ => Nat.zero_le _
  case hopen => exact fun hne => Nat.pos_of_ne_zero fun h0 => hne (BitVec.eq_of_toNat_eq h0)

/-- Everything a frame decode can come to before its report. -/
theorem decodePhases_ends {s t : State} (h : decodePhases s = some t) : PhasesEnd s t := by
  obtain ⟨u, hlead, hmessage⟩ := Option.bind_eq_some_iff.mp h
  obtain ⟨f, hdec, ⟨hstate, hend⟩ | ⟨hstate, hreceives⟩⟩ :=
    loopUntil_ends_in (fun _ => leadInRound_scans) (scans_start s) hlead
  · rw [messagePhase, frameRegs_of_frame hdec.frame, if_neg hstate] at hmessage
    cases hmessage
    exact ⟨f, hdec, hend⟩
  · rw [messagePhase, frameRegs_of_frame hdec.frame, if_pos hstate] at hmessage
    have hgo : MessageGoesOn s u := ⟨f, hdec, hreceives⟩
    exact loopUntil_ends_in (fun _ => messageRound_receives) hgo hmessage

/-- A decoder loop whose every round that goes on uses a bit ends within the bound of 70_reset_and_hazards.md R307. -/
theorem loopUntil_bitsLeft {body : State → Bool × State} (honly : ∀ s, onlyDecoder s (body s).2)
    (hbits : ∀ s : State, s.inp.length < 2 ^ 32 → (body s).1 = true → bitsLeft (body s).2 < bitsLeft s)
    {s : State} (h : s.inp.length < 2 ^ 32) : ∃ t, loopUntil body (bitsLeft s + 1) s = some t := by
  have hround : ∀ s : State, s.inp.length < 2 ^ 32 → (body s).1 = true →
      (body s).2.inp.length < 2 ^ 32 ∧ bitsLeft (body s).2 < bitsLeft s := fun s hs hmore =>
    ⟨by rw [honly s]; exact hs, hbits s hs hmore⟩
  exact loopUntil_ends hround _ s h (Nat.lt_succ_self _)

theorem leadInPhase_isSome {s : State} (h : s.inp.length < 2 ^ 32) : ∃ t, leadInPhase s = some t :=
  loopUntil_bitsLeft leadInRound_onlyDecoder (fun _ => leadInRound_bitsLeft) h

theorem messagePhase_isSome {s : State} (h : s.inp.length < 2 ^ 32) : ∃ t, messagePhase s = some t := by
  unfold messagePhase
  split
  · exact loopUntil_bitsLeft messageRound_onlyDecoder (fun _ => messageRound_bitsLeft) h
  · exact ⟨s, rfl⟩

theorem leadInPhase_onlyDecoder {s t : State} (h : leadInPhase s = some t) : onlyDecoder s t :=
  loopUntil_relates (R := onlyDecoder) (fun _ _ _ => onlyDecoder_trans) leadInRound_onlyDecoder _ _ _ h

theorem decodePhases_isSome {s : State} (h : s.inp.length < 2 ^ 32) : ∃ t, decodePhases s = some t := by
  obtain ⟨u, hlead⟩ := leadInPhase_isSome (s := setFrame (startRegs s.bitsRead) s) h
  obtain ⟨t, hmessage⟩ := messagePhase_isSome (s := u) (by rw [leadInPhase_onlyDecoder hlead]; exact h)
  exact ⟨t, Option.bind_eq_some_iff.mpr ⟨u, hlead, hmessage⟩⟩

/-! ## The report (43_framing.md R231) -/

/-- The state that a frame decode of `s` leaves when its phases end in `u` with the internal registers `f`. -/
def report (s u : State) (f : FrameRegs) : State :=
  { u with
    msgBits := u.bitsRead - s.bitsRead
    msg := ⟨f.sawHeader, f.sawFooter, f.clean, f.runOn,
      decide (s.cfg.minValidBits ≤ (u.bitsRead - s.bitsRead).toNat) && f.sawHeader && f.sawFooter && f.clean, f.reason⟩
    res0 := f.emitted, res1 := u.bitsRead - s.bitsRead
    frame := none, code := .ok, busy := false }

theorem terminal_report {s u : State} {f : FrameRegs} (h : Decodes s u f) :
    finish .ok (releaseFrame (terminal u)) = report s u f := by
  obtain ⟨hcfg, -, -⟩ := h.launch
  rw [report, ← hcfg, terminal, frameRegs_of_frame h.frame, h.start]
  rfl

/-- Everything FRM_DECODE can do with nothing pending in the writer. -/
theorem execFrmDecode_report {s t : State} (hcnt : s.wrCnt = 0) (h : exec .frmDecode s = .next t) :
    ∃ u f, Decodes s u f ∧ Ending s u f ∧ t = report s u f := by
  obtain ⟨hpending, -⟩ | ⟨-, u, hu, rfl⟩ := execFrmDecode_cases h
  · exact absurd hcnt hpending
  · obtain ⟨f, hdec, hend⟩ := decodePhases_ends hu
    exact ⟨u, f, hdec, hend, terminal_report hdec⟩

/-! ## The statements -/

/-- Settles O48: the report of a decode that ends, over the registers that a decode may change. -/
theorem frmDecodeCompletesWithItsReport : Obligations.FrmDecodeCompletesWithItsReport := by
  intro s hlen
  refine ⟨fun hcnt => ?decoded, execFrmDecode_align⟩
  case decoded =>
    obtain ⟨u, hu⟩ := decodePhases_isSome hlen
    obtain ⟨f, hdec, -⟩ := decodePhases_ends hu
    obtain ⟨hout, hcount⟩ := hdec.appends
    refine ⟨report s u f, terminal_report hdec ▸ execFrmDecode_decoded hcnt hu, ?frame, hout, rfl⟩
    case frame =>
      have hbits : s.bitsRead + (u.bitsRead - s.bitsRead) = u.bitsRead := by bv_omega
      have hcount' : s.outCount + f.emitted = u.outCount := by rw [hcount, hdec.emitted]
      simp only [report, hbits, hcount', ← hdec.emitted]
      exact congrArg (report s · f) hdec.only

/-- Settles O49: the flags of each way to end. -/
theorem endReasonAgreesWithTheFlags : Obligations.EndReasonAgreesWithTheFlags := by
  intro s t hcnt h
  obtain ⟨u, f, -, hend, rfl⟩ := execFrmDecode_report hcnt h
  cases hend with
  | noHeader hflags hout =>
    obtain ⟨hheader, hfooter, hrun, hclean, hreason⟩ := flags_iff.mp hflags
    simp [report, hheader, hfooter, hrun, hclean, hreason, hout]
  | deadline hflags hout =>
    obtain ⟨hheader, hfooter, hrun, hclean, hreason⟩ := flags_iff.mp hflags
    simp [report, hheader, hfooter, hrun, hclean, hreason, hout]
  | footer hflags =>
    obtain ⟨hheader, hfooter, hrun, -, hreason⟩ := flags_iff.mp hflags
    simp [report, hheader, hfooter, hrun, hreason]
  | runOn hflags =>
    obtain ⟨hheader, hfooter, hrun, -, hreason⟩ := flags_iff.mp hflags
    simp [report, hheader, hfooter, hrun, hreason]
  | damaged hflags hdamage =>
    obtain ⟨hheader, hfooter, hrun, -, hreason⟩ := flags_iff.mp hflags
    obtain rfl | ⟨rfl, hclean⟩ | ⟨rfl, -⟩ := hdamage
    · simp [report, hheader, hfooter, hrun, hreason]
    · simp [report, hheader, hfooter, hrun, hreason, hclean]
    · simp [report, hheader, hfooter, hrun, hreason]

/-- Settles O50: without a header every bit is counted in LEADN, and the budget bounds LEADN. -/
theorem leadInBudgetBoundsTheScan : Obligations.LeadInBudgetBoundsTheScan := by
  intro s t hcnt hlimit h
  obtain ⟨u, f, -, hend, rfl⟩ := execFrmDecode_report hcnt h
  cases hend with
  | noHeader hflags _ _ hbudget =>
    obtain ⟨-, -, -, -, hreason⟩ := flags_iff.mp hflags
    exact ⟨fun _ => (hbudget hlimit).le, fun hdeadline => by cases hreason.symm.trans hdeadline⟩
  | deadline _ _ hbudget => exact ⟨fun _ => (hbudget hlimit).le, fun _ => hbudget hlimit⟩
  | footer hflags =>
    obtain ⟨hheader, -, -, -, hreason⟩ := flags_iff.mp hflags
    simp [report, hheader, hreason]
  | runOn hflags =>
    obtain ⟨hheader, -, -, -, hreason⟩ := flags_iff.mp hflags
    simp [report, hheader, hreason]
  | damaged hflags hdamage =>
    obtain ⟨hheader, -, -, -, hreason⟩ := flags_iff.mp hflags
    obtain rfl | ⟨rfl, -⟩ | ⟨rfl, -⟩ := hdamage <;> simp [report, hheader, hreason]

/-- Settles O51: the bits a decode takes are the first of IN, and the want of a bit is the end of IN. -/
theorem frmDecodeTakesBitsFromTheFront : Obligations.FrmDecodeTakesBitsFromTheFront := by
  intro s t hs hcnt h
  obtain ⟨u, f, hdec, hend, rfl⟩ := execFrmDecode_report hcnt h
  obtain ⟨hu, x, hx, hcount⟩ := hdec.takes hs
  refine ⟨hu, ⟨x, hx, ?bits⟩, ?drained⟩
  case bits =>
    show u.bitsRead - s.bitsRead = BitVec.ofNat 32 x.length
    rw [hcount]
    bv_omega
  case drained =>
    intro hreason
    have hreason' : f.reason = .noheader ∨ f.reason = .exhausted := hreason
    show unread u = []
    cases hend with
    | noHeader _ _ hdrained _ => exact hdrained hu
    | deadline hflags => simp [(flags_iff.mp hflags).2] at hreason'
    | footer hflags => simp [(flags_iff.mp hflags).2] at hreason'
    | runOn hflags => simp [(flags_iff.mp hflags).2] at hreason'
    | damaged hflags hdamage =>
      obtain rfl | ⟨rfl, -⟩ | ⟨-, hdrained⟩ := hdamage
      · simp [(flags_iff.mp hflags).2] at hreason'
      · simp [(flags_iff.mp hflags).2] at hreason'
      · exact hdrained hu

/-- Loops that end within some bound end the same within any other that suffices. -/
theorem loopUntil_unique {body : State → Bool × State} {m n : Nat} {s t u : State} (h : loopUntil body m s = some t)
    (k : loopUntil body n s = some u) : u = t :=
  Option.some.inj ((loopUntil_more k (le_max_right m n)).symm.trans (loopUntil_more h (le_max_left m n)))

/-- Settles O58: loops that end within some bounds end the same within the bounds of R307, which suffice. -/
theorem frmDecodeRunsItsRounds : Obligations.FrmDecodeRunsItsRounds := by
  intro s u v n m f g hlen hcnt hf hlead hmessage hv
  obtain ⟨t, hphases⟩ := decodePhases_isSome hlen
  obtain ⟨u', hlead', hmessage'⟩ := Option.bind_eq_some_iff.mp hphases
  have hstart : setFrame (startRegs s.bitsRead) s = { s with frame := some f } := by rw [hf]; rfl
  rw [hstart] at hlead'
  obtain rfl := loopUntil_unique hlead hlead'
  have hend : t = v := by
    have hstate : (frameRegs u').fstate = .inMessage ↔ (u'.frame.map (·.fstate)) = some .inMessage := by
      cases hu : u'.frame <;> simp [frameRegs, hu, startRegs]
    unfold messagePhase at hmessage'
    by_cases hin : (frameRegs u').fstate = .inMessage
    · rw [if_pos hin] at hmessage'
      rw [if_pos (hstate.mp hin)] at hmessage
      exact loopUntil_unique hmessage hmessage'
    · rw [if_neg hin] at hmessage'
      rw [if_neg (mt hstate.mpr hin)] at hmessage
      rw [hmessage, Option.some.inj hmessage']
  subst hend
  obtain ⟨f', hdec, -⟩ := decodePhases_ends hphases
  obtain rfl : g = f' := Option.some.inj (hv.symm.trans hdec.frame)
  rw [execFrmDecode_decoded hcnt hphases, terminal_report hdec]
  rfl

/-- Settles O52: the first LeadIn round finds no bit, and ends the scan with NOHEADER. -/
theorem emptyInputHasNoHeader : Obligations.EmptyInputHasNoHeader := by
  intro s hs hu hcnt
  have hbit := getBitTry_nil (s := setFrame (startRegs s.bitsRead) s) hs hu
  have hround : loopUntil leadInRound 1 (setFrame (startRegs s.bitsRead) s) =
      some (failFrame .noheader (setFrame (startRegs s.bitsRead) s)) := by
    simp only [loopUntil, leadInRound_none hbit]
  have hstate : ¬ ((failFrame .noheader (setFrame (startRegs s.bitsRead) s)).frame.map (·.fstate)) = some .inMessage := by
    simp [failFrame]
  obtain ⟨hlen, -⟩ := hs
  rw [frmDecodeRunsItsRounds s _ _ 1 0 _ _ hlen hcnt rfl hround ((if_neg hstate).mpr rfl) rfl]
  simp [failFrame, frameRegs, setFrame, startRegs]

end Sys2Proof.Proofs
end

/-! # Proofs: the frame encoder (43_framing.md R210 to R212, R240)

FRM_ENCODE is one string put and flushed: `putFrame_eq`. What is written follows from the writer's lemmas, and the host's
commands of R240 put the same string. -/
section
namespace Sys2Proof.Proofs

open Sys2Proof Sys2Proof.Machine

/-! ## One string -/

/-- A codeword and its pad bit (43_framing.md R210). -/
def paddedBits (w : Codeword) : BitString :=
  codewordBits w ++ [false]

theorem paddedBits_length (w : Codeword) : (paddedBits w).length = w.length + 1 := by
  rw [paddedBits, List.length_append, codewordBits, bits_length, List.length_singleton]

theorem frameString_eq (r : Rom) (p : List Byte) :
    frameString r p = paddedBits r.head ++ p.flatMap (fun b => paddedBits (forwardWord r b)) ++ paddedBits r.foot := by
  simp only [frameString, paddedBits, List.append_assoc]

theorem frameString_length (r : Rom) (p : List Byte) : (frameString r p).length = frameBits r p := by
  simp only [frameString_eq, List.length_append, List.length_flatMap, paddedBits_length, frameBits]

theorem putPadded_eq (w : Codeword) (s : State) : putPadded w s = putString (paddedBits w) s := by
  rw [paddedBits, putString_append]
  rfl

/-- `IN_POS <- p`. -/
def seek (p : Word) (s : State) : State :=
  { s with inPos := p }

@[simp] theorem seek_out (p : Word) (s : State) : (seek p s).out = s.out := rfl

@[simp] theorem seek_outCount (p : Word) (s : State) : (seek p s).outCount = s.outCount := rfl

@[simp] theorem seek_wrByte (p : Word) (s : State) : (seek p s).wrByte = s.wrByte := rfl

@[simp] theorem seek_wrCnt (p : Word) (s : State) : (seek p s).wrCnt = s.wrCnt := rfl

/-- The writer does not look at IN_POS. -/
theorem putString_seek (l : BitString) (p : Word) (s : State) : putString l (seek p s) = seek p (putString l s) := by
  induction l generalizing s with
  | nil => rfl
  | cons b l ih =>
    have hbit : putBit b (seek p s) = seek p (putBit b s) := by
      rw [putBit, putBit, apply_ite (seek p)]
      rfl
    rw [putString, hbit, ih, putString]

theorem flushOut_seek (p : Word) (s : State) : flushOut (seek p s) = seek p (flushOut s) := by
  rw [flushOut, flushOut, apply_ite (seek p)]
  rfl

theorem putString_rom (l : BitString) (s : State) : (putString l s).rom = s.rom := by
  rw [putString_onlyWriter l s]

theorem putString_pos (l : BitString) (s : State) : (putString l s).inPos = s.inPos := by
  rw [putString_onlyWriter l s]

theorem putPayload_eq (l : List Byte) (s : State) : putPayload l s =
    seek (s.inPos + BitVec.ofNat 32 l.length) (putString (l.flatMap fun b => paddedBits (forwardWord s.rom b)) s) := by
  induction l generalizing s with
  | nil =>
    have hpos : s.inPos + BitVec.ofNat 32 ([] : List Byte).length = s.inPos := BitVec.add_zero _
    rw [hpos]
    rfl
  | cons b l ih =>
    have htake : takeByte s = seek (s.inPos + 1) s := rfl
    have hrom : ∀ p, (seek p (putString (paddedBits (forwardWord s.rom b)) s)).rom = s.rom := fun p => putString_rom _ s
    have hseek : ∀ p q (t : State), seek p (seek q t) = seek p t := fun _ _ _ => rfl
    have hpos : s.inPos + 1 + BitVec.ofNat 32 l.length = s.inPos + BitVec.ofNat 32 (b :: l).length := by
      rw [List.length_cons, BitVec.ofNat_add, add_assoc, add_comm 1]
      rfl
    rw [putPayload, putPadded_eq, htake, putString_seek, ih, hrom, putString_seek, hseek, List.flatMap_cons,
      putString_append, ← hpos]
    rfl

/-- FRM_ENCODE puts `Frame(P)` and flushes; besides, the payload is taken from IN. -/
theorem putFrame_eq (s : State) : putFrame s = seek (s.inPos + BitVec.ofNat 32 (payload s).length)
    (flushOut (putString (frameString s.rom (payload s)) s)) := by
  rw [putFrame, putPadded_eq, putPadded_eq, putPayload_eq, putString_seek, flushOut_seek, putString_rom, putString_pos,
    frameString_eq, putString_append, putString_append]

/-! ## The string in OUT -/

theorem putBit_appends (b : Bool) (s : State) : Appends s (putBit b s) := by
  unfold putBit
  split
  · exact outAppend_appends _ s
  · exact .of_eq rfl rfl

theorem putString_appends (l : BitString) (s : State) : Appends s (putString l s) := by
  induction l generalizing s with
  | nil => exact .of_eq rfl rfl
  | cons b l ih => exact (putBit_appends b s).trans (ih _)

theorem flushOut_appends (s : State) : Appends s (flushOut s) := by
  unfold flushOut
  split
  · exact .of_eq rfl rfl
  · exact outAppend_appends _ s

/-- Behind a bit put, an empty pending byte is 0. -/
theorem putBit_empty (b : Bool) (s : State) (h : (putBit b s).wrCnt = 0) : (putBit b s).wrByte = 0 := by
  by_cases hfull : s.wrCnt = 7
  · rw [putBit_full hfull]
  · rw [putBit_room hfull] at h
    have hcnt : s.wrCnt + 1 = 0 := h
    exact absurd hcnt (by bv_omega)

theorem putString_empty {l : BitString} (hl : l ≠ []) (s : State) (h : (putString l s).wrCnt = 0) :
    (putString l s).wrByte = 0 := by
  obtain ⟨init, b, rfl⟩ := List.eq_nil_or_concat'  l |>.resolve_left hl
  rw [putString_append] at h ⊢
  exact putBit_empty b _ h

/-- FlushOut leaves the writer empty. -/
theorem flushOut_empties {s : State} (h : s.wrCnt = 0 → s.wrByte = 0) : (flushOut s).wrCnt = 0 ∧ (flushOut s).wrByte = 0 := by
  unfold flushOut
  split
  · next hcnt => exact ⟨hcnt, h hcnt⟩
  · exact ⟨rfl, rfl⟩

theorem pending_length (s : State) : (pending s).length = s.wrCnt.toNat := by
  have := s.wrCnt.isLt
  rw [pending, List.length_take, byteBits_length]
  omega

/-- A string put and flushed stands in OUT behind what was written before, with zeros up to a byte. -/
theorem flushed_out {s : State} (hs : writerOk s) (l : BitString) :
    (flushOut (putString l s)).out.flatMap byteBits = written s ++ l ++ fillZeros (s.wrCnt.toNat + l.length) := by
  obtain ⟨hput, hok⟩ := putString_written hs l
  obtain ⟨hflush, hcnt, -⟩ := flushOut_written hok
  rw [hput, written_of_flushed hcnt] at hflush
  have hpad : padBits (putString l s) < 8 := padBits_lt
  have hlength := congrArg List.length hflush
  simp only [written, List.length_append, List.length_replicate, flatMap_byteBits_length, pending_length] at hlength
  have hfill : padBits (putString l s) = (8 - (s.wrCnt.toNat + l.length) % 8) % 8 := by omega
  rw [hflush, fillZeros, hfill]

theorem putFlush_appends (l : BitString) (s : State) : Appends s (flushOut (putString l s)) :=
  (putString_appends l s).trans (flushOut_appends _)

theorem putFlush_onlyWriter (l : BitString) (s : State) : onlyWriter s (flushOut (putString l s)) :=
  onlyWriter_trans (putString_onlyWriter l s) (flushOut_onlyWriter _)

/-! ## The command -/

/-- The state after FRM_ENCODE with no bit cached. -/
def encoded (s : State) : State :=
  finish .ok (setResults (BitVec.ofNat 32 (frameString s.rom (payload s)).length) (BitVec.ofNat 32 (payload s).length)
    (seek (s.inPos + BitVec.ofNat 32 (payload s).length) (flushOut (putString (frameString s.rom (payload s)) s))))

theorem exec_frmEncode {s : State} (h : s.rdMask = 0) : exec .frmEncode s = .next (encoded s) := by
  rw [encoded, frameString_length, ← putFrame_eq]
  exact if_neg (not_not.mpr h)

/-- The writer and OUT after FRM_ENCODE are those after the frame's string and the flush. -/
theorem encoded_writer (s : State) : (encoded s).out = (flushOut (putString (frameString s.rom (payload s)) s)).out ∧
    (encoded s).outCount = (flushOut (putString (frameString s.rom (payload s)) s)).outCount ∧
    (encoded s).wrByte = (flushOut (putString (frameString s.rom (payload s)) s)).wrByte ∧
    (encoded s).wrCnt = (flushOut (putString (frameString s.rom (payload s)) s)).wrCnt := by
  simp [encoded]

theorem exec_frmEncode_align {s : State} (h : s.rdMask ≠ 0) : exec .frmEncode s = .next (finish .align s) :=
  if_pos h

/-- Taking the payload takes the rest of IN. -/
theorem inPos_behind_payload {s : State} (hpos : s.inPos.toNat ≤ s.inp.length) :
    s.inPos + BitVec.ofNat 32 (payload s).length = BitVec.ofNat 32 s.inp.length := by
  apply BitVec.eq_of_toNat_eq
  rw [payload, List.length_drop, BitVec.toNat_add, BitVec.toNat_ofNat, BitVec.toNat_ofNat]
  omega

theorem encoded_eq {s : State} (hpos : s.inPos.toNat ≤ s.inp.length) : encoded s = finish .ok (setResults
    (BitVec.ofNat 32 (frameString s.rom (payload s)).length) (BitVec.ofNat 32 (payload s).length)
    (seek (BitVec.ofNat 32 s.inp.length) (flushOut (putString (frameString s.rom (payload s)) s)))) := by
  rw [encoded, inPos_behind_payload hpos]

theorem frameString_ne_nil (r : Rom) (p : List Byte) : frameString r p ≠ [] := by
  simp [frameString]

/-- Settles O45: the string put is the frame, and flushing empties the writer, since a bit was put. -/
theorem frmEncodeWritesTheFrame : Obligations.FrmEncodeWritesTheFrame := by
  intro s _ hpos
  obtain ⟨hout, hcount, -, -⟩ := encoded_writer s
  obtain ⟨hgrows, hcounts⟩ := putFlush_appends (frameString s.rom (payload s)) s
  refine ⟨fun hmask => ⟨encoded s, exec_frmEncode hmask, ?frame, ?grows, ?count, fun hs => ?bits⟩, exec_frmEncode_align⟩
  case frame =>
    have hrest : s.inp.drop s.inPos.toNat = payload s := rfl
    have heq := encoded_eq hpos
    obtain ⟨hcnt, hbyte⟩ := flushOut_empties (putString_empty (frameString_ne_nil s.rom (payload s)) s)
    have honly := putFlush_onlyWriter (frameString s.rom (payload s)) s
    generalize flushOut (putString (frameString s.rom (payload s)) s) = w at heq hout hcount hcnt hbyte honly
    unfold onlyWriter at honly
    rw [hcnt, hbyte] at honly
    rw [hout, hcount, ← List.length_drop, hrest, heq, honly]
    rfl
  case grows =>
    rw [hout]
    exact hgrows
  case count =>
    rw [hcount, hout]
    exact hcounts
  case bits =>
    rw [hout]
    exact flushed_out hs (frameString s.rom (payload s))

/-! ## The host's commands (43_framing.md R240) -/

/-- Two states with the same writer and the same OUT. -/
def sameWriter (s t : State) : Prop :=
  t.out = s.out ∧ t.outCount = s.outCount ∧ t.wrByte = s.wrByte ∧ t.wrCnt = s.wrCnt

theorem sameWriter_trans {s t u : State} (h : sameWriter s t) (k : sameWriter t u) : sameWriter s u := by
  obtain ⟨hout, hcount, hbyte, hcnt⟩ := h
  obtain ⟨kout, kcount, kbyte, kcnt⟩ := k
  exact ⟨kout.trans hout, kcount.trans hcount, kbyte.trans hbyte, kcnt.trans hcnt⟩

section
variable {s t : State} (h : sameWriter s t)
include h

theorem sameWriter_putBit (b : Bool) : sameWriter (putBit b s) (putBit b t) := by
  obtain ⟨hout, hcount, hbyte, hcnt⟩ := h
  by_cases hfull : s.wrCnt = 7
  · rw [putBit_full hfull, putBit_full (hcnt.trans hfull)]
    simp only [sameWriter, pendingWith, hout, hcount, hbyte, hcnt, and_self]
  · rw [putBit_room hfull, putBit_room (hcnt ▸ hfull)]
    simp only [sameWriter, pendingWith, hout, hcount, hbyte, hcnt, and_self]

theorem sameWriter_putString (l : BitString) : sameWriter (putString l s) (putString l t) := by
  induction l generalizing s t with
  | nil => exact h
  | cons b l ih => exact ih (sameWriter_putBit h b)

theorem sameWriter_flushOut : sameWriter (flushOut s) (flushOut t) := by
  obtain ⟨hout, hcount, hbyte, hcnt⟩ := h
  by_cases hempty : s.wrCnt = 0
  · rw [flushOut_empty hempty, flushOut_empty (hcnt.trans hempty)]
    exact ⟨hout, hcount, hbyte, hcnt⟩
  · rw [flushOut_partial hempty, flushOut_partial (hcnt ▸ hempty)]
    simp only [sameWriter, hout, hcount, hbyte, and_self]

end

/-- Only the low `l` bits of a pattern are written. -/
theorem bits_mod {l k : Nat} (h : l ≤ k) (p : Nat) : bits (p % 2 ^ k) l = bits p l := by
  conv_rhs => rw [← Nat.div_add_mod' p (2 ^ k)]
  exact (bits_add_mul _ _ _ _ h).symm

/-- Commands that put the string `l`, whatever else they leave. -/
def PutsString (cmds : List (Instr × Word × Word)) (l : BitString) : Prop :=
  ∀ s, ∃ t, runCommands cmds s = .next t ∧ sameWriter (putString l s) t

/-- The operands of a command, as the host stores them. -/
def withOperands (a0 a1 : Word) (s : State) : State :=
  { s with arg0 := a0, arg1 := a1 }

theorem runCommands_cons {i : Instr} {a0 a1 : Word} {s t : State} (h : exec i (withOperands a0 a1 s) = .next t)
    (rest : List (Instr × Word × Word)) : runCommands ((i, a0, a1) :: rest) s = runCommands rest t := by
  have h' : exec i { s with arg0 := a0, arg1 := a1 } = .next t := h
  rw [runCommands, h']

/-- A sequence that ends has run its first command to an end. -/
theorem runCommands_cons_next {i : Instr} {a0 a1 : Word} {s t : State} {rest : List (Instr × Word × Word)}
    (h : runCommands ((i, a0, a1) :: rest) s = .next t) :
    ∃ u, exec i (withOperands a0 a1 s) = .next u ∧ runCommands rest u = .next t := by
  rw [runCommands] at h
  split at h
  · next u hu => exact ⟨u, hu, h⟩
  · cases h
  · cases h

theorem runCommands_append {a b : List (Instr × Word × Word)} {s t : State} (h : runCommands a s = .next t) :
    runCommands (a ++ b) s = runCommands b t := by
  induction a generalizing s with
  | nil =>
    cases h
    rfl
  | cons c a ih =>
    obtain ⟨i, a0, a1⟩ := c
    obtain ⟨u, hu, hrest⟩ := runCommands_cons_next h
    rw [List.cons_append, runCommands_cons hu, ih hrest]

theorem PutsString.append {a b : List (Instr × Word × Word)} {x y : BitString} (ha : PutsString a x) (hb : PutsString b y) :
    PutsString (a ++ b) (x ++ y) := by
  intro s
  obtain ⟨t, ht, hst⟩ := ha s
  obtain ⟨u, hu, htu⟩ := hb t
  refine ⟨u, (runCommands_append ht).trans hu, ?_⟩
  rw [putString_append]
  exact sameWriter_trans (sameWriter_putString hst y) htu

theorem PutsString.flatMap {α : Type} {cmds : α → List (Instr × Word × Word)} {str : α → BitString}
    (h : ∀ a, PutsString (cmds a) (str a)) (l : List α) : PutsString (l.flatMap cmds) (l.flatMap str) := by
  induction l with
  | nil => exact fun s => ⟨s, rfl, rfl, rfl, rfl, rfl⟩
  | cons a l ih => exact (h a).append ih

theorem exec_writeBit_zero (s : State) :
    exec .writeBit (withOperands 0 0 s) = .next (finish .ok (putBit false (withOperands 0 0 s))) := by
  have hbit : (withOperands 0 0 s).arg0.getLsbD 0 = false := (rfl : (0 : Word).getLsbD 0 = false)
  rw [exec_writeBit, hbit]

/-- WRITE_PATTERN of a codeword that fits it. -/
theorem exec_writePattern_codeword {w : Codeword} (h : w.length ≤ 32) {v : State} (h0 : v.arg0 = BitVec.ofNat 32 w.pattern)
    (h1 : v.arg1 = BitVec.ofNat 32 w.length) : exec .writePattern v = .next (finish .ok (putString (codewordBits w) v)) := by
  have hlen : v.arg1.toNat = w.length := by
    rw [h1]
    exact Nat.mod_eq_of_lt (by omega)
  have hbits : bits v.arg0.toNat w.length = codewordBits w := by
    rw [h0]
    exact bits_mod h w.pattern
  rw [exec_writePattern (hlen.trans_le h), hlen, putBits, hbits]

/-- WRITE_PATTERN of a codeword and WRITE_BIT 0 put the codeword and its pad bit. -/
theorem paddedCommands_puts {w : Codeword} (h : w.length ≤ 32) : PutsString (paddedCommands w) (paddedBits w) := by
  intro s
  obtain ⟨v, hv⟩ : ∃ v, v = withOperands (BitVec.ofNat 32 w.pattern) (BitVec.ofNat 32 w.length) s := ⟨_, rfl⟩
  have hpattern := exec_writePattern_codeword h (v := v) (by rw [hv]; rfl) (by rw [hv]; rfl)
  have hsame : sameWriter s v := by
    rw [hv]
    exact ⟨rfl, rfl, rfl, rfl⟩
  have hput := sameWriter_trans (sameWriter_putString hsame (codewordBits w))
    (show sameWriter _ (withOperands 0 0 (finish .ok (putString (codewordBits w) v))) from ⟨rfl, rfl, rfl, rfl⟩)
  rw [hv] at hpattern hput
  rw [paddedCommands, paddedBits, putString_append, runCommands_cons hpattern, runCommands_cons (exec_writeBit_zero _)]
  refine ⟨_, rfl, ?_⟩
  exact sameWriter_trans (sameWriter_putBit hput false) ⟨rfl, rfl, rfl, rfl⟩

/-- Settles O47: the commands put the frame's string, and FLUSH ends both. -/
theorem frmEncodeEqualsBitCommands : Obligations.FrmEncodeEqualsBitCommands := by
  intro s hmask hhead hfoot hword
  have hputs := ((paddedCommands_puts hhead).append (.flatMap (fun b => paddedCommands_puts (hword b)) (payload s))).append
    (paddedCommands_puts hfoot)
  obtain ⟨v, hv, hsame⟩ := hputs s
  rw [← frameString_eq] at hsame
  have hflush : runCommands (frameCommands s.rom (payload s)) s = _ :=
    (runCommands_append hv).trans (runCommands_cons (exec_flush _) [])
  have hv' : sameWriter v (withOperands 0 0 v) := ⟨rfl, rfl, rfl, rfl⟩
  have henc : sameWriter (encoded s) (flushOut (putString (frameString s.rom (payload s)) s)) := by
    simp only [sameWriter, encoded_writer, and_self]
  obtain ⟨hout, hcount, hbyte, hcnt⟩ := sameWriter_trans henc (sameWriter_flushOut (sameWriter_trans hsame hv'))
  exact ⟨encoded s, _, exec_frmEncode hmask, hflush, hout, hcount, hbyte, hcnt⟩

end Sys2Proof.Proofs
end

/-! # Proofs: runs of equal bits in a frame (43_framing.md R214)

Every codeword of a frame ends in a one and is followed by a zero, so a run of ones stays within a codeword, and a run of zeros
within a codeword and the pad bit before it. -/
section
namespace Sys2Proof.Proofs

open Sys2Proof Sys2Proof.Machine

/-! ## Runs of a concatenation -/

/-- A run ends at the other bit. -/
theorem longestRun_append_not (b : Bool) (x y : BitString) (c : Nat) :
    longestRun b c (x ++ (! b) :: y) = max (longestRun b c x) (longestRun b 0 y) := by
  induction x generalizing c with
  | nil => simp [longestRun]
  | cons a x ih =>
    by_cases ha : a = b
    · simp only [List.cons_append, longestRun, if_pos ha, ih]
    · simp only [List.cons_append, longestRun, if_neg ha, ih, max_assoc]

/-- Bits before a string lengthen its first run only. -/
theorem longestRun_start (c d : Nat) (x : BitString) :
    longestRun false (c + d) x ≤ max (c + d + (x.takeWhile (! ·)).length) (longestRun false d x) := by
  induction x generalizing d with
  | nil => simp [longestRun]
  | cons a x ih =>
    cases a with
    | false =>
      have hnext := ih (d + 1)
      rw [← Nat.add_assoc] at hnext
      simp only [longestRun, if_true, List.takeWhile_cons, Bool.not_false, List.length_cons]
      omega
    | true =>
      simp only [longestRun, Bool.true_eq_false, if_false, List.takeWhile_cons, Bool.not_true]
      omega

theorem longestRun_replicate (c k : Nat) : longestRun false c (List.replicate k false) = c + k := by
  induction k generalizing c with
  | zero => rfl
  | succ k ih => simp [List.replicate_succ, longestRun, ih, Nat.add_assoc, Nat.add_comm 1]

/-! ## Codewords behind a pad bit -/

/-- A codeword that ends in a one and keeps the limits of R214 behind a zero. -/
def Limited (w : BitString) : Prop :=
  w.getLast? = some true ∧ longestRun false 1 w ≤ 4 ∧ longestRun true 0 w ≤ 2

theorem limited_of_runLengthOk {w : BitString} (hlast : w.getLast? = some true) (h : runLengthOk refCfg w = true) :
    Limited w := by
  obtain ⟨hlead, hzeros, hones⟩ := runLengthOk_iff.mp h
  refine ⟨hlast, (longestRun_start 1 0 w).trans (max_le ?_ hzeros), hones⟩
  have : refCfg.maxLeadZeros = 3 := rfl
  omega

theorem longestRun_false_padded {w : BitString} (h : w.getLast? = some true) (y : BitString) (c : Nat) :
    longestRun false c (w ++ [false] ++ y) = max (longestRun false c w) (longestRun false 1 y) := by
  obtain ⟨init, rfl⟩ := List.getLast?_eq_some_iff.mp h
  have hjoin : init ++ [true] ++ [false] ++ y = init ++ (! false) :: (false :: y) := by simp
  have hend : init ++ [true] = init ++ (! false) :: [] := rfl
  rw [hjoin, longestRun_append_not, hend, longestRun_append_not]
  simp [longestRun]

/-- Limited codewords, each with its pad bit, in front of `y`. -/
theorem longestRun_padded {ws : List BitString} (h : ∀ w ∈ ws, Limited w) (y : BitString) :
    longestRun false 1 (ws.flatMap (· ++ [false]) ++ y) ≤ max 4 (longestRun false 1 y) ∧
    longestRun true 0 (ws.flatMap (· ++ [false]) ++ y) ≤ max 2 (longestRun true 0 y) := by
  induction ws with
  | nil => exact ⟨le_max_right _ _, le_max_right _ _⟩
  | cons w ws ih =>
    obtain ⟨hlast, hzeros, hones⟩ := h w List.mem_cons_self
    obtain ⟨ihzeros, ihones⟩ := ih fun v hv => h v (List.mem_cons_of_mem w hv)
    have hjoin : w ++ [false] ++ (ws.flatMap (· ++ [false]) ++ y) =
      w ++ (! true) :: (ws.flatMap (· ++ [false]) ++ y) := by simp
    rw [List.flatMap_cons, List.append_assoc]
    refine ⟨?zeros, ?ones⟩
    case zeros =>
      rw [longestRun_false_padded hlast]
      omega
    case ones =>
      rw [hjoin, longestRun_append_not]
      omega

/-! ## The frames of REFCFG -/

/-- The strings of a frame's codewords. -/
def frameWords (r : Rom) (p : List Byte) : List BitString :=
  codewordBits r.head :: p.map (fun b => codewordBits (forwardWord r b)) ++ [codewordBits r.foot]

theorem frameString_eq_words (r : Rom) (p : List Byte) : frameString r p = (frameWords r p).flatMap (· ++ [false]) := by
  simp [frameString, frameWords, List.flatMap_map]

theorem refTable : TableOf refCfg refRom :=
  tableOf_romOf refCfg_wellFormed romOf_refCfg

theorem frameWords_limited (p : List Byte) : ∀ w ∈ frameWords refRom p, Limited w := by
  have hhead : Limited (codewordBits refRom.head) := by
    unfold Limited
    decide
  have hfoot : Limited (codewordBits refRom.foot) := by
    unfold Limited
    decide
  have hbyte : ∀ b, Limited (codewordBits (forwardWord refRom b)) := fun b => by
    obtain ⟨_, s, -, hcode, hrl, hword⟩ := refTable.codepoint b
    obtain ⟨ds, rfl, -⟩ := fibCode_digits refTable.fibLen hcode
    rw [hword, codewordBits_codewordOf]
    exact limited_of_runLengthOk List.getLast?_concat hrl
  intro w hw
  simp only [frameWords, List.cons_append, List.mem_cons, List.mem_append, List.mem_map, List.not_mem_nil, or_false] at hw
  obtain rfl | ⟨b, -, rfl⟩ | rfl := hw
  · exact hhead
  · exact hbyte b
  · exact hfoot

/-- Settles O46: the codewords of a frame are limited, and the zeros behind it stand behind its last pad bit. -/
theorem framesAreRunLengthLimited : Obligations.FramesAreRunLengthLimited := by
  intro p
  have hruns := fun y => longestRun_padded (frameWords_limited p) y
  have hzeros : ∀ y, longestRun false 0 (frameString refRom p ++ y) ≤ max 4 (longestRun false 1 y) := fun y => by
    rw [frameString_eq_words]
    exact (longestRun_mono false _ (Nat.zero_le 1)).trans (hruns y).1
  refine ⟨?zeros, ?ones, fun k hk => ?padded⟩
  case zeros => simpa [longestRun] using hzeros []
  case ones => simpa [frameString_eq_words, longestRun] using (hruns []).2
  case padded =>
    have := hzeros (List.replicate k false)
    rw [longestRun_replicate] at this
    omega

end Sys2Proof.Proofs
end

/-! # Proofs: decoding a clean frame (43_framing.md R222, R235, R237)

The scan is followed through its window alone: a string is `quiet` where no bit of it completes the header. A line fill is
quiet, since its windows repeat, and so is the header behind it up to its pad bit. In the message every codeword is read back as
its codepoint. -/
section
namespace Sys2Proof.Proofs

open Sys2Proof Sys2Proof.Machine

/-! ## The window over a string -/

/-- The window of `n` bits after one more bit (43_framing.md R221). -/
def pushBit (n w : Nat) (b : Bool) : Nat :=
  (2 * w + b.toNat) % 2 ^ n

/-- The window after a string. -/
def windowAfter (n w : Nat) (x : BitString) : Nat :=
  x.foldl (pushBit n) w

/-- The window shows the header and its pad bit. -/
def showsHeader (h : Codeword) (w : Nat) : Bool :=
  w % 2 ^ (h.length + 1) == 2 * h.pattern

/-- No bit of the string makes the window show the header. -/
def quiet (n : Nat) (h : Codeword) : Nat → BitString → Bool
  | _, [] => true
  | w, b :: x => ! showsHeader h (pushBit n w b) && quiet n h (pushBit n w b) x

theorem windowAfter_append (n w : Nat) (x y : BitString) : windowAfter n w (x ++ y) = windowAfter n (windowAfter n w x) y :=
  List.foldl_append

theorem quiet_append (n : Nat) (h : Codeword) (w : Nat) (x y : BitString) :
    quiet n h w (x ++ y) = (quiet n h w x && quiet n h (windowAfter n w x) y) := by
  induction x generalizing w with
  | nil => rfl
  | cons b x ih => rw [List.cons_append, quiet, ih, quiet, Bool.and_assoc]; rfl

/-! ## The scan over a string -/

section
variable {body : State → Bool × State} {s t : State}

theorem loopUntil_go (h : body s = (true, t)) (n : Nat) : loopUntil body (n + 1) s = loopUntil body n t := by
  rw [loopUntil, h]

theorem loopUntil_stop (h : body s = (false, t)) (n : Nat) : loopUntil body (n + 1) s = some t := by
  rw [loopUntil, h]

end

section
variable {s t : State} {f : FrameRegs} (hscan : Scanned s t f) (hlimit : s.leadinLimit = 0) (ht : readerOk t)
include hscan hlimit ht

/-- One bit of a scan without a budget: the round is the window's verdict. -/
theorem scan_bit {b : Bool} {rest : BitString} (hu : unread t = b :: rest) :
    ∃ u g, Scanned s u g ∧ g.win = pushBit s.cfg.windowBits f.win b ∧ readerOk u ∧ unread u = rest ∧
      (showsHeader s.rom.head g.win = false → leadInRound t = (true, u)) ∧
      (showsHeader s.rom.head g.win = true →
        leadInRound t = (false, { u with frame := some { g with sawHeader := true, fstate := .inMessage } })) := by
  obtain ⟨v, hbit, hrest, hv, -⟩ := getBitTry_cons ht hu
  obtain ⟨hcfg, hrom, hleft⟩ := hscan.launch
  obtain ⟨-, hsome⟩ := leadInRoundFollowsTheRules t f hscan.frame
  obtain ⟨hmatch, hgo⟩ := hsome b v _ hbit rfl
  have hshift := hscan.shift (fun hne => absurd hlimit hne) hbit rfl
  rw [hrom] at hmatch hgo
  refine ⟨_, _, hshift, by rw [hcfg]; rfl, hv, hrest, fun hno => ?_, fun hyes => ?_⟩
  · exact (hgo (beq_eq_false_iff_ne.mp hno)).2 (.inl (hleft.trans hlimit))
  · exact hmatch (beq_iff_eq.mp hyes)

/-- A quiet string is scanned. -/
theorem scan_quiet {x rest : BitString} (hu : unread t = x ++ rest) (hq : quiet s.cfg.windowBits s.rom.head f.win x = true) :
    ∃ u g, Scanned s u g ∧ g.win = windowAfter s.cfg.windowBits f.win x ∧ readerOk u ∧ unread u = rest ∧
      ∀ n, loopUntil leadInRound (x.length + n) t = loopUntil leadInRound n u := by
  induction x generalizing t f with
  | nil => exact ⟨t, f, hscan, rfl, ht, hu, fun n => by rw [List.length_nil, Nat.zero_add]⟩
  | cons b x ih =>
    obtain ⟨v, g, hv, hwin, hok, hrest, hgo, -⟩ := scan_bit hscan hlimit ht hu
    rw [quiet, Bool.and_eq_true, Bool.not_eq_true', ← hwin] at hq
    obtain ⟨hno, hquiet⟩ := hq
    obtain ⟨u, k, hk, hkwin, hku, hkrest, hloop⟩ := ih hv hok hrest hquiet
    refine ⟨u, k, hk, by rw [hkwin, hwin]; rfl, hku, hkrest, fun n => ?_⟩
    rw [List.length_cons, Nat.add_right_comm, loopUntil_go (hgo hno), hloop]

/-- A string that is quiet up to its last bit, which completes the header. -/
theorem scan_header {x rest : BitString} {b : Bool} (hu : unread t = x ++ b :: rest)
    (hq : quiet s.cfg.windowBits s.rom.head f.win x = true)
    (hshow : showsHeader s.rom.head (windowAfter s.cfg.windowBits f.win (x ++ [b])) = true) :
    ∃ n u g, loopUntil leadInRound n t = some u ∧ Decodes s u g ∧ g.fstate = .inMessage ∧
      flags g = (true, false, false, true, .unset) ∧ u.out = s.out ∧ readerOk u ∧ unread u = rest := by
  obtain ⟨v, g, hv, hwin, hok, hrest, hloop⟩ := scan_quiet hscan hlimit ht hu hq
  obtain ⟨u, k, hk, hkwin, hku, hkrest, -, hstop⟩ := scan_bit hv hlimit hok hrest
  have hyes : showsHeader s.rom.head k.win = true := by
    rw [hkwin, hwin]
    rwa [windowAfter_append] at hshow
  exact ⟨x.length + 1, _, _, (hloop 1).trans (loopUntil_stop (hstop hyes) 0), hk.toDecodes.regs rfl rfl, rfl,
    flags_header hk.untouched _, hk.out, hku, hkrest⟩

end

/-! ## The message -/

/-- A code and its pad bit 0, read in a message. -/
theorem symbol_padded {s : State} {n c : Nat} {str rest : BitString} (hfib : s.rom.fib = fibRom n) (hn : 4 ≤ n)
    (hs : readerOk s) (hcode : fibCode (fibRom n) c = some str) (hu : unread s = str ++ [false] ++ rest) :
    ∃ v, (decodeSym .strict s).value = some c ∧ readPad (decodeSym .strict s).after = (some false, v) ∧
      onlyStrictReader s v ∧ readerOk v ∧ unread v = rest := by
  rw [List.append_assoc] at hu
  obtain ⟨t, hreads, hpad⟩ := reads_of_unread hs hu
  have hdecode := decodeSym_of_code hfib hn (hfib ▸ hcode) hreads
  have hplain := decodeSym_plainProgress .strict s
  rw [hdecode] at hplain
  obtain ⟨v, hbit, hrest, hv, -⟩ := getBitTry_cons (hplain.reader hs) hpad
  refine ⟨v, by rw [hdecode], ?_, onlyStrictReader_trans hreads.onlyStrictReader (getBitTry_onlyStrictReader hbit), hv, hrest⟩
  rw [hdecode]
  exact readPad_eq (pad := some false) hbit (fun h => by cases h)

/-- Every byte's codeword at REFCFG is the code of its codepoint, which is no sentinel. -/
theorem refRom_codepoint (b : Byte) : ∃ c, c ≠ refCfg.frameHead ∧ c ≠ refCfg.frameFoot ∧ backwardByte refRom c = some b ∧
    fibCode (fibRom refCfg.fibLen) c = some (codewordBits (forwardWord refRom b)) := by
  obtain ⟨c, s, hback, hcode, -, hword⟩ := refTable.codepoint b
  have hhead : backwardByte refRom refCfg.frameHead = none := by decide +kernel
  have hfoot : backwardByte refRom refCfg.frameFoot = none := by decide +kernel
  refine ⟨c, ?_, ?_, hback, by rw [hword, codewordBits_codewordOf, hcode]⟩
  · rintro rfl
    cases hhead.symm.trans hback
  · rintro rfl
    cases hfoot.symm.trans hback

theorem refRom_foot : fibCode (fibRom refCfg.fibLen) refCfg.frameFoot = some (codewordBits refRom.foot) := by decide +kernel

/-- A message that goes on at REFCFG, with a sound reader. -/
structure RefMessage (s : State) (f : FrameRegs) : Prop where
  cfg : s.cfg = refCfg
  rom : s.rom = refRom
  reader : readerOk s
  frame : s.frame = some f
  flags : flags f = (true, false, false, true, .unset)

section
variable {s : State} {f : FrameRegs} (h : RefMessage s f)
include h

/-- The codeword of a byte is emitted. -/
theorem message_byte {b : Byte} {rest : BitString} (hu : unread s = paddedBits (forwardWord refRom b) ++ rest) :
    ∃ t g, messageRound s = (true, t) ∧ RefMessage t g ∧ t.out = s.out ++ [b] ∧ unread t = rest := by
  obtain ⟨c, hhead, hfoot, hback, hcode⟩ := refRom_codepoint b
  obtain ⟨v, hc, hpad, honly, hv, hrest⟩ := symbol_padded (h.rom ▸ refTable.fib) refTable.fibLen h.reader hcode hu
  have hcfg : v.cfg = refCfg := by rw [honly]; exact h.cfg
  have hrom : v.rom = refRom := by rw [honly]; exact h.rom
  have hframe : v.frame = some f := by rw [honly]; exact h.frame
  have hout : v.out = s.out := by rw [honly]
  have hk := classify_byte hframe (hcfg ▸ hhead) (hcfg ▸ hfoot) (hrom ▸ hback)
  exact ⟨_, _, (messageRound_open hc hpad hk rfl).1 rfl, ⟨hcfg, hrom, hv, rfl, h.flags⟩, congrArg (· ++ [b]) hout, hrest⟩

/-- The footer ends the message. -/
theorem message_footer {rest : BitString} (hu : unread s = paddedBits refRom.foot ++ rest) :
    ∃ t g, messageRound s = (false, t) ∧ t.frame = some g ∧ flags g = (true, true, false, true, .footer) ∧
      t.out = s.out ∧ unread t = rest := by
  obtain ⟨v, hc, hpad, honly, -, hrest⟩ := symbol_padded (h.rom ▸ refTable.fib) refTable.fibLen h.reader refRom_foot hu
  have hcfg : v.cfg = refCfg := by rw [honly]; exact h.cfg
  have hframe : v.frame = some f := by rw [honly]; exact h.frame
  have hout : v.out = s.out := by rw [honly]
  have hk := classify_footer hframe (c := refCfg.frameFoot) (by rw [hcfg]; decide) (by rw [hcfg])
  have hclean : f.clean = true := congrArg (fun p => p.2.2.2.1) h.flags
  refine ⟨_, _, messageRound_stopped hc hpad hk rfl, rfl, ?_, hout, hrest⟩
  rw [flags_footer h.flags, hclean]
  rfl

end

/-- The payload and the footer of a frame are received. -/
theorem message_payload {s : State} {f : FrameRegs} (h : RefMessage s f) {p : List Byte} {rest : BitString}
    (hu : unread s = p.flatMap (fun b => paddedBits (forwardWord refRom b)) ++ (paddedBits refRom.foot ++ rest)) :
    ∃ n t g, loopUntil messageRound n s = some t ∧ t.frame = some g ∧ flags g = (true, true, false, true, .footer) ∧
      t.out = s.out ++ p ∧ unread t = rest := by
  induction p generalizing s f with
  | nil =>
    obtain ⟨t, g, hround, hframe, hflags, hout, hrest⟩ := message_footer h hu
    exact ⟨1, t, g, loopUntil_stop hround 0, hframe, hflags, by rw [hout, List.append_nil], hrest⟩
  | cons b p ih =>
    rw [List.flatMap_cons, List.append_assoc] at hu
    obtain ⟨u, k, hround, hk, hout, hrest⟩ := message_byte h hu
    obtain ⟨n, t, g, hloop, hframe, hflags, hout', hrest'⟩ := ih hk hrest
    exact ⟨n + 1, t, g, (loopUntil_go hround n).trans hloop, hframe, hflags, by rw [hout', hout]; simp, hrest'⟩

/-! ## The line fill -/

/-- `n` bits of a line that repeats a byte. -/
def fillBits (f : Byte) (n : Nat) : BitString :=
  (List.range n).map (fun k => f.getLsbD (7 - k % 8))

/-- The constant and the alternating fills (43_framing.md R237). -/
def fillBytes : List Byte :=
  [0x00, 0xFF, 0xAA, 0x55]

@[simp] theorem fillBits_length (f : Byte) (n : Nat) : (fillBits f n).length = n := by
  rw [fillBits, List.length_map, List.length_range]

theorem fillBits_succ (f : Byte) (n : Nat) : fillBits f (n + 1) = fillBits f n ++ [f.getLsbD (7 - n % 8)] := by
  rw [fillBits, List.range_succ, List.map_append]
  rfl

/-- Whole bytes of fill. -/
theorem fillBits_bytes (f : Byte) (n : Nat) : fillBits f (8 * n) = (List.replicate n f).flatMap byteBits := by
  have hbyte : byteBits f = (List.range 8).map (fun k => f.getLsbD (7 - k)) := rfl
  induction n with
  | zero => rfl
  | succ n ih =>
    rw [List.replicate_succ', List.flatMap_append, ← ih, List.flatMap_singleton, hbyte, fillBits, Nat.mul_succ, List.range_add,
      List.map_append, List.map_map]
    refine congrArg (fillBits f (8 * n) ++ ·) (List.map_congr_left fun k hk => ?_)
    have := List.mem_range.mp hk
    exact congrArg f.getLsbD (show 7 - (8 * n + k) % 8 = 7 - k by omega)

/-- The window behind `n` bits of fill, at REFCFG. -/
def fillWindow (f : Byte) (n : Nat) : Nat :=
  windowAfter refCfg.windowBits 0 (fillBits f n)

theorem fillWindow_succ (f : Byte) (n : Nat) :
    fillWindow f (n + 1) = pushBit refCfg.windowBits (fillWindow f n) (f.getLsbD (7 - n % 8)) := by
  rw [fillWindow, fillBits_succ, windowAfter_append]
  rfl

/-- Once the fill has passed through the window, the windows repeat with the fill. -/
theorem fillWindow_repeats : ∀ f ∈ fillBytes, fillWindow f 25 = fillWindow f 17 := by decide +kernel

theorem fillWindow_early {f : Byte} (hf : f ∈ fillBytes) (n : Nat) :
    ∃ m < 25, m % 8 = n % 8 ∧ fillWindow f n = fillWindow f m := by
  induction n with
  | zero => exact ⟨0, by decide, rfl, rfl⟩
  | succ n ih =>
    obtain ⟨m, hm, hmod, hwin⟩ := ih
    have hnext : fillWindow f (n + 1) = fillWindow f (m + 1) := by rw [fillWindow_succ, fillWindow_succ, hwin, hmod]
    by_cases hlast : m + 1 = 25
    · refine ⟨17, by decide, by omega, ?_⟩
      rw [hnext, hlast, fillWindow_repeats f hf]
    · exact ⟨m + 1, by omega, by omega, hnext⟩

/-- In no window over a fill does a further bit of it complete the header, and neither do the header's bits but its pad bit. -/
theorem fillWindow_quiet : ∀ f ∈ fillBytes, ∀ m < 25,
    showsHeader refRom.head (pushBit refCfg.windowBits (fillWindow f m) (f.getLsbD (7 - m % 8))) = false ∧
    quiet refCfg.windowBits refRom.head (fillWindow f m) (codewordBits refRom.head) = true ∧
    showsHeader refRom.head (windowAfter refCfg.windowBits (fillWindow f m) (paddedBits refRom.head)) = true := by
  decide +kernel

theorem fillBits_quiet {f : Byte} (hf : f ∈ fillBytes) (n : Nat) :
    quiet refCfg.windowBits refRom.head 0 (fillBits f n) = true := by
  induction n with
  | zero => rfl
  | succ n ih =>
    obtain ⟨m, hm, hmod, hwin⟩ := fillWindow_early hf n
    obtain ⟨hno, -⟩ := fillWindow_quiet f hf m hm
    rw [← hwin, hmod] at hno
    rw [fillBits_succ, quiet_append, ih, Bool.true_and, ← fillWindow]
    simp [quiet, hno]

/-! ## The decode -/

theorem refRom_length_le (b : Byte) : (forwardWord refRom b).length ≤ 14 := by
  revert b
  decide +kernel

theorem frameString_refRom_length (p : List Byte) :
    32 ≤ (frameString refRom p).length ∧ (frameString refRom p).length ≤ 15 * p.length + 32 := by
  have hsum : (p.map (fun b => (forwardWord refRom b).length + 1)).sum ≤ p.length * 15 := by
    rw [← smul_eq_mul, ← List.length_map (fun b => (forwardWord refRom b).length + 1)]
    refine List.sum_le_card_nsmul _ _ fun k hk => ?_
    obtain ⟨b, -, rfl⟩ := List.mem_map.mp hk
    exact Nat.succ_le_succ (refRom_length_le b)
  have hhead : refRom.head.length = 15 := rfl
  have hfoot : refRom.foot.length = 15 := rfl
  rw [frameString_length, frameBits]
  omega

/-- The lead-in over a line fill finds the header of a frame behind it. -/
theorem leadIn_filled {f : Byte} (hf : f ∈ fillBytes) {s : State} (hcfg : s.cfg = refCfg) (hrom : s.rom = refRom)
    (hlimit : s.leadinLimit = 0) (hs : readerOk s) {n : Nat} {rest : BitString}
    (hu : unread s = fillBits f n ++ (paddedBits refRom.head ++ rest)) :
    ∃ k u g, loopUntil leadInRound k (setFrame (startRegs s.bitsRead) s) = some u ∧ g.fstate = .inMessage ∧
      RefMessage u g ∧ u.out = s.out ∧ unread u = rest := by
  obtain ⟨k, hscan, -⟩ := scans_start s
  obtain rfl : startRegs s.bitsRead = k := Option.some.inj hscan.frame
  obtain ⟨m, hm, -, hwin⟩ := fillWindow_early hf n
  obtain ⟨-, hquiet, hshow⟩ := fillWindow_quiet f hf m hm
  rw [← hwin] at hquiet hshow
  have hu' : unread (setFrame (startRegs s.bitsRead) s) = (fillBits f n ++ codewordBits refRom.head) ++ false :: rest := by
    refine hu.trans ?_
    simp [paddedBits]
  have hquiet' : quiet s.cfg.windowBits s.rom.head 0 (fillBits f n ++ codewordBits refRom.head) = true := by
    rw [hcfg, hrom, quiet_append]
    exact Bool.and_eq_true_iff.mpr ⟨fillBits_quiet hf n, hquiet⟩
  have hshow' : showsHeader s.rom.head
      (windowAfter s.cfg.windowBits 0 ((fillBits f n ++ codewordBits refRom.head) ++ [false])) = true := by
    rw [hcfg, hrom, List.append_assoc, windowAfter_append]
    exact hshow
  obtain ⟨k, u, g, hloop, hdec, hstate, hflags, hout, hok, hrest⟩ := scan_header hscan hlimit hs hu' hquiet' hshow'
  obtain ⟨hcfg', hrom', -⟩ := hdec.launch
  exact ⟨k, u, g, hloop, hstate, ⟨hcfg'.trans hcfg, hrom'.trans hrom, hok, hdec.frame, hflags⟩, hout, hrest⟩

/-- The state after reset at REFCFG with the bytes of IN given. -/
def resetWith (inp : List Byte) : State :=
  { State.reset with inp := inp }

theorem resetWith_readerOk {inp : List Byte} (h : inp.length < 2 ^ 32) : readerOk (resetWith inp) :=
  readerOk_of_start h rfl rfl

theorem resetWith_unread (inp : List Byte) : unread (resetWith inp) = inp.flatMap byteBits :=
  unread_of_start rfl rfl

/-- A frame behind any number of bits of a line fill, from reset: the payload is recovered, and what stands behind is left. -/
theorem decode_filled_frame {f : Byte} (hf : f ∈ fillBytes) {n : Nat} {p inp : List Byte} {rest : BitString}
    (hlen : inp.length < 2 ^ 32) (hfit : n + (frameString refRom p).length < 2 ^ 32)
    (hinp : inp.flatMap byteBits = fillBits f n ++ frameString refRom p ++ rest) :
    ∃ u, exec .frmDecode (resetWith inp) = .next u ∧ u.out = p ∧
      u.msgBits = BitVec.ofNat 32 (n + (frameString refRom p).length) ∧
      u.msg = ⟨true, true, true, false, true, .footer⟩ ∧ unread u = rest := by
  have hs := resetWith_readerOk hlen
  have hunread := (resetWith_unread inp).trans hinp
  have hparts : unread (resetWith inp) = fillBits f n ++ (paddedBits refRom.head ++
      (p.flatMap (fun b => paddedBits (forwardWord refRom b)) ++ (paddedBits refRom.foot ++ rest))) := by
    rw [hunread]
    simp only [frameString_eq, List.append_assoc]
  obtain ⟨k, u, g, hlead, hstate, hmessage, hout, hrest⟩ := leadIn_filled hf rfl rfl rfl hs hparts
  obtain ⟨m, v, e, hloop, hframe, hflags, hout', hrest'⟩ := message_payload hmessage hrest
  have hin : (u.frame.map (·.fstate)) = some .inMessage := by rw [hmessage.frame, Option.map_some, hstate]
  have hexec := frmDecodeRunsItsRounds (resetWith inp) u v k m _ e hlen rfl rfl hlead (by rwa [if_pos hin]) hframe
  obtain ⟨-, ⟨x, hx, hbits⟩, -⟩ := frmDecodeTakesBitsFromTheFront _ _ hs rfl hexec
  have hx' : x = fillBits f n ++ frameString refRom p :=
    List.append_cancel_right ((hx.symm.trans hunread).trans (congrArg _ hrest'.symm))
  rw [hx', List.length_append, fillBits_length] at hbits
  have hbits' : v.bitsRead - (resetWith inp).bitsRead = BitVec.ofNat 32 (n + (frameString refRom p).length) := hbits
  refine ⟨_, hexec, hout'.trans (by rw [hout]; rfl), hbits, ?msg, hrest'⟩
  case msg =>
    obtain ⟨hmin, -⟩ := frameString_refRom_length p
    have hvalid : (resetWith inp).cfg.minValidBits ≤ (BitVec.ofNat 32 (n + (frameString refRom p).length)).toNat := by
      show 32 ≤ _
      rw [BitVec.toNat_ofNat]
      omega
    simp only [flags, Prod.mk.injEq] at hflags
    obtain ⟨hh, hft, hr, hc, he⟩ := hflags
    simp only [hbits', hh, hft, hr, hc, he, decide_eq_true hvalid, Bool.and_true]

/-! ## The statements -/

/-- What FRM_ENCODE writes from reset: the frame's bits, with zeros up to a byte. -/
theorem exec_frmEncode_reset {p : List Byte} (hp : p.length < 2 ^ 32) :
    ∃ t, exec .frmEncode (resetWith p) = .next t ∧
      t.out.flatMap byteBits = frameString refRom p ++ fillZeros (frameString refRom p).length := by
  obtain ⟨hencode, -⟩ := frmEncodeWritesTheFrame (resetWith p) hp (Nat.zero_le _)
  obtain ⟨t, hexec, -, -, -, hbits⟩ := hencode rfl
  have hwriter : writerOk (resetWith p) := rfl
  have hcnt : (resetWith p).wrCnt.toNat = 0 := rfl
  have hrom : (resetWith p).rom = refRom := rfl
  have hpayload : (resetWith p).inp.drop (resetWith p).inPos.toNat = p := rfl
  have hwritten : written (resetWith p) = [] := rfl
  refine ⟨t, hexec, ?_⟩
  rw [hbits hwriter, hcnt, hrom, hpayload, hwritten, Nat.zero_add, List.nil_append]

/-- The bytes written are as many as the bits ask for. -/
theorem encoded_length {t : State} {p : List Byte}
    (h : t.out.flatMap byteBits = frameString refRom p ++ fillZeros (frameString refRom p).length) :
    8 * t.out.length ≤ 15 * p.length + 39 := by
  obtain ⟨-, hmax⟩ := frameString_refRom_length p
  have hlength := congrArg List.length h
  rw [flatMap_byteBits_length, List.length_append, fillZeros, List.length_replicate] at hlength
  omega

/-- Settles O54: the frame behind the fill, at any bit; and whole bytes of fill are its bits. -/
theorem lineFillDoesNotDisturbTheFrame : Obligations.LineFillDoesNotDisturbTheFrame := by
  intro f n p hf hp hn
  obtain ⟨-, hmax⟩ := frameString_refRom_length p
  refine ⟨fun inp rest hlen hinp => decode_filled_frame hf hlen (by omega) hinp, fun suffix hsuffix => ?bytes⟩
  case bytes =>
    obtain ⟨t, hencode, hbits⟩ := exec_frmEncode_reset (p := p) (by omega)
    have hout := encoded_length hbits
    have hinp : (List.replicate n f ++ t.out ++ suffix).flatMap byteBits = fillBits f (8 * n) ++ frameString refRom p ++
        (fillZeros (frameString refRom p).length ++ suffix.flatMap byteBits) := by
      simp only [List.flatMap_append, fillBits_bytes, hbits, List.append_assoc]
    obtain ⟨u, hdecode, hpayload, hmsgBits, hmsg, -⟩ := decode_filled_frame hf (by simp; omega) (by omega) hinp
    exact ⟨t, u, hencode, hdecode, hpayload, hmsgBits, hmsg⟩

/-- Settles O53: no fill stands before the frame, and the zeros of the flush stand behind it. -/
theorem framingRoundTrip : Obligations.FramingRoundTrip := by
  intro p hp
  obtain ⟨-, hmax⟩ := frameString_refRom_length p
  obtain ⟨t, hencode, hbits⟩ := exec_frmEncode_reset (p := p) (by omega)
  have hout := encoded_length hbits
  have hlen : t.out.length < 2 ^ 32 := by omega
  obtain ⟨u, hdecode, hpayload, hmsgBits, hmsg, -⟩ :=
    decode_filled_frame (f := 0x00) (n := 0) (rest := fillZeros _) (by decide) hlen (by omega) hbits
  obtain ⟨hreport, -⟩ := frmDecodeCompletesWithItsReport (resetWith t.out) hlen
  obtain ⟨u', hdecode', hframe, -⟩ := hreport rfl
  obtain rfl : u = u' := Host.Outcome.next.inj (hdecode.symm.trans hdecode')
  have hres0 : u.res0 = BitVec.ofNat 32 u.out.length := by
    rw [hframe]
    rfl
  exact ⟨t, u, hencode, hdecode, hpayload, hres0.trans (by rw [hpayload]), by rw [hmsgBits, Nat.zero_add], hmsg⟩

end Sys2Proof.Proofs
end

/-! # Proofs: frames written out (43_framing.md R236; 95_test_vectors.md F3 to F12)

Runs of the model on fixed inputs: what a command leaves is evaluated, as far as a statement asks for it. -/
section
namespace Sys2Proof.Proofs

open Sys2Proof Sys2Proof.Machine

/-- What a command that completes leaves, seen through `g`. -/
def seen {α : Type} (g : State → α) : Host.Outcome State Fault Refusal → Option α
  | .next t => some (g t)
  | .fault _ => none
  | .refused _ => none

theorem next_of_seen {α : Type} {g : State → α} {o : Host.Outcome State Fault Refusal} {a : α} (h : seen g o = some a) :
    ∃ t, o = .next t ∧ g t = a := by
  cases o with
  | next t => exact ⟨t, rfl, Option.some.inj h⟩
  | fault f => cases h
  | refused r => cases h

/-- OUT and RES0 of the empty frame's encoding. -/
theorem encode_empty : seen (fun t => (t.out, t.res0)) (exec .frmEncode State.reset) =
    some ([0x14, 0x86, 0x54, 0x86], 32) := by decide +kernel

/-- Settles O55: the encoding is evaluated, and its decode is the round trip of the empty payload. -/
theorem emptyFrameIsValid : Obligations.EmptyFrameIsValid := by
  have hstring : frameString refRom [] = bits 0x14865486 32 := by decide +kernel
  obtain ⟨t, hencode, ht⟩ := next_of_seen encode_empty
  obtain ⟨hout, hres0⟩ := Prod.mk.inj ht
  obtain ⟨t', u, hencode', hdecode, -, -, hbits, hmsg⟩ := framingRoundTrip [] (by decide)
  obtain rfl : t = t' := Host.Outcome.next.inj (hencode.symm.trans hencode')
  rw [hstring, bits_length] at hbits
  exact ⟨hstring, rfl, t, u, hencode, hout, hres0, hdecode, hbits, by rw [hmsg]⟩

/-- Settles O59: each decode is evaluated. -/
theorem damagedFramesAtReset : Obligations.DamagedFramesAtReset := by
  intro row hrow
  have hseen : seen (fun t => (readReg .msgResult t, t.msgBits, t.out)) (exec .frmDecode { State.reset with inp := row.1 }) =
      some row.2 := by
    revert row
    decide +kernel
  obtain ⟨t, hexec, ht⟩ := next_of_seen hseen
  exact ⟨t, hexec, congrArg (·.1) ht, congrArg (·.2.1) ht, congrArg (·.2.2) ht⟩

end Sys2Proof.Proofs
end

/-! # Proofs: completion codes (60_exceptions.md R260, R261)

`Fails s i t` lists the ways a command can complete with a code other than OK, each with the state it leaves.
`exec_ok_or_fails` says that there are no others; what R260 says of each code is then read off the list. -/
section
namespace Sys2Proof.Proofs

open Sys2Proof Sys2Proof.Machine

/-- The command `i`, launched in `s`, completes with a code other than OK and leaves `t` (60_exceptions.md R260). -/
inductive Fails (s : State) : Instr → State → Prop
  /-- WRITE_PATTERN with a length above 32 (40_bitchannel.md R128). -/
  | longPattern (h : 32 < s.arg1.toNat) : Fails s .writePattern (finish .illegal s)
  /-- A bit read with no bit left (40_bitchannel.md R130, R131). -/
  | noBit (m : ReadMode) : Fails s (readInstr m) (finish .exhausted (setRes0 noValue s))
  /-- A decode whose symbol has no value: the data ended, or the terminator did not come (41_fibonacci.md R155). -/
  | noSymbol (m : ReadMode) {t : State} (hcode : t.code = .exhausted ∨ t.code = .overrun) (hres0 : t.res0 = 0xFFFFFFFF)
      (hcount : t.bitsRead = s.bitsRead + t.res1) : Fails s (decodeInstr m) t
  /-- FIB_ENCODE of a value without a code (41_fibonacci.md R160). -/
  | noCode : Fails s .fibEncode (finish .range (setResults noValue 0 s))
  /-- FRM_ENCODE with bits cached in the reader (43_framing.md R212). -/
  | bitsCached (h : s.rdMask ≠ 0) : Fails s .frmEncode (finish .align s)
  /-- FRM_DECODE with bits pending in the writer (43_framing.md R220). -/
  | bitsPending (h : s.wrCnt ≠ 0) : Fails s .frmDecode (finish .align s)
  /-- TBL_BACKWARD of a codepoint that no byte value is assigned to (42_codetable.md R191). -/
  | unassigned : Fails s .tblBackward (finish .invalid (setRes0 noValue s))

section
variable {s t : State}

theorem exec_readInstr_ok_or_fails {m : ReadMode} (h : exec (readInstr m) s = .next t) :
    t.code = .ok ∨ Fails s (readInstr m) t := by
  cases (exec_readInstr m s).symm.trans h
  cases getBit m s with
  | none => exact .inr (.noBit m)
  | some r => exact .inl rfl

theorem exec_decodeInstr_ok_or_fails {m : ReadMode} (h : exec (decodeInstr m) s = .next t) :
    t.code = .ok ∨ Fails s (decodeInstr m) t := by
  obtain ⟨u, hexec, hframe, hend⟩ := exec_decodeInstr_frame m s
  obtain rfl : u = t := Host.Outcome.next.inj (hexec.symm.trans h)
  exact hend.imp_right fun ⟨hres0, hcode⟩ => .noSymbol m hcode hres0 (congrArg State.bitsRead hframe)

/-- Every command completes with OK or in one of the listed ways. -/
theorem exec_ok_or_fails {i : Instr} (h : exec i s = .next t) : t.code = .ok ∨ Fails s i t := by
  cases i with
  | nop | writeBit | flush | rewind | tblForward =>
    cases h
    exact .inl rfl
  | writePattern =>
    by_cases hlong : 32 < s.arg1.toNat
    · cases (exec_writePattern_long hlong).symm.trans h
      exact .inr (.longPattern hlong)
    · cases (exec_writePattern (Nat.not_lt.mp hlong)).symm.trans h
      exact .inl rfl
  | readBit => exact exec_readInstr_ok_or_fails (m := .runout) h
  | tryReadBit => exact exec_readInstr_ok_or_fails (m := .strict) h
  | fibEncode =>
    cases hcode : fibCode s.rom.fib s.arg0.toNat with
    | none =>
      cases (exec_fibEncode_range hcode).symm.trans h
      exact .inr .noCode
    | some str =>
      cases (exec_fibEncode_code hcode).symm.trans h
      exact .inl rfl
  | fibDecode => exact exec_decodeInstr_ok_or_fails (m := .runout) h
  | fibTryDecode => exact exec_decodeInstr_ok_or_fails (m := .strict) h
  | tblBackward =>
    cases hbyte : backwardByte s.rom s.arg0.toNat with
    | none =>
      cases (exec_tblBackward_none hbyte).symm.trans h
      exact .inr .unassigned
    | some b =>
      cases (exec_tblBackward_some hbyte).symm.trans h
      exact .inl rfl
  | frmEncode =>
    by_cases hmask : s.rdMask = 0
    · cases (exec_frmEncode hmask).symm.trans h
      exact .inl rfl
    · cases (exec_frmEncode_align hmask).symm.trans h
      exact .inr (.bitsCached hmask)
  | frmDecode =>
    obtain ⟨hcnt, rfl⟩ | ⟨-, u, -, rfl⟩ := execFrmDecode_cases h
    · exact .inr (.bitsPending hcnt)
    · exact .inl rfl

end

theorem readInstr_eq (m : ReadMode) : readInstr m = .readBit ∨ readInstr m = .tryReadBit := by
  cases m <;> simp [readInstr]

theorem decodeInstr_eq (m : ReadMode) : decodeInstr m = .fibDecode ∨ decodeInstr m = .fibTryDecode := by
  cases m <;> simp [decodeInstr]

/-- Settles O21: a command that does not complete with OK fails in one of the listed ways, and each way carries one code. -/
theorem completionCodesOfEachCommand : Obligations.CompletionCodesOfEachCommand := by
  intro i s t h
  obtain hok | hfails := exec_ok_or_fails h
  case inl => simp [hok]
  case inr =>
    cases hfails with
    | longPattern hlong => exact ⟨fun _ => ⟨rfl, hlong, rfl, rfl⟩, nofun, nofun, nofun, nofun, nofun⟩
    | noBit m => exact ⟨nofun, fun _ => .inl ⟨readInstr_eq m, rfl, rfl, rfl⟩, nofun, nofun, nofun, nofun⟩
    | noSymbol m hcode hres0 hcount =>
      obtain hexhausted | hoverrun := hcode
      · simp [hexhausted, decodeInstr_eq m, hres0, hcount]
      · simp [hoverrun, decodeInstr_eq m, hres0, hcount]
    | noCode => exact ⟨nofun, nofun, nofun, fun _ => ⟨rfl, rfl, rfl⟩, nofun, nofun⟩
    | bitsCached hmask => exact ⟨nofun, nofun, nofun, nofun, fun _ => ⟨.inl ⟨rfl, hmask⟩, rfl, rfl⟩, nofun⟩
    | bitsPending hcnt => exact ⟨nofun, nofun, nofun, nofun, fun _ => ⟨.inr ⟨rfl, hcnt⟩, rfl, rfl⟩, nofun⟩
    | unassigned => exact ⟨nofun, nofun, nofun, nofun, nofun, fun _ => ⟨rfl, rfl, rfl⟩⟩

end Sys2Proof.Proofs
end

/-! # Proofs: reset and the accesses under a command (70_reset_and_hazards.md R290, R291, R300, R307)

The reset input and the store to CMD are read off the laws of the step. For what the host does while BUSY = 1, `logged` gives the
host's record of its loads another value: it commutes with every operation a command is made of, so a command runs the same
under any record. -/
section
namespace Sys2Proof.Proofs

open Sys2Proof Sys2Proof.Machine

/-! ## Every command ends -/

/-- The loops of FRM_DECODE are the only ones that could run out of their bound (70_reset_and_hazards.md R307). -/
theorem exec_isNext (i : Instr) {s : State} (h : s.inp.length < 2 ^ 32) : ∃ t, exec i s = .next t := by
  cases i with
  | nop | writeBit | flush | readBit | tryReadBit | rewind | fibEncode | fibDecode | fibTryDecode | tblForward =>
    exact ⟨_, rfl⟩
  | writePattern =>
    rcases Nat.lt_or_ge 32 s.arg1.toNat with hlong | hfits
    · exact ⟨_, exec_writePattern_long hlong⟩
    · exact ⟨_, exec_writePattern hfits⟩
  | tblBackward =>
    cases hbyte : backwardByte s.rom s.arg0.toNat with
    | none => exact ⟨_, exec_tblBackward_none hbyte⟩
    | some b => exact ⟨_, exec_tblBackward_some hbyte⟩
  | frmEncode =>
    by_cases hmask : s.rdMask = 0
    · exact ⟨_, exec_frmEncode hmask⟩
    · exact ⟨_, exec_frmEncode_align hmask⟩
  | frmDecode =>
    by_cases hcnt : s.wrCnt = 0
    · obtain ⟨u, hu⟩ := decodePhases_isSome h
      exact ⟨_, execFrmDecode_decoded hcnt hu⟩
    · exact ⟨_, execFrmDecode_align hcnt⟩

/-- Settles O17: every command has a next state, and every command ends idle. -/
theorem everyCommandCompletes : Obligations.EveryCommandCompletes := by
  intro i s hlen
  obtain ⟨t, ht⟩ := exec_isNext i hlen
  obtain ⟨hidle, -⟩ := exec_ends ht
  exact ⟨t, ht, hidle⟩

/-! ## The reset input -/

/-- Settles O11: the fields of the reset state, one by one; the bytes of OUT move to those the host already has. -/
theorem hostResetRestoresTheRegisters : Obligations.HostResetRestoresTheRegisters := by
  intro s rest h
  exact ⟨_, step_reset h, rfl, rfl, rfl, rfl, rfl, rfl, rfl, rfl, rfl, rfl, rfl, rfl, rfl, rfl, rfl, rfl, rfl, rfl, rfl, rfl,
    rfl, rfl, ⟨rfl, rfl, rfl⟩, hostReset_delivered { s with host := rest }⟩

/-- A store to CMD while idle, and what the host does while its command runs (30_encoding.md R90). -/
theorem step_overlapped_command {s t : State} {w : Word} {i : Instr} {during : List Access} {abandoned : Option Nat}
    {rest : List HostAction} (hidle : s.busy = false)
    (h : s.host = .overlapped .word (s.cfg.regBase + 0x04) w during abandoned :: rest) (hi : decode w = .ok i)
    (haccesses : performAccesses during (setBusy { s with host := rest }) = .next t) :
    step s = abandonStore abandoned t (exec i (setBusy t)) := by
  rw [step_overlapped h (by decide) (by decide), ← launchCommand_of_ok hi, overlappedStore, if_pos ⟨rfl, hidle⟩, haccesses]

/-- Settles O12: an abandoned command leaves the reset of the state it found, with the first of its bytes in OUT. -/
theorem resetInsideACommandKeepsOnlyAppendedBytes : Obligations.ResetInsideACommandKeepsOnlyAppendedBytes := by
  intro s u w i n rest hidle h hi hexec
  have hrun : exec i (setBusy (setBusy { s with host := rest })) = .next u := hexec
  have hstep : step s = .next (abandonCommand n (setBusy { s with host := rest }) u) := by
    rw [step_overlapped_command hidle h hi rfl, hrun]
    rfl
  obtain ⟨hlaunch, hkept⟩ := abandonCommand_keepsStreams n (exec_progress hrun).out
  exact ⟨_, hstep, rfl, hostReset_delivered _, hkept, rfl, rfl, rfl, rfl, rfl, rfl, rfl, rfl, rfl, rfl, rfl, rfl, rfl, rfl, rfl,
    rfl, hlaunch⟩

/-! ## The host's record -/

/-- The state with another record of the host's loads. -/
def logged (reads : List Word) (n : Nat) (s : State) : State :=
  { s with hostReads := reads, freeIx := n }

section
variable (reads : List Word) (n : Nat)

/-! ## The bit writer -/

theorem putString_logged (l : BitString) (s : State) :
    putString l (logged reads n s) = logged reads n (putString l s) := by
  induction l generalizing s with
  | nil => rfl
  | cons b l ih =>
    have hput : putBit b (logged reads n s) = logged reads n (putBit b s) := by
      unfold putBit
      rw [apply_ite (logged reads n)]
      rfl
    rw [putString, hput, ih, putString]

theorem flushOut_logged (s : State) : flushOut (logged reads n s) = logged reads n (flushOut s) := by
  unfold flushOut
  rw [apply_ite (logged reads n)]
  rfl

theorem encoded_logged (s : State) : encoded (logged reads n s) = logged reads n (encoded s) := by
  have hput := putString_logged reads n (frameString s.rom (payload s)) s
  unfold encoded
  rw [show frameString (logged reads n s).rom (payload (logged reads n s)) = frameString s.rom (payload s) from rfl, hput,
    flushOut_logged]
  rfl

/-! ## The bit reader -/

theorem getBitTry_logged (s : State) :
    getBitTry (logged reads n s) = (getBitTry s).map (Prod.map id (logged reads n)) := by
  by_cases hmask : s.rdMask = 0
  · cases hbyte : s.inp[s.inPos.toNat]? with
    | none =>
      rw [getBitTry_none (s := logged reads n s) hmask hbyte, getBitTry_none hmask hbyte]
      rfl
    | some x =>
      rw [getBitTry_fetch (s := logged reads n s) hmask hbyte, getBitTry_fetch hmask hbyte]
      rfl
  · rw [getBitTry_cached (s := logged reads n s) hmask, getBitTry_cached hmask]
    rfl

theorem getBit_logged (m : ReadMode) (s : State) :
    getBit m (logged reads n s) = (getBit m s).map (Prod.map id (logged reads n)) := by
  cases m with
  | strict => exact getBitTry_logged reads n s
  | runout =>
    have hbit := getBitTry_logged reads n s
    cases htry : getBitTry s with
    | some r =>
      rw [getBit_of_getBitTry .runout htry]
      rw [htry] at hbit
      exact getBit_of_getBitTry .runout hbit
    | none =>
      rw [htry] at hbit
      show getBitRO (logged reads n s) = (getBitRO s).map _
      rw [getBitRO_of_getBitTry_none hbit, getBitRO_of_getBitTry_none htry, apply_ite (Option.map _)]
      rfl

/-- A symbol with another record in the state it leaves. -/
def loggedSymbol (y : Symbol) : Symbol :=
  { y with after := logged reads n y.after }

theorem decodeTerms_logged (m : ReadMode) (terms : List Nat) (acc : Nat) (prev : Bool) (k : Nat) (s : State) :
    decodeTerms m terms acc prev k (logged reads n s) = loggedSymbol reads n (decodeTerms m terms acc prev k s) := by
  induction terms generalizing acc prev k s with
  | nil =>
    rw [decodeTerms, decodeTerms, getBit_logged]
    cases getBit m s with
    | none => rfl
    | some r =>
      rw [apply_ite (loggedSymbol reads n)]
      rfl
  | cons f terms ih =>
    rw [decodeTerms, decodeTerms, getBit_logged]
    cases getBit m s with
    | none => rfl
    | some r =>
      rw [apply_ite (loggedSymbol reads n), ← ih]
      rfl

theorem decodeSym_logged (m : ReadMode) (s : State) :
    decodeSym m (logged reads n s) = loggedSymbol reads n (decodeSym m s) :=
  decodeTerms_logged reads n ..

/-! ## The frame decoder -/

theorem leadInRound_logged (s : State) :
    leadInRound (logged reads n s) = Prod.map id (logged reads n) (leadInRound s) := by
  have hbit := getBitTry_logged reads n s
  cases htry : getBitTry s with
  | none =>
    rw [htry] at hbit
    rw [leadInRound_none hbit, leadInRound_none htry]
    rfl
  | some r =>
    rw [htry] at hbit
    rw [leadInRound_some hbit, leadInRound_some htry, apply_ite (Prod.map id _), apply_ite (Prod.map id _)]
    rfl

theorem classify_logged (c : Nat) (s : State) :
    classify c (logged reads n s) = Prod.map id (logged reads n) (classify c s) := by
  have hrom : (logged reads n s).rom = s.rom := rfl
  unfold classify
  rw [hrom, apply_ite (Prod.map id _), apply_ite (Prod.map id _), apply_ite (Prod.map id _)]
  cases backwardByte s.rom c <;> rfl

theorem readPad_logged (s : State) : readPad (logged reads n s) = Prod.map id (logged reads n) (readPad s) := by
  unfold readPad
  rw [getBitTry_logged]
  cases getBitTry s <;> rfl

theorem padDamage_logged (pad : Option Bool) (stopped : Bool) (s : State) :
    padDamage pad stopped (logged reads n s) = logged reads n (padDamage pad stopped s) := by
  cases stopped <;> rfl

theorem paddedSymbol_logged (c : Nat) (s : State) :
    paddedSymbol c (logged reads n s) = Prod.map id (logged reads n) (paddedSymbol c s) := by
  unfold paddedSymbol
  simp only [readPad_logged, Prod.map_fst, Prod.map_snd, id, classify_logged, padDamage_logged, apply_ite (Prod.map id _)]
  rfl

theorem messageRound_logged (s : State) :
    messageRound (logged reads n s) = Prod.map id (logged reads n) (messageRound s) := by
  unfold messageRound
  rw [decodeSym_logged]
  obtain ⟨value, used, code, t⟩ := decodeSym .strict s
  cases value with
  | none => rfl
  | some c => exact paddedSymbol_logged reads n c t

theorem messagePhase_logged (s : State) :
    messagePhase (logged reads n s) = (messagePhase s).map (logged reads n) := by
  unfold messagePhase
  rw [apply_ite (Option.map (logged reads n)), ← loopUntil_commutes (messageRound_logged reads n)]
  rfl

theorem decodePhases_logged (s : State) :
    decodePhases (logged reads n s) = (decodePhases s).map (logged reads n) := by
  have hlead : leadInPhase (setFrame (startRegs (logged reads n s).bitsRead) (logged reads n s)) =
      (leadInPhase (setFrame (startRegs s.bitsRead) s)).map (logged reads n) :=
    loopUntil_commutes (leadInRound_logged reads n) _ (setFrame (startRegs s.bitsRead) s)
  rw [decodePhases, hlead, decodePhases]
  cases leadInPhase (setFrame (startRegs s.bitsRead) s) with
  | none => rfl
  | some t => exact messagePhase_logged reads n t

/-! ## The commands -/

variable {s t : State}

theorem exec_readInstr_logged {m : ReadMode} (h : exec (readInstr m) s = .next t) :
    exec (readInstr m) (logged reads n s) = .next (logged reads n t) := by
  cases (exec_readInstr m s).symm.trans h
  rw [exec_readInstr, getBit_logged]
  cases getBit m s <;> rfl

theorem exec_decodeInstr_logged {m : ReadMode} (h : exec (decodeInstr m) s = .next t) :
    exec (decodeInstr m) (logged reads n s) = .next (logged reads n t) := by
  cases (exec_decodeInstr m s).symm.trans h
  rw [exec_decodeInstr, decodeSym_logged]
  rfl

/-- A command runs the same, whatever the host has loaded. -/
theorem exec_logged {i : Instr} (h : exec i s = .next t) : exec i (logged reads n s) = .next (logged reads n t) := by
  cases i with
  | nop | rewind | tblForward =>
    cases h
    rfl
  | writeBit =>
    cases h
    exact congrArg (fun u => Host.Outcome.next (finish .ok u)) (putString_logged reads n [bitOperand s] s)
  | writePattern =>
    rcases Nat.lt_or_ge 32 s.arg1.toNat with hlong | hfits
    · cases (exec_writePattern_long hlong).symm.trans h
      exact exec_writePattern_long (s := logged reads n s) hlong
    · cases (exec_writePattern hfits).symm.trans h
      rw [exec_writePattern (s := logged reads n s) hfits]
      exact congrArg (fun u => Host.Outcome.next (finish .ok u)) (putString_logged reads n (bits s.arg0.toNat s.arg1.toNat) s)
  | flush =>
    cases h
    exact congrArg (fun u => Host.Outcome.next (finish .ok (setRes0 (BitVec.ofNat 32 (padBits s)) u))) (flushOut_logged reads n s)
  | readBit => exact exec_readInstr_logged reads n (m := .runout) h
  | tryReadBit => exact exec_readInstr_logged reads n (m := .strict) h
  | fibEncode =>
    cases hcode : fibCode s.rom.fib s.arg0.toNat with
    | none =>
      cases (exec_fibEncode_range hcode).symm.trans h
      exact exec_fibEncode_range (s := logged reads n s) hcode
    | some str =>
      cases (exec_fibEncode_code hcode).symm.trans h
      rw [exec_fibEncode_code (s := logged reads n s) hcode, putString_logged]
      rfl
  | fibDecode => exact exec_decodeInstr_logged reads n (m := .runout) h
  | fibTryDecode => exact exec_decodeInstr_logged reads n (m := .strict) h
  | tblBackward =>
    cases hbyte : backwardByte s.rom s.arg0.toNat with
    | none =>
      cases (exec_tblBackward_none hbyte).symm.trans h
      exact exec_tblBackward_none (s := logged reads n s) hbyte
    | some b =>
      cases (exec_tblBackward_some hbyte).symm.trans h
      exact exec_tblBackward_some (s := logged reads n s) hbyte
  | frmEncode =>
    by_cases hmask : s.rdMask = 0
    · cases (exec_frmEncode hmask).symm.trans h
      rw [exec_frmEncode (s := logged reads n s) hmask, encoded_logged]
    · cases (exec_frmEncode_align hmask).symm.trans h
      exact exec_frmEncode_align (s := logged reads n s) hmask
  | frmDecode =>
    obtain ⟨hcnt, rfl⟩ | ⟨hcnt, u, hu, rfl⟩ := execFrmDecode_cases h
    · exact execFrmDecode_align (s := logged reads n s) hcnt
    · exact execFrmDecode_decoded (s := logged reads n s) hcnt (by rw [decodePhases_logged, hu]; rfl)

end

/-! ## The accesses under a command -/

/-- Whatever the host does while BUSY = 1, the command leaves the state it leaves alone, but for the record
(70_reset_and_hazards.md R300). -/
theorem step_under_command {s t u : State} {w : Word} {i : Instr} {during : List Access} {rest : List HostAction}
    (hidle : s.busy = false) (h : s.host = .overlapped .word (s.cfg.regBase + 0x04) w during none :: rest)
    (hi : decode w = .ok i) (haccesses : performAccesses during (setBusy { s with host := rest }) = .next t)
    (hexec : exec i { s with host := rest, busy := true } = .next u) :
    step s = .next (logged t.hostReads t.freeIx u) := by
  have hrun := exec_logged t.hostReads t.freeIx hexec
  rw [step_overlapped_command hidle h hi haccesses, performAccesses_underCommand haccesses]
  exact hrun

theorem performAccesses_singleton (a : Access) (s : State) : performAccesses [a] s = performAccess a s := by
  unfold performAccesses
  cases performAccess a s <;> rfl

section
variable {s : State} {off : Nat} (ho : off < 256) (ha : off % 4 = 0)
include ho ha

theorem performAccesses_store_busy (hbusy : s.busy = true) (v : Word) :
    performAccesses [.store .word (s.cfg.regBase + off) v] s = .next s := by
  rw [performAccesses_singleton]
  exact (accessWindow_at s ho ha fun r => hostStore r v s).trans (hostStore_busy hbusy _ v)

theorem performAccesses_load :
    performAccesses [.load .word (s.cfg.regBase + off)] s = .next (hostLoad (regAt off) s) := by
  rw [performAccesses_singleton]
  exact accessWindow_at s ho ha fun r => .next (hostLoad r s)

end

/-- Below the reserved offsets every register but STATUS is free while BUSY (20_memory.md R74). -/
theorem freeWhileBusy_regAt : ∀ off < 0x44, off % 4 = 0 → off ≠ 0x18 → freeWhileBusy (regAt off) = true := by
  decide

theorem freeWhileBusy_reserved {off : Nat} (h : 0x44 ≤ off) : freeWhileBusy (regAt off) = false := by
  rw [regAt_reserved h]
  rfl

/-- Settles O13: each access changes at most the record, and the command runs the same under any record. -/
theorem accessesWhileBusyDoNotDisturbTheCommand : Obligations.AccessesWhileBusyDoNotDisturbTheCommand := by
  intro s w i off v rest hidle hi ho ha u hexec
  have hprogress := exec_progress hexec
  have hreads : u.hostReads = s.hostReads := hprogress.hostReads
  have hfree : u.freeIx = s.freeIx := hprogress.freeIx
  have hkept : ∀ reads, logged reads s.freeIx u = { u with hostReads := reads } := fun _ => by rw [← hfree]; rfl
  rw [hreads]
  refine ⟨fun h => ?store, fun h => ?status, fun h hne hlt => ?free, fun h hge => ?reserved⟩
  case store =>
    rw [step_under_command hidle h hi (performAccesses_store_busy ho ha rfl v) hexec]
    exact congrArg _ ((hkept s.hostReads).trans (by rw [← hreads]))
  case status =>
    have hload := performAccesses_load (s := setBusy { s with host := rest }) (off := 0x18) (by decide) (by decide)
    rw [step_under_command hidle h hi hload hexec]
    exact congrArg _ (hkept _)
  case free =>
    have hload := performAccesses_load (s := setBusy { s with host := rest }) ho ha
    rw [hostLoad_free rfl (freeWhileBusy_regAt off hlt ha hne)] at hload
    exact step_under_command hidle h hi hload hexec
  case reserved =>
    have hload := performAccesses_load (s := setBusy { s with host := rest }) ho ha
    rw [hostLoad_settled (freeWhileBusy_reserved hge), regAt_reserved hge] at hload
    rw [step_under_command hidle h hi hload hexec]
    exact congrArg _ (hkept _)

end Sys2Proof.Proofs
end
